-- ==== Sys2Proof/Word.lean ====
section
/-! DEFINITION. The words the CFE computes on (00_scope.md R3, R12, R13): every value is unsigned. -/

namespace Sys2Proof

/-- A byte of a byte string (00_scope.md R13). -/
abbrev Byte := BitVec 8

/-- An S-box entry, and one lane of a word (00_scope.md R12). -/
abbrev Nibble := BitVec 4

/-- A 32-bit word: a subkey, half a block, STATUS. -/
abbrev Word := BitVec 32

/-- An unsigned 64-bit size (42_frame_codec.md R169). -/
abbrev U64 := BitVec 64

/-- A byte string: a finite sequence of bytes, `b[0]` first (00_scope.md R13). -/
abbrev Bytes := List Byte

/-- The 32 key bytes (00_scope.md R3, 10_state.md R22). -/
abbrev Key := Vector Byte 32

/-- The subkey file, 32 words of 32 bits (10_state.md R24). -/
abbrev Subkeys := Vector Word 32

/-- The S-box table: `SBOX[r][x]`, 8 rows of 16 four-bit values (00_scope.md R4, 10_state.md R25). -/
abbrev SBox := Vector (Vector Nibble 16) 8

/-- DIR: 0 for encrypt, 1 for decrypt (10_state.md R26). -/
inductive Dir where
  | encrypt
  | decrypt
deriving DecidableEq, Repr, Inhabited

end Sys2Proof
end

