-- ==== Sys2Proof/Syntax.lean ====
section
/-! DEFINITION. The commands of the CFE: the rows of spec/opcode_table.json (30_encoding.md R100, R101). -/

namespace Sys2Proof

/-- A command. The payload is the operand, of any length (30_encoding.md R90, R104); LEN is its length, which the
command's own rule checks (R100). The table's seven ILLEGAL rows cut one opcode range into mask patterns; they are the
one constructor `illegal`, with the opcode as its field (log 14). -/
inductive Instr where
  /-- OP 0x01 (40_key_schedule.md R120). -/
  | setKey (payload : Bytes)
  /-- OP 0x02 (41_block_cipher.md R137). -/
  | encrypt (payload : Bytes)
  /-- OP 0x03 (41_block_cipher.md R138). -/
  | decrypt (payload : Bytes)
  /-- OP 0x04 (43_transfer_session.md R190). -/
  | ingest (payload : Bytes)
  /-- OP 0x05 (43_transfer_session.md R205). -/
  | disconnect (payload : Bytes)
  /-- OP 0x06 (44_control.md R230). -/
  | getStatus (payload : Bytes)
  /-- A reserved OP, 0x00 or 0x07 to 0xFF, with FLG 0x00 (44_control.md R231). -/
  | illegal (op : Byte) (payload : Bytes)
  /-- Any OP with FLG not 0x00 (44_control.md R232). -/
  | illegalFlg (op flg : Byte) (payload : Bytes)
deriving DecidableEq, Repr

end Sys2Proof
end

