-- ==== Sys2Proof/WellFormed.lean ====
section
/-! DEFINITION. Which commands have an encoding: LEN is a 16-bit field (00_scope.md R8, 30_encoding.md R90), `illegal` holds
a reserved opcode (R101), and `illegalFlg` a FLG that is not zero (R92). A wrong LEN for the opcode is well formed: the
command runs and fails (R100). -/

namespace Sys2Proof

/-- OP is reserved: 0x00 or 0x07 to 0xFF (30_encoding.md R101). -/
def reservedOp (op : Byte) : Bool :=
  op == 0x00#8 || 0x07#8 ≤ op

/-- The payload's length fits LEN (00_scope.md R8). -/
def payloadFits (p : Bytes) : Bool :=
  decide (p.length < 65536)

/-- The operand bytes of a command (30_encoding.md R104). -/
def Instr.payload : Instr → Bytes
  | .setKey p => p
  | .encrypt p => p
  | .decrypt p => p
  | .ingest p => p
  | .disconnect p => p
  | .getStatus p => p
  | .illegal _ p => p
  | .illegalFlg _ _ p => p

/-- A command that some byte string encodes. -/
def Instr.wf : Instr → Bool
  | .setKey p => payloadFits p
  | .encrypt p => payloadFits p
  | .decrypt p => payloadFits p
  | .ingest p => payloadFits p
  | .disconnect p => payloadFits p
  | .getStatus p => payloadFits p
  | .illegal op p => reservedOp op && payloadFits p
  | .illegalFlg _ flg p => flg != 0x00#8 && payloadFits p

end Sys2Proof
end

