-- ==== Sys2Proof/Decode.lean ====
section
/-! DEFINITION. Reading a command from the command stream, total on any bytes, and its encoder
(30_encoding.md R90 to R92, R100, R101). -/

namespace Sys2Proof

/-- BE16: the 16-bit value of two bytes, the first the most significant (00_scope.md R14). -/
def be16 (hi lo : Byte) : BitVec 16 :=
  hi ++ lo

/-- BE16bytes (00_scope.md R14). -/
def be16bytes (v : BitVec 16) : Bytes :=
  [v.extractLsb' 8 8, v.extractLsb' 0 8]

/-- Why a byte string does not begin with a whole command. There is no other reason: every header has a meaning
(30_encoding.md R101). -/
inductive DecodeError where
  /-- Fewer than the 4 header bytes (30_encoding.md R91). -/
  | headerIncomplete
  /-- A header with fewer than LEN payload bytes after it (30_encoding.md R91). -/
  | payloadIncomplete
deriving DecidableEq, Repr

/-- The command a header selects: FLG is tested before OP (30_encoding.md R92, 60_exceptions.md R265), and with FLG = 0x00
OP alone selects (30_encoding.md R100, R101). -/
def selectCommand (op flg : Byte) (payload : Bytes) : Instr :=
  if flg ≠ 0x00#8 then .illegalFlg op flg payload
  else if op = 0x01#8 then .setKey payload
  else if op = 0x02#8 then .encrypt payload
  else if op = 0x03#8 then .decrypt payload
  else if op = 0x04#8 then .ingest payload
  else if op = 0x05#8 then .disconnect payload
  else if op = 0x06#8 then .getStatus payload
  else .illegal op payload

/-- Read one whole command from the front of a byte string, and give the bytes after it (30_encoding.md R90, R91). -/
def decode : Bytes → Except DecodeError (Instr × Bytes)
  | op :: flg :: lenHi :: lenLo :: rest =>
    let len := (be16 lenHi lenLo).toNat
    if len ≤ rest.length then .ok (selectCommand op flg (rest.take len), rest.drop len)
    else .error .payloadIncomplete
  | _ => .error .headerIncomplete

/-- The OP byte of a command (30_encoding.md R100). -/
def Instr.op : Instr → Byte
  | .setKey _ => 0x01#8
  | .encrypt _ => 0x02#8
  | .decrypt _ => 0x03#8
  | .ingest _ => 0x04#8
  | .disconnect _ => 0x05#8
  | .getStatus _ => 0x06#8
  | .illegal op _ => op
  | .illegalFlg op _ _ => op

/-- The FLG byte of a command (30_encoding.md R92). -/
def Instr.flg : Instr → Byte
  | .setKey _ => 0x00#8
  | .encrypt _ => 0x00#8
  | .decrypt _ => 0x00#8
  | .ingest _ => 0x00#8
  | .disconnect _ => 0x00#8
  | .getStatus _ => 0x00#8
  | .illegal _ _ => 0x00#8
  | .illegalFlg _ flg _ => flg

/-- A header and a payload as bytes (30_encoding.md R90). -/
def encodeRaw (op flg : Byte) (payload : Bytes) : Bytes :=
  op :: flg :: be16bytes (BitVec.ofNat 16 payload.length) ++ payload

/-- The bytes of a command (30_encoding.md R90, R100). -/
def encode (i : Instr) : Bytes :=
  encodeRaw i.op i.flg i.payload

/-- Byte `k` of the payload of a table word: header bits are 31 to 0, payload byte `k` is bits `32+8k+7` to `32+8k`, and
every bit at or above `nbits` is 0 (log 21). -/
def tablePayloadByte (nbits w k : Nat) : Byte :=
  BitVec.ofNat 8 ((w % 2 ^ nbits) >>> (32 + 8 * k))

/-- The bytes, as the host sends them, of a table word: the header word is big-endian (30_encoding.md R90), LEN payload
bytes follow (log 21). -/
def tableBytes (nbits w : Nat) : Bytes :=
  let h := BitVec.ofNat 32 (w % 2 ^ nbits)
  [h.extractLsb' 24 8, h.extractLsb' 16 8, h.extractLsb' 8 8, h.extractLsb' 0 8]
    ++ (List.range (h.extractLsb' 0 16).toNat).map (tablePayloadByte nbits w)

/-- The command the decoder reads from a table word. -/
def decodeTableWord (nbits w : Nat) : Option Instr :=
  match decode (tableBytes nbits w) with
  | .ok (i, _) => some i
  | .error _ => none

end Sys2Proof
end

