-- ==== Sys2Proof/Machine/Operands.lean ====
section
/-! DEFINITION. Assembling operands from payload bytes, and numbers back to bytes: big-endian throughout
(00_scope.md R13, R14; 20_memory.md R63; 30_encoding.md R104). -/

namespace Sys2Proof.Machine

/-- `b[a..c)` (00_scope.md R13). -/
def slice (b : Bytes) (a c : Nat) : Bytes :=
  (b.drop a).take (c - a)

/-- BE32 (00_scope.md R14). -/
def be32 (b : Bytes) : Word :=
  b.getD 0 0#8 ++ b.getD 1 0#8 ++ b.getD 2 0#8 ++ b.getD 3 0#8

/-- BE32bytes (00_scope.md R14). -/
def be32bytes (w : Word) : Bytes :=
  [w.extractLsb' 24 8, w.extractLsb' 16 8, w.extractLsb' 8 8, w.extractLsb' 0 8]

/-- BE64 (00_scope.md R14). -/
def be64 (b : Bytes) : U64 :=
  b.getD 0 0#8 ++ b.getD 1 0#8 ++ b.getD 2 0#8 ++ b.getD 3 0#8 ++ b.getD 4 0#8 ++ b.getD 5 0#8 ++ b.getD 6 0#8 ++ b.getD 7 0#8

/-- BE64bytes (00_scope.md R14). -/
def be64bytes (v : U64) : Bytes :=
  [v.extractLsb' 56 8, v.extractLsb' 48 8, v.extractLsb' 40 8, v.extractLsb' 32 8,
   v.extractLsb' 24 8, v.extractLsb' 16 8, v.extractLsb' 8 8, v.extractLsb' 0 8]

/-- The key operand, `KEY[i] = PAYLOAD[i]` (30_encoding.md R104); SET_KEY has checked that the payload is 32 bytes. -/
def keyOperand (payload : Bytes) : Key :=
  Vector.ofFn fun i : Fin 32 => payload.getD i.val 0#8

/-- The left half of a block: its first 4 bytes, big-endian (41_block_cipher.md R135, R136). -/
def leftHalf (blk : Bytes) : Word :=
  be32 (slice blk 0 4)

/-- The right half of a block: its last 4 bytes, big-endian (41_block_cipher.md R135, R136). -/
def rightHalf (blk : Bytes) : Word :=
  be32 (slice blk 4 8)

end Sys2Proof.Machine
end

