-- ==== Sys2Proof/Config.lean ====
section
/-! DEFINITION. The parameters the spec leaves open and the free values. None has a body, so nothing can be proved of its
value: a claim that reads one holds for every value (93_implementation_defined.md, `parameter` and `any value`). -/

namespace Sys2Proof

/-- SBOX, whose 128 values no source gives (00_scope.md R4, 92 D12). No row is assumed to be a permutation. Log 3. -/
opaque Config.sbox : SBox

/-- LINE_MAX: a natural number or `none` (00_scope.md R6, 92 D14). Log 4. -/
opaque Config.lineMax : Option Nat

/-- SINK_NAME: a total, deterministic function from a filename to a sink name (00_scope.md R5, 92 D13). Log 5. -/
opaque Config.sinkName : Bytes → Bytes

/-- REF_KEY: the reference system's key. No rule reads it (00_scope.md R9, 92 D33). Log 6. -/
opaque Config.refKey : Key

/-- KEY after the reset that draws `n`: any value (10_state.md R45, 93 U3). Log 1. -/
opaque Config.resetKey : Nat → Key

/-- KS after the reset that draws `n`: any value (10_state.md R45, 93 U3). Log 1. -/
opaque Config.resetSubkeys : Nat → Subkeys

/-- L between commands: any value (10_state.md R26, 93 U4). Log 2. -/
opaque Config.idleL : Nat → Word

/-- R between commands: any value (10_state.md R26, 93 U4). Log 2. -/
opaque Config.idleR : Nat → Word

/-- RND between commands: any value (10_state.md R26, 93 U4). Log 2. -/
opaque Config.idleRnd : Nat → BitVec 5

/-- DIR between commands: any value (10_state.md R26, 93 U4). Log 2. -/
opaque Config.idleDir : Nat → Dir

/-- A byte that STRUNC adds when it extends a file: any value (20_memory.md R80, 93 U6). Log 9. -/
opaque Config.extendByte : Nat → Byte

/-- What the sink holds under the handle's name once another writer has touched the held file, and after each later write or
truncation of it: any contents, or no file (70_reset_and_hazards.md R311, 93 U16). Logs 16 and 27. -/
opaque Config.lostFile : Nat → Option Bytes

/-- The sink's answer byte once the answers held in the state are used up (00_scope.md R10, 93 U7). Log 8. -/
opaque Config.sinkAnswer : Nat → Byte

/-- The 4-byte LEN of a trace item whose DATA is too long for 4 bytes; the spec states none (30_encoding.md R95). Log 18. -/
opaque Config.oversizeLen : Nat → Word

end Sys2Proof
end

