-- ==== Sys2Proof/Machine/State.lean ====
section
/-! DEFINITION. The state of the CFE and of the two agents around it, as plain data (10_state.md, 20_memory.md R80,
30_encoding.md R93 to R99), and the state after reset (10_state.md R45). -/

namespace Sys2Proof.Machine

/-- PHASE; the value 3 is never held, so there is no fourth constructor (10_state.md R30, 93 U14). -/
inductive Phase where
  | awaitingHeader
  | receivingBody
  | desynchronized
deriving DecidableEq, Repr

/-- A status code other than OK: the exceptions a command can raise (30_encoding.md R94, 60_exceptions.md R261). -/
inductive Failure where
  | illegalCmd
  | keyLen
  | blockLen
  | noKey
  | keyLocked
  | desync
deriving DecidableEq, Repr

/-- STS. The reserved codes are never returned, so they have no constructor (30_encoding.md R94, 93 U13). -/
inductive Status where
  | ok
  | failed (f : Failure)
deriving DecidableEq, Repr

/-- A response: the status code and RDATA (30_encoding.md R93). -/
structure Response where
  status : Status
  rdata : Bytes
deriving DecidableEq, Repr

/-- Why a header failed to parse (30_encoding.md R99). -/
inductive Reason where
  | unrecognizedPrefix
  | fieldCount
  | origNotNumeric
  | padNotNumeric
  | sizeRange
  | padNotMult8
  | lineTooLong
deriving DecidableEq, Repr

/-- The TYPE of a sink operation, without its data (30_encoding.md R97). -/
inductive SinkKind where
  | sopen
  | swrite
  | strunc
  | sclose
  | sdelete
deriving DecidableEq, Repr

/-- A sink operation with its data (30_encoding.md R97). -/
inductive SinkOp where
  | sopen (name : Bytes)
  | swrite (data : Bytes)
  | strunc (size : U64)
  | sclose
  | sdelete
deriving DecidableEq, Repr

/-- An event, sent to the host (30_encoding.md R96). -/
inductive Event where
  | text (body : Bytes)
  | file (name : Bytes)
  | connLost
  | protocolError (reason : Reason)
  | ioError (op : SinkKind)
deriving DecidableEq, Repr

/-- An item of an output trace (30_encoding.md R95). -/
inductive TraceItem where
  | event (e : Event)
  | sink (op : SinkOp)
deriving DecidableEq, Repr

/-- What the host receives for one command: its response and its output trace (00_scope.md R2, R11). -/
structure CommandResult where
  response : Response
  trace : List TraceItem
deriving DecidableEq, Repr

/-- The datapath registers L, R, RND and DIR (10_state.md R26). -/
structure Datapath where
  l : Word
  r : Word
  rnd : BitVec 5
  dir : Dir
deriving DecidableEq, Repr

/-- A file of the reference sink: its name and its contents (20_memory.md R80). -/
abbrev FileEntry := Bytes × Bytes

/-- The reference sink: FS, its files by name in strictly rising order, and the handle CUR (20_memory.md R80). `disturbed` is
the model's own: another writer has touched CUR's file while the engine held it (70_reset_and_hazards.md R311, log 27). -/
structure RefSink where
  fs : List FileEntry
  cur : Option Bytes
  disturbed : Bool
deriving DecidableEq, Repr

/-- The state. INVENTORY.md lists each field with its rule. -/
structure State where
  /-- KEY (10_state.md R22). -/
  key : Key
  /-- KEY_VALID (10_state.md R23). -/
  keyValid : Bool
  /-- KS (10_state.md R24). -/
  ks : Subkeys
  /-- SBOX, a ROM (10_state.md R25). -/
  sbox : SBox
  /-- L, R, RND, DIR (10_state.md R26). -/
  dp : Datapath
  /-- PHASE (10_state.md R30). -/
  phase : Phase
  /-- BUF (10_state.md R27). -/
  buf : Bytes
  /-- FNAME (10_state.md R28). -/
  fname : Bytes
  /-- ORIG_SIZE (10_state.md R28). -/
  origSize : U64
  /-- PAD_SIZE (10_state.md R28). -/
  padSize : U64
  /-- REMAIN (10_state.md R28). -/
  remain : U64
  /-- SINK_HELD (10_state.md R29). -/
  sinkHeld : Bool
  /-- SINK_FAILED (10_state.md R29). -/
  sinkFailed : Bool
  /-- STICKY: bit `j` is STATUS bit `8+j` (10_state.md R33, R36). -/
  sticky : BitVec 8
  /-- The parameter LINE_MAX (00_scope.md R6). -/
  lineMax : Option Nat
  /-- The command bytes the host has delivered and the engine has not yet executed (20_memory.md R62). -/
  cmdIn : Bytes
  /-- The host asks for a reset (70_reset_and_hazards.md R300). -/
  resetReq : Bool
  /-- The output trace of the command being executed; empty between commands (30_encoding.md R95). -/
  trace : List TraceItem
  /-- All the host has received, oldest first (00_scope.md R2). -/
  done : List CommandResult
  /-- The sink agent's files and handle (20_memory.md R80). -/
  sink : RefSink
  /-- The sink agent's answers still to come (30_encoding.md R98). -/
  answers : Bytes
  /-- How many free values have been drawn: the model's own field (log 10). -/
  draws : Nat
deriving DecidableEq, Repr

/-- Why the machine would stop with a fault. There is no constructor: every rule's pseudocode is total (00_scope.md R17), an
error is a status code or an event (60_exceptions.md R267), and the hardware answers every encoding (93 U11). -/
inductive Fault where
deriving DecidableEq, Repr

/-- Why an instruction would have no meaning. -/
inductive Refusal where
  /-- Raised only by an arm of `exec` whose instruction has no meaning yet; safe: the machine stops where the hardware
  goes on. No arm raises it. -/
  | notModelled (mnemonic : String)
deriving DecidableEq, Repr

/-- The datapath registers between commands, a free value (10_state.md R26). Log 2. -/
def idleDatapath (n : Nat) : Datapath :=
  { l := Config.idleL n, r := Config.idleR n, rnd := Config.idleRnd n, dir := Config.idleDir n }

/-- The machine right after reset, at power-on (10_state.md R45, 70_reset_and_hazards.md R300). KEY, KS and the datapath
registers are free values (log 1, log 2). The sink is empty, no answer is scripted and no command is delivered (log 7, log 8,
log 11). -/
def State.reset : State :=
  { key := Config.resetKey 0
    keyValid := false
    ks := Config.resetSubkeys 0
    sbox := Config.sbox
    dp := idleDatapath 0
    phase := .awaitingHeader
    buf := []
    fname := []
    origSize := 0#64
    padSize := 0#64
    remain := 0#64
    sinkHeld := false
    sinkFailed := false
    sticky := 0#8
    lineMax := Config.lineMax
    cmdIn := []
    resetReq := false
    trace := []
    done := []
    sink := { fs := [], cur := none, disturbed := false }
    answers := []
    draws := 1 }

end Sys2Proof.Machine
end

