-- ==== Sys2Proof/Machine/Flags.lean ====
section
/-! DEFINITION. The status register and its sticky error bits (10_state.md R30 to R36), and the code numbers they and the
ports use (30_encoding.md R94, R96, R97, R99). -/

namespace Sys2Proof.Machine

/-- A 1-bit flag as a 32-bit number (10_state.md R33). -/
def flagWord (b : Bool) : Word :=
  if b then 1#32 else 0#32

/-- PHASE as its 2-bit value (10_state.md R30). -/
def Phase.code : Phase → BitVec 2
  | .awaitingHeader => 0#2
  | .receivingBody => 1#2
  | .desynchronized => 2#2

/-- The status code of a failure (30_encoding.md R94). -/
def Failure.code : Failure → Byte
  | .illegalCmd => 0x01#8
  | .keyLen => 0x02#8
  | .blockLen => 0x03#8
  | .noKey => 0x04#8
  | .keyLocked => 0x05#8
  | .desync => 0x06#8

/-- STS (30_encoding.md R94). -/
def Status.code : Status → Byte
  | .ok => 0x00#8
  | .failed f => f.code

/-- The reason code of a protocol error (30_encoding.md R99). -/
def Reason.code : Reason → Byte
  | .unrecognizedPrefix => 0x01#8
  | .fieldCount => 0x02#8
  | .origNotNumeric => 0x03#8
  | .padNotNumeric => 0x04#8
  | .sizeRange => 0x05#8
  | .padNotMult8 => 0x06#8
  | .lineTooLong => 0x07#8

/-- The TYPE of a sink operation (30_encoding.md R97). -/
def SinkKind.code : SinkKind → Byte
  | .sopen => 0x20#8
  | .swrite => 0x21#8
  | .strunc => 0x22#8
  | .sclose => 0x23#8
  | .sdelete => 0x24#8

/-- The sticky bits with bit `j`, STATUS bit `8+j`, set; a bit already set stays set (10_state.md R36). -/
def setSticky (st : BitVec 8) (j : Nat) : BitVec 8 :=
  st ||| (1#8 <<< j)

/-- The place in STICKY of the bit of a failure with code `S`: STATUS bit `7+S` (10_state.md R35). -/
def Failure.stickyBit (f : Failure) : Nat :=
  f.code.toNat - 1

/-- ERR_PROTOCOL, STATUS bit 14 (10_state.md R31). -/
def protocolBit : Nat := 6

/-- ERR_IO, STATUS bit 15 (10_state.md R31). -/
def ioBit : Nat := 7

/-- STATUS, computed from the elements it copies (10_state.md R32, R33). -/
def status (s : State) : Word :=
  flagWord s.keyValid ||| (s.phase.code.setWidth 32 <<< 1) ||| (flagWord s.sinkHeld <<< 3)
    ||| (flagWord s.sinkFailed <<< 4) ||| (s.sticky.setWidth 32 <<< 8)

end Sys2Proof.Machine
end

