-- ==== Sys2Proof/Machine/Sink.lean ====
section
/-! DEFINITION. The reference sink: what each operation does to FS and CUR when its answer is `ok` (20_memory.md R80).
An operation answered `fail` changes neither. -/

namespace Sys2Proof.Machine

/-- The TYPE of a sink operation (30_encoding.md R97). -/
def SinkOp.kind : SinkOp → SinkKind
  | .sopen _ => .sopen
  | .swrite _ => .swrite
  | .strunc _ => .strunc
  | .sclose => .sclose
  | .sdelete => .sdelete

/-- The order of file names: byte by byte, a prefix first. It only fixes the list's canonical form (log 25). -/
def nameLt : Bytes → Bytes → Bool
  | _, [] => false
  | [], _ :: _ => true
  | a :: as, b :: bs => if a = b then nameLt as bs else decide (a.toNat < b.toNat)

/-- `FS[name]`, or none where no file has the name. -/
def lookupFile : List FileEntry → Bytes → Option Bytes
  | [], _ => none
  | (n, d) :: rest, name => if n = name then some d else lookupFile rest name

/-- `FS[name] <- data`, keeping the names in rising order. -/
def putFile : List FileEntry → Bytes → Bytes → List FileEntry
  | [], name, data => [(name, data)]
  | (n, d) :: rest, name, data =>
    if n = name then (name, data) :: rest
    else if nameLt name n then (name, data) :: (n, d) :: rest
    else (n, d) :: putFile rest name data

/-- Remove `name` from FS's domain. -/
def dropFile (fs : List FileEntry) (name : Bytes) : List FileEntry :=
  fs.filter fun e => e.1 ≠ name

/-- The canonical form of FS: names strictly rising (log 25). -/
def filesWf : List FileEntry → Bool
  | [] => true
  | e :: rest => rest.all (fun f => nameLt e.1 f.1) && filesWf rest

/-- The bytes a file holds after STRUNC to `size`; the bytes added past its end are free values (20_memory.md R80, 93 U6). -/
def truncated (data : Bytes) (size draw : Nat) : Bytes :=
  if size ≤ data.length then data.take size
  else data ++ (List.range (size - data.length)).map fun i => Config.extendByte (draw + i)

/-- How many free values STRUNC draws. -/
def truncDraws (data : Bytes) (size : Nat) : Nat :=
  size - data.length

/-- Under `name`, whatever the sink gives: a free value, which may be no file (93 U16, logs 16 and 27). -/
def RefSink.anyContents (k : RefSink) (name : Bytes) (draw : Nat) : RefSink :=
  match Config.lostFile draw with
  | none => { k with fs := dropFile k.fs name }
  | some data => { k with fs := putFile k.fs name data }

/-- The contents of the file CUR names, where they are the engine's own: none where another writer has touched the file
(70_reset_and_hazards.md R311, log 27), and where there is no such file (log 16). -/
def RefSink.ownData (k : RefSink) : Option Bytes :=
  if k.disturbed then none else k.cur.bind (lookupFile k.fs)

/-- Change the file CUR names (20_memory.md R80); where its contents are not the engine's own, the result is any contents
(93 U16, logs 16 and 27). CUR is none only before the first SOPEN, where no rule issues such an operation (log 16). -/
def RefSink.updateCur (k : RefSink) (draw : Nat) (f : Bytes → Bytes) : RefSink :=
  match k.cur with
  | none => k
  | some name =>
    match k.ownData with
    | none => k.anyContents name draw
    | some data => { k with fs := putFile k.fs name (f data) }

/-- Another writer touches the held file: its contents are any, now and after every later write or truncation, until the next
SOPEN (70_reset_and_hazards.md R311, 93 U16, log 27). -/
def RefSink.disturb (k : RefSink) (name : Bytes) (draw : Nat) : RefSink :=
  { k.anyContents name draw with disturbed := true }

/-- A sink operation answered `ok` (20_memory.md R80). -/
def RefSink.apply (k : RefSink) (draw : Nat) : SinkOp → RefSink
  | .sopen name => { fs := putFile k.fs name [], cur := some name, disturbed := false }
  | .swrite data => k.updateCur draw (· ++ data)
  | .strunc size => k.updateCur draw fun d => truncated d size.toNat draw
  | .sclose => k
  | .sdelete =>
    match k.cur with
    | none => k
    | some name => { k with fs := dropFile k.fs name }

/-- How many free values a sink operation answered `ok` draws: one for each byte STRUNC adds, and one where the file's contents
are not the engine's own. -/
def RefSink.draws (k : RefSink) : SinkOp → Nat
  | .strunc size =>
    match k.ownData with
    | none => 1
    | some d => truncDraws d size.toNat
  | .sopen _ => 0
  | .swrite _ =>
    match k.ownData with
    | none => 1
    | some _ => 0
  | .sclose => 0
  | .sdelete => 0

end Sys2Proof.Machine
end

