-- ==== Sys2Proof/Machine/Ops.lean ====
section
/-! DEFINITION. The primitives of the spec's pseudocode (00_scope.md R16): failing a command (the one way an exception is
taken, 60_exceptions.md R267), emitting an event, a sink operation and its answer, and the response. There is no return from
an exception: the next command runs normally (60_exceptions.md R268). Then reset and the fetch of a command. -/

namespace Sys2Proof.Machine

/-- A command starts with an empty output trace (30_encoding.md R95). -/
def State.begin (s : State) : State :=
  { s with trace := [] }

/-- A command ends: the host receives its response and its output trace (30_encoding.md R93, R95). -/
def State.finish (r : Response) (s : State) : State :=
  { s with done := s.done ++ [{ response := r, trace := s.trace }], trace := [] }

/-- `respond(d)`: status OK and response data `d` (00_scope.md R16). -/
def State.respond (d : Bytes) (s : State) : State :=
  s.finish { status := .ok, rdata := d }

/-- `fail S`: the command ends with status code S and empty response data, its sticky bit is set, and nothing else changes
(00_scope.md R16, 10_state.md R36, 60_exceptions.md R267). -/
def State.fail (f : Failure) (s : State) : State :=
  { s with sticky := setSticky s.sticky f.stickyBit }.begin.finish { status := .failed f, rdata := [] }

/-- Append an item to the command's output trace (30_encoding.md R95, 20_memory.md R75). -/
def State.record (item : TraceItem) (s : State) : State :=
  { s with trace := s.trace ++ [item] }

/-- `emit E(data)` (00_scope.md R16). -/
def State.emit (e : Event) (s : State) : State :=
  s.record (.event e)

/-- The sink's next answer byte: the first of those the state holds, else a free value (30_encoding.md R98, log 8). -/
def State.nextAnswer (s : State) : Byte :=
  match s.answers with
  | a :: _ => a
  | [] => Config.sinkAnswer s.draws

/-- The state once the next answer is taken. -/
def State.tookAnswer (s : State) : State :=
  match s.answers with
  | _ :: rest => { s with answers := rest }
  | [] => { s with draws := s.draws + 1 }

/-- Whether the next answer is `ok`: the byte 0x00; any other value is `fail` (30_encoding.md R98). -/
def State.answersOk (s : State) : Bool :=
  s.nextAnswer == 0x00#8

/-- The reference sink carries out an operation answered `ok` (20_memory.md R80). -/
def State.applySink (op : SinkOp) (s : State) : State :=
  { s with sink := s.sink.apply s.draws op, draws := s.draws + s.sink.draws op }

/-- `a <- SinkOp(OP, data)`: the operation joins the trace, and the sink's answer is taken before anything else
(00_scope.md R16, 30_encoding.md R98, 20_memory.md R76). The answer is `s.answersOk`. -/
def State.sinkOp (op : SinkOp) (s : State) : State :=
  let t := s.tookAnswer.record (.sink op)
  if s.answersOk then t.applySink op else t

/-- Reset: every element to its reset value, the unspecified ones to free values. The SBOX ROM and the sink's contents stay, no
sink operation is issued, no event emitted and no response sent (10_state.md R45, 70_reset_and_hazards.md R300, R301).
What the host holds (the commands it has delivered, what it has received) is not the CFE's and stays (log 13). -/
def State.resetFrom (s : State) : State :=
  { State.reset with
    key := Config.resetKey s.draws
    ks := Config.resetSubkeys s.draws
    dp := idleDatapath s.draws
    sbox := s.sbox
    lineMax := s.lineMax
    cmdIn := s.cmdIn
    done := s.done
    sink := s.sink
    answers := s.answers
    draws := s.draws + 1 }

/-- The next whole command of the command stream, and the state with it taken off. None where no whole command has arrived
(30_encoding.md R91, 70_reset_and_hazards.md R307). -/
def State.fetch (s : State) : Option (Instr × State) :=
  match decode s.cmdIn with
  | .ok (i, rest) => some (i, { s with cmdIn := rest })
  | .error _ => none

/-- The state with a table word's command delivered ahead of the command stream, and no reset asked for. -/
def State.deliverTableWord (s : State) (nbits w : Nat) : State :=
  { s with cmdIn := tableBytes nbits w ++ s.cmdIn, resetReq := false }

end Sys2Proof.Machine
end

