-- ==== Sys2Proof/Machine/Control.lean ====
section
/-! DEFINITION. GET_STATUS and the reserved encodings (44_control.md). -/

namespace Sys2Proof.Machine

/-- GET_STATUS (44_control.md R230). -/
def execGetStatus (payload : Bytes) (s : State) : Host.Outcome State Fault Refusal :=
  if payload.length ≠ 0 then .next (s.fail .illegalCmd)
  else .next (s.begin.respond (be32bytes (status s)))

/-- ILLEGAL: a reserved opcode. Its payload has been read whole, and is dropped (44_control.md R231). -/
def execIllegal (_op : Byte) (_payload : Bytes) (s : State) : Host.Outcome State Fault Refusal :=
  .next (s.fail .illegalCmd)

/-- ILLEGAL_FLG: FLG is not zero, whatever OP and LEN are (44_control.md R232). -/
def execIllegalFlg (_op _flg : Byte) (_payload : Bytes) (s : State) : Host.Outcome State Fault Refusal :=
  .next (s.fail .illegalCmd)

end Sys2Proof.Machine
end

