-- ==== Sys2Proof/Machine/KeySchedule.lean ====
section
/-! DEFINITION. SET_KEY and the subkey schedule (40_key_schedule.md). -/

namespace Sys2Proof.Machine

/-- Word `j` of the key: `BE32(key[4j .. 4j+4))` (40_key_schedule.md R121). -/
def keyWord (key : Key) (j : Nat) : Word :=
  be32 (slice key.toList (4 * j) (4 * j + 4))

/-- Schedule(key): the key's words three times, then reversed (40_key_schedule.md R121). -/
def schedule (key : Key) : Subkeys :=
  Vector.ofFn fun i : Fin 32 => if i.val < 24 then keyWord key (i.val % 8) else keyWord key (31 - i.val)

/-- Load a 32-byte key: KEY, all of KS and KEY_VALID in one step (40_key_schedule.md R120). -/
def State.loadKey (key : Key) (s : State) : State :=
  { s with key := key, ks := schedule key, keyValid := true }

/-- SET_KEY (40_key_schedule.md R120). -/
def execSetKey (payload : Bytes) (s : State) : Host.Outcome State Fault Refusal :=
  if payload.length ≠ 32 then .next (s.fail .keyLen)
  else if s.keyValid then .next (s.fail .keyLocked)
  else .next ((s.begin.loadKey (keyOperand payload)).respond [])

end Sys2Proof.Machine
end

