-- ==== Sys2Proof/Machine/Cipher.lean ====
section
/-! DEFINITION. The round function, the 32-round block cipher, ENCRYPT and DECRYPT (41_block_cipher.md). -/

namespace Sys2Proof.Machine

/-- Nibble `i` of a word: `t[4i+3:4i]` (00_scope.md R12). -/
def nibble (t : Word) (i : Nat) : Nibble :=
  t.extractLsb' (4 * i) 4

/-- Lane `i` of Substitute: nibble `i` through row `7 - i`, back in place (41_block_cipher.md R130, R131). -/
def substituteLane (sbox : SBox) (t : Word) (i : Fin 8) : Word :=
  ((sbox.get (7 - i)).get (nibble t i.val).toFin).setWidth 32 <<< (4 * i.val)

/-- Substitute (41_block_cipher.md R130). -/
def substitute (sbox : SBox) (t : Word) : Word :=
  substituteLane sbox t 0 ||| substituteLane sbox t 1 ||| substituteLane sbox t 2 ||| substituteLane sbox t 3
    ||| substituteLane sbox t 4 ||| substituteLane sbox t 5 ||| substituteLane sbox t 6 ||| substituteLane sbox t 7

/-- rotl32 (00_scope.md R15). -/
def rotl32 (x : Word) (n : Nat) : Word :=
  (x <<< n) ||| (x >>> (32 - n))

/-- G(a, k) (41_block_cipher.md R133). -/
def roundG (sbox : SBox) (a k : Word) : Word :=
  rotl32 (substitute sbox (a + k)) 11

/-- The key of a round: KS[RND], or KS[31 - RND] for decrypt (41_block_cipher.md R135). -/
def roundKey (ks : Subkeys) (dir : Dir) (rnd : BitVec 5) : Word :=
  match dir with
  | .encrypt => ks.get rnd.toFin
  | .decrypt => ks.get (31#5 - rnd).toFin

/-- One Feistel round, on the old pair (41_block_cipher.md R134). -/
def feistel (sbox : SBox) (k : Word) (p : Word × Word) : Word × Word :=
  (p.2, p.1 ^^^ roundG sbox p.2 k)

/-- Round `rnd` on the datapath registers (41_block_cipher.md R135). -/
def Datapath.round (sbox : SBox) (ks : Subkeys) (d : Datapath) (rnd : BitVec 5) : Datapath :=
  let p := feistel sbox (roundKey ks d.dir rnd) (d.l, d.r)
  { d with l := p.1, r := p.2, rnd := rnd }

/-- The datapath loaded with a block, before round 0 (41_block_cipher.md R135). -/
def Datapath.load (dir : Dir) (blk : Bytes) : Datapath :=
  { l := leftHalf blk, r := rightHalf blk, rnd := 0#5, dir := dir }

/-- All 32 rounds, RND from 0 to 31 (41_block_cipher.md R135). -/
def Datapath.run (sbox : SBox) (ks : Subkeys) (d : Datapath) : Datapath :=
  (List.range 32).foldl (fun d i => d.round sbox ks (BitVec.ofNat 5 i)) d

/-- The output block: the final right half, then the final left half (41_block_cipher.md R135, R136). -/
def Datapath.output (d : Datapath) : Bytes :=
  be32bytes d.r ++ be32bytes d.l

/-- Crypt(blk, DIR), a function of SBOX, KS and the block (41_block_cipher.md R135, R137). -/
def crypt (sbox : SBox) (ks : Subkeys) (dir : Dir) (blk : Bytes) : Bytes :=
  ((Datapath.load dir blk).run sbox ks).output

/-- The datapath has run: its registers hold any value from here on (10_state.md R26, 93 U4, log 2). -/
def State.releaseDatapath (s : State) : State :=
  { s with dp := idleDatapath s.draws, draws := s.draws + 1 }

/-- The body of ENCRYPT and DECRYPT (41_block_cipher.md R137, R138). -/
def cipherCommand (dir : Dir) (payload : Bytes) (s : State) : State :=
  if payload.length ≠ 8 then s.fail .blockLen
  else if s.keyValid = false then s.fail .noKey
  else s.begin.releaseDatapath.respond (crypt s.sbox s.ks dir payload)

/-- ENCRYPT (41_block_cipher.md R137). -/
def execEncrypt (payload : Bytes) (s : State) : Host.Outcome State Fault Refusal :=
  .next (cipherCommand .encrypt payload s)

/-- DECRYPT (41_block_cipher.md R138). -/
def execDecrypt (payload : Bytes) (s : State) : Host.Outcome State Fault Refusal :=
  .next (cipherCommand .decrypt payload s)

end Sys2Proof.Machine
end

