-- ==== Sys2Proof/Machine/FrameCodec.lean ====
section
/-! DEFINITION. Finding a header line and parsing it: pure functions of bytes (42_frame_codec.md). -/

namespace Sys2Proof.Machine

/-- The line delimiter, the only one (42_frame_codec.md R161). -/
def lineEnd : Byte := 0x0A#8

/-- The field separator `:` (00_scope.md R13). -/
def colon : Byte := 0x3A#8

/-- `"TEXT:"` (42_frame_codec.md R164). -/
def textTag : Bytes := [0x54#8, 0x45#8, 0x58#8, 0x54#8, 0x3A#8]

/-- `"FILE:"` (42_frame_codec.md R164). -/
def fileTag : Bytes := [0x46#8, 0x49#8, 0x4C#8, 0x45#8, 0x3A#8]

/-- The first line of a buffer and what follows its delimiter, or none where there is no 0x0A
(42_frame_codec.md R160, R162). -/
def takeLine : Bytes → Option (Bytes × Bytes)
  | [] => none
  | b :: rest =>
    if b = lineEnd then some ([], rest)
    else (takeLine rest).map fun p => (b :: p.1, p.2)

/-- `split(b, 0x3A)`: cut at every colon, keeping the empty pieces (00_scope.md R13). -/
def splitColon : Bytes → List Bytes
  | [] => [[]]
  | b :: rest =>
    match splitColon rest with
    | [] => [[b]]
    | piece :: pieces => if b = colon then [] :: piece :: pieces else (b :: piece) :: pieces

/-- What ParseDec gives (42_frame_codec.md R168). -/
inductive DecField where
  | value (v : U64)
  | notNumeric
  | outOfRange
deriving DecidableEq, Repr

/-- What ParseHeader gives (42_frame_codec.md). -/
inductive Header where
  | text (body : Bytes)
  | file (name : Bytes) (orig pad : U64)
  | error (reason : Reason)
deriving DecidableEq, Repr

/-- An ASCII decimal digit, 0x30 to 0x39 (42_frame_codec.md R168). -/
def isDigit (b : Byte) : Bool :=
  0x30 ≤ b.toNat && b.toNat ≤ 0x39

/-- The number a digit string spells, most significant digit first, unbounded (42_frame_codec.md R168). -/
def decValue (s : Bytes) : Nat :=
  s.foldl (fun v d => 10 * v + (d.toNat - 0x30)) 0

/-- ParseDec (42_frame_codec.md R168, R169). -/
def parseDec (s : Bytes) : DecField :=
  if s = [] ∨ s.all isDigit = false then .notNumeric
  else if 2 ^ 64 ≤ decValue s then .outOfRange
  else .value (BitVec.ofNat 64 (decValue s))

/-- ParseText (42_frame_codec.md R165). -/
def parseText (line : Bytes) : Header :=
  .text (line.drop 5)

/-- The size fields of a FILE line, checked left to right (42_frame_codec.md R166, R170, R171). -/
def parseSizes (name orig pad : Bytes) : Header :=
  match parseDec orig with
  | .notNumeric => .error .origNotNumeric
  | .outOfRange => .error .sizeRange
  | .value o =>
    match parseDec pad with
    | .notNumeric => .error .padNotNumeric
    | .outOfRange => .error .sizeRange
    | .value p => if p.toNat % 8 ≠ 0 then .error .padNotMult8 else .file name o p

/-- ParseFile (42_frame_codec.md R166): exactly four fields, the tag FILE among them. -/
def parseFile (line : Bytes) : Header :=
  match splitColon line with
  | [_, name, orig, pad] => parseSizes name orig pad
  | _ => .error .fieldCount

/-- ParseHeader, by the first five bytes, compared exactly (42_frame_codec.md R164). -/
def parseHeader (line : Bytes) : Header :=
  if line.take 5 = textTag then parseText line
  else if line.take 5 = fileTag then parseFile line
  else .error .unrecognizedPrefix

end Sys2Proof.Machine
end

