-- ==== Sys2Proof/Machine/Session.lean ====
section
/-! DEFINITION. The transfer session: INGEST, the receive loop, and DISCONNECT (43_transfer_session.md). -/

namespace Sys2Proof.Machine

/-- ProtocolError(reason) (43_transfer_session.md R199). -/
def State.protocolError (reason : Reason) (s : State) : State :=
  { s.emit (.protocolError reason) with
    sticky := setSticky s.sticky protocolBit
    phase := .desynchronized
    buf := [] }

/-- Close and delete the held file; SCLOSE is not repeated where it is the operation that failed. The answers are ignored
(43_transfer_session.md R200, R202). -/
def State.abandonFile (closeFirst : Bool) (s : State) : State :=
  (if closeFirst then s.sinkOp .sclose else s).sinkOp .sdelete

/-- IoAbort(op) (43_transfer_session.md R200). -/
def State.ioAbort (op : SinkKind) (s : State) : State :=
  let e := { s.emit (.ioError op) with sticky := setSticky s.sticky ioBit }
  let c := if s.sinkHeld then e.abandonFile (op != .sclose) else e
  { c with sinkHeld := false, sinkFailed := true }

/-- TextFrame(body) (43_transfer_session.md R193). -/
def State.textFrame (body : Bytes) (s : State) : State :=
  s.emit (.text body)

/-- The file-transfer registers take a FILE header's fields (43_transfer_session.md R194). -/
def State.openTransfer (name : Bytes) (o p : U64) (s : State) : State :=
  { s with fname := name, origSize := o, padSize := p, remain := p, sinkFailed := false }

/-- FileFrame(name, o, p) (43_transfer_session.md R194). -/
def State.fileFrame (name : Bytes) (o p : U64) (s : State) : State :=
  let s1 := s.openTransfer name o p
  let s2 := s1.sinkOp (.sopen (Config.sinkName name))
  let s3 := if s1.answersOk then { s2 with sinkHeld := true } else s2.ioAbort .sopen
  { s3 with phase := .receivingBody }

/-- DecryptAndWrite(c) (43_transfer_session.md R197). -/
def State.decryptAndWrite (chunk : Bytes) (s : State) : State :=
  let d := s.releaseDatapath
  let t := d.sinkOp (.swrite (crypt s.sbox s.ks .decrypt chunk))
  if d.answersOk then t else t.ioAbort .swrite

/-- The session registers that completion, DISCONNECT and reset clear (43_transfer_session.md R198, R205). -/
def State.closeTransfer (s : State) : State :=
  { s with
    phase := .awaitingHeader
    fname := []
    origSize := 0#64
    padSize := 0#64
    remain := 0#64
    sinkHeld := false
    sinkFailed := false }

/-- Close the file after a good STRUNC, and deliver it (43_transfer_session.md R198). -/
def State.closeAndDeliver (s : State) : State :=
  let t := s.sinkOp .sclose
  if s.answersOk then { t with sinkHeld := false }.emit (.file (Config.sinkName s.fname)) else t.ioAbort .sclose

/-- Truncate, close and deliver the file (43_transfer_session.md R198). -/
def State.finishFile (s : State) : State :=
  let t := s.sinkOp (.strunc s.origSize)
  if s.answersOk then t.closeAndDeliver else t.ioAbort .strunc

/-- Complete() (43_transfer_session.md R198). -/
def State.complete (s : State) : State :=
  (if s.sinkFailed then s else s.finishFile).closeTransfer

/-- A pass of the receive loop either stops it or goes on (43_transfer_session.md R191). -/
inductive Pass where
  | stop (s : State)
  | again (s : State)
deriving DecidableEq, Repr

/-- LINE_MAX is a number that `n` exceeds (42_frame_codec.md R163). -/
def tooLong (lineMax : Option Nat) (n : Nat) : Bool :=
  match lineMax with
  | none => false
  | some m => decide (m < n)

/-- What a header line does (43_transfer_session.md R192). -/
def State.headerLine (line : Bytes) (s : State) : Pass :=
  if tooLong s.lineMax line.length then .stop (s.protocolError .lineTooLong)
  else
    match parseHeader line with
    | .text body => .again (s.textFrame body)
    | .file name o p => .again (s.fileFrame name o p)
    | .error reason => .stop (s.protocolError reason)

/-- BUF once a line is taken off its front (43_transfer_session.md R192). -/
def State.setBuf (rest : Bytes) (s : State) : State :=
  { s with buf := rest }

/-- HeaderStep() (43_transfer_session.md R192). -/
def State.headerStep (s : State) : Pass :=
  match takeLine s.buf with
  | none => .stop (if tooLong s.lineMax s.buf.length then s.protocolError .lineTooLong else s)
  | some (line, rest) => (s.setBuf rest).headerLine line

/-- Take one chunk off the body (43_transfer_session.md R195, R196). -/
def State.takeChunk (s : State) : State :=
  { s with buf := s.buf.drop 8, remain := s.remain - 8#64 }

/-- BodyStep() (43_transfer_session.md R195). -/
def State.bodyStep (s : State) : Pass :=
  if s.remain = 0#64 then .again s.complete
  else if s.buf.length < 8 then .stop s
  else if s.sinkFailed then .again s.takeChunk
  else .again (s.takeChunk.decryptAndWrite (slice s.buf 0 8))

/-- One pass of the receive loop (43_transfer_session.md R191). -/
def State.pass (s : State) : Pass :=
  match s.phase with
  | .awaitingHeader => s.headerStep
  | .receivingBody => s.bodyStep
  | .desynchronized => .stop s

/-- At most `fuel` passes of the receive loop. -/
def State.loop : Nat → State → State
  | 0, s => s
  | fuel + 1, s =>
    match s.pass with
    | .stop t => t
    | .again t => State.loop fuel t

/-- More passes than the loop can make: a pass that goes on removes a byte of BUF or leaves RECEIVING_BODY
(43_transfer_session.md R191, log 20). -/
def State.loopFuel (s : State) : Nat :=
  2 * s.buf.length + 2

/-- ReceiveLoop() (43_transfer_session.md R191). -/
def State.receiveLoop (s : State) : State :=
  s.loop s.loopFuel

/-- INGEST's payload joins BUF at its end (43_transfer_session.md R190). -/
def State.receive (payload : Bytes) (s : State) : State :=
  { s with buf := s.buf ++ payload }

/-- INGEST (43_transfer_session.md R190). -/
def execIngest (payload : Bytes) (s : State) : Host.Outcome State Fault Refusal :=
  if s.keyValid = false then .next (s.fail .noKey)
  else if s.phase = .desynchronized then .next (s.fail .desync)
  else .next ((s.begin.receive payload).receiveLoop.respond [])

/-- DISCONNECT's effect on the session and the sink (43_transfer_session.md R205). -/
def State.loseConnection (s : State) : State :=
  let t := if s.phase = .receivingBody ∧ s.sinkHeld = true then s.abandonFile true else s
  { t.emit .connLost with buf := [] }.closeTransfer

/-- DISCONNECT (43_transfer_session.md R205). -/
def execDisconnect (payload : Bytes) (s : State) : Host.Outcome State Fault Refusal :=
  if payload.length ≠ 0 then .next (s.fail .illegalCmd)
  else .next (s.begin.loseConnection.respond [])

end Sys2Proof.Machine
end

