-- ==== Sys2Proof/Machine/Dispatch.lean ====
section
/-! DEFINITION. One arm per command (30_encoding.md R100). -/

namespace Sys2Proof.Machine

def exec (i : Instr) (s : State) : Host.Outcome State Fault Refusal :=
  match i with
  | .setKey p => Sys2Proof.Machine.execSetKey p s
  | .encrypt p => Sys2Proof.Machine.execEncrypt p s
  | .decrypt p => Sys2Proof.Machine.execDecrypt p s
  | .ingest p => Sys2Proof.Machine.execIngest p s
  | .disconnect p => Sys2Proof.Machine.execDisconnect p s
  | .getStatus p => Sys2Proof.Machine.execGetStatus p s
  | .illegal op p => Sys2Proof.Machine.execIllegal op p s
  | .illegalFlg op flg p => Sys2Proof.Machine.execIllegalFlg op flg p s

end Sys2Proof.Machine
end

