-- ==== Sys2Proof/Machine/Step.lean ====
section
/-! DEFINITION. One step: a reset the host asks for, else one whole command (00_scope.md R11, 20_memory.md R74,
70_reset_and_hazards.md R300, R307). -/

namespace Sys2Proof.Machine

/-- One step. A reset that is asked for lands between commands (log 13). Where no whole command has arrived the engine waits,
with all state held (30_encoding.md R91, 60_exceptions.md R275, log 12). -/
def step (s : State) : Host.Outcome State Fault Refusal :=
  if s.resetReq then .next s.resetFrom
  else
    match s.fetch with
    | some (i, t) => exec i t
    | none => .next s

/-- The state whose next step runs the command of a table word: the host delivers its bytes ahead of the command stream,
and asks for no reset (log 11). -/
def State.withFetchWord (s : State) (nbits w : Nat) : State :=
  s.deliverTableWord nbits w

end Sys2Proof.Machine
end

