-- ==== Sys2Proof/Machine/SendPath.lean ====
section
/-! DEFINITION. The send path: host-side reference functions that fix the byte stream a correct sender produces. They are no
steps of the engine (45_send_path.md). -/

namespace Sys2Proof.Machine

/-- Pad(x) (45_send_path.md R240). -/
def pad (x : Bytes) : Bytes :=
  if x.length = 0 then []
  else
    let v := 8 - x.length % 8
    x ++ List.replicate v (BitVec.ofNat 8 v)

/-- The last `n` decimal digits of `v`, least significant first, stopping when nothing is left. -/
def decDigitsRev : Nat → Nat → Bytes
  | 0, _ => []
  | n + 1, v => BitVec.ofNat 8 (0x30 + v % 10) :: (if v / 10 = 0 then [] else decDigitsRev n (v / 10))

/-- Dec(v): the shortest decimal spelling (45_send_path.md R244). A value below 2^64 has at most 20 digits. -/
def dec (v : U64) : Bytes :=
  (decDigitsRev 20 v.toNat).reverse

/-- SerializeText(m); no result for a message that holds 0x0A (45_send_path.md R243, 93 U9). -/
def serializeText (m : Bytes) : Option Bytes :=
  if lineEnd ∈ m then none else some (textTag ++ m ++ [lineEnd])

/-- The header line of a file, without its delimiter (45_send_path.md R244). -/
def fileHeaderLine (name : Bytes) (o p : U64) : Bytes :=
  fileTag ++ name ++ [colon] ++ dec o ++ [colon] ++ dec p

/-- SerializeFileHeader(name, o, p), with a result only where the rule defines it (45_send_path.md R244). -/
def serializeFileHeader (name : Bytes) (o p : U64) : Option Bytes :=
  if colon ∈ name ∨ lineEnd ∈ name ∨ p.toNat % 8 ≠ 0 then none
  else some (fileHeaderLine name o p ++ [lineEnd])

/-- Encrypt `n` blocks of a body, each alone (45_send_path.md R245). -/
def encryptBlocks (sbox : SBox) (ks : Subkeys) : Nat → Bytes → Bytes
  | 0, _ => []
  | n + 1, y => crypt sbox ks .encrypt (slice y 0 8) ++ encryptBlocks sbox ks n (y.drop 8)

/-- EncryptBody(y), for a length that is a multiple of 8 (45_send_path.md R245). -/
def encryptBody (sbox : SBox) (ks : Subkeys) (y : Bytes) : Bytes :=
  encryptBlocks sbox ks (y.length / 8) y

/-- SerializeFile(name, x): the frame a correct sender writes (45_send_path.md R246, R247). A file whose padded length is
2^64 or more has no header, and so no result. -/
def serializeFile (sbox : SBox) (ks : Subkeys) (name x : Bytes) : Option Bytes :=
  if 2 ^ 64 ≤ (pad x).length then none
  else
    (serializeFileHeader name (BitVec.ofNat 64 x.length) (BitVec.ofNat 64 (pad x).length)).map
      (· ++ encryptBody sbox ks (pad x))

end Sys2Proof.Machine
end

