-- ==== Sys2Proof/Machine/Assembler.lean ====
section
/-! DEFINITION. The written form of a command program, and its pseudo-instructions: a function from lines of text to the
bytes the host sends. It is no step of the engine (30_encoding.md R106, R107, R108). -/

namespace Sys2Proof.Machine

/-- A token of a line: a bare word, a quoted string's bytes, or a comma. -/
inductive Token where
  | word (w : List Char)
  | str (b : Bytes)
  | comma
deriving DecidableEq, Repr

/-- Where the reader of a line stands. -/
inductive LexMode where
  | gap
  | word
  | str
  | escape
  | hexHigh
  | hexLow (high : Nat)
  | comment
  | bad
deriving DecidableEq, Repr

/-- The reader of a line; the word or string being read and the tokens read are held last first. -/
structure Lexer where
  mode : LexMode
  word : List Char
  str : Bytes
  out : List Token
deriving DecidableEq, Repr

/-- The value of a hex digit of either case (30_encoding.md R106). -/
def hexDigit (c : Char) : Option Nat :=
  let n := c.toNat
  if 48 ≤ n ∧ n ≤ 57 then some (n - 48)
  else if 97 ≤ n ∧ n ≤ 102 then some (n - 87)
  else if 65 ≤ n ∧ n ≤ 70 then some (n - 55)
  else none

/-- End the word being read. -/
def Lexer.endWord (x : Lexer) : Lexer :=
  { x with mode := .gap, word := [], out := .word x.word.reverse :: x.out }

/-- Add a byte to the string being read. -/
def Lexer.addByte (x : Lexer) (b : Byte) : Lexer :=
  { x with mode := .str, str := b :: x.str }

/-- A character between tokens; 34 is the double quote. -/
def Lexer.inGap (x : Lexer) (c : Char) : Lexer :=
  if c = ' ' ∨ c = '\t' then x
  else if c = ',' then { x with out := .comma :: x.out }
  else if c = ';' then { x with mode := .comment }
  else if c.toNat = 34 then { x with mode := .str, str := [] }
  else { x with mode := .word, word := [c] }

/-- A character of a word, or the one that ends it. -/
def Lexer.inWord (x : Lexer) (c : Char) : Lexer :=
  if c = ' ' ∨ c = '\t' ∨ c = ',' ∨ c = ';' then x.endWord.inGap c
  else if c.toNat = 34 then { x with mode := .bad }
  else { x with word := c :: x.word }

/-- A character of a string; only ASCII stands for itself (00_scope.md R13, log 22). A `;` inside a string is a byte of it and
starts no comment: R106 does not say (DESIGN CHOICE, safe, log 22). -/
def Lexer.inStr (x : Lexer) (c : Char) : Lexer :=
  if c.toNat = 34 then { x with mode := .gap, str := [], out := .str x.str.reverse :: x.out }
  else if c.toNat = 92 then { x with mode := .escape }
  else if c.toNat < 128 then x.addByte (BitVec.ofNat 8 c.toNat)
  else { x with mode := .bad }

/-- The character after a backslash; 34 is the double quote and 92 the backslash (30_encoding.md R106). -/
def Lexer.inEscape (x : Lexer) (c : Char) : Lexer :=
  if c = 'n' then x.addByte 0x0A#8
  else if c = 'r' then x.addByte 0x0D#8
  else if c.toNat = 92 then x.addByte 0x5C#8
  else if c.toNat = 34 then x.addByte 0x22#8
  else if c = 'x' then { x with mode := .hexHigh }
  else { x with mode := .bad }

/-- Read one character. -/
def Lexer.read (x : Lexer) (c : Char) : Lexer :=
  match x.mode with
  | .gap => x.inGap c
  | .word => x.inWord c
  | .str => x.inStr c
  | .escape => x.inEscape c
  | .hexHigh =>
    match hexDigit c with
    | some h => { x with mode := .hexLow h }
    | none => { x with mode := .bad }
  | .hexLow h =>
    match hexDigit c with
    | some l => x.addByte (BitVec.ofNat 8 (16 * h + l))
    | none => { x with mode := .bad }
  | .comment => x
  | .bad => x

/-- The tokens of a line, or none where the line is malformed. -/
def tokens (line : List Char) : Option (List Token) :=
  let x := line.foldl Lexer.read { mode := .gap, word := [], str := [], out := [] }
  match x.mode with
  | .gap => some x.out.reverse
  | .comment => some x.out.reverse
  | .word => some x.endWord.out.reverse
  | .str => none
  | .escape => none
  | .hexHigh => none
  | .hexLow _ => none
  | .bad => none

/-- Hex digits as bytes; the count of digits is even (30_encoding.md R106). -/
def hexPairs : List Char → Option Bytes
  | [] => some []
  | [_] => none
  | a :: b :: rest =>
    match hexDigit a, hexDigit b, hexPairs rest with
    | some h, some l, some bs => some (BitVec.ofNat 8 (16 * h + l) :: bs)
    | _, _, _ => none

/-- A `0x…` operand; `0x` alone is empty (30_encoding.md R106). -/
def hexOperand : List Char → Option Bytes
  | '0' :: 'x' :: digits => hexPairs digits
  | _ => none

/-- A `0x…` operand of exactly `n` bytes (30_encoding.md R106). -/
def hexOperandOf (n : Nat) (w : List Char) : Option Bytes :=
  (hexOperand w).filter fun b => b.length = n

/-- A line of a program: a command or a pseudo-instruction (30_encoding.md R106, R107). -/
inductive AsmLine where
  | blank
  | command (i : Instr)
  | raw (op flg : Byte) (payload : Bytes)
  | ingestText (m : Bytes)
  | ingestFile (name data : Bytes)
deriving DecidableEq, Repr

/-- A line whose one operand is a bare word. -/
def oneWord (mnemonic operand : List Char) : Option AsmLine :=
  if mnemonic = ['S', 'E', 'T', '_', 'K', 'E', 'Y'] then
    (hexOperandOf 32 operand).map fun b => .command (.setKey b)
  else if mnemonic = ['E', 'N', 'C', 'R', 'Y', 'P', 'T'] then
    (hexOperandOf 8 operand).map fun b => .command (.encrypt b)
  else if mnemonic = ['D', 'E', 'C', 'R', 'Y', 'P', 'T'] then
    (hexOperandOf 8 operand).map fun b => .command (.decrypt b)
  else if mnemonic = ['I', 'N', 'G', 'E', 'S', 'T'] then
    (hexOperand operand).map fun b => .command (.ingest b)
  else none

/-- A line without operands; SET_KEY_ZERO is SET_KEY of 32 zero bytes (30_encoding.md R107). -/
def noOperand (mnemonic : List Char) : Option AsmLine :=
  if mnemonic = ['D', 'I', 'S', 'C', 'O', 'N', 'N', 'E', 'C', 'T'] then some (.command (.disconnect []))
  else if mnemonic = ['G', 'E', 'T', '_', 'S', 'T', 'A', 'T', 'U', 'S'] then some (.command (.getStatus []))
  else if mnemonic = ['S', 'E', 'T', '_', 'K', 'E', 'Y', '_', 'Z', 'E', 'R', 'O'] then
    some (.command (.setKey (List.replicate 32 0#8)))
  else none

/-- A line whose one operand is a string. -/
def oneString (mnemonic : List Char) (operand : Bytes) : Option AsmLine :=
  if mnemonic = ['I', 'N', 'G', 'E', 'S', 'T'] then some (.command (.ingest operand))
  else if mnemonic = ['I', 'N', 'G', 'E', 'S', 'T', '_', 'T', 'E', 'X', 'T'] then some (.ingestText operand)
  else none

/-- `.cmd <op>, <flg>, 0x<hex>` (30_encoding.md R106); each of the two bytes is written with two hex digits (log 22). -/
def rawLine (op flg payload : List Char) : Option AsmLine :=
  match hexOperandOf 1 op, hexOperandOf 1 flg, hexOperand payload with
  | some [o], some [f], some p => some (.raw o f p)
  | _, _, _ => none

/-- The line that a token list spells (30_encoding.md R106, R107). A line without a token, blank or a comment alone, may stand in
a program and gives no bytes: R106 does not say (DESIGN CHOICE, safe, log 22). -/
def lineOf : List Token → Option AsmLine
  | [] => some .blank
  | [.word m] => noOperand m
  | [.word m, .word w] => oneWord m w
  | [.word m, .str b] => oneString m b
  | [.word m, .str name, .comma, .word w] =>
    if m = ['I', 'N', 'G', 'E', 'S', 'T', '_', 'F', 'I', 'L', 'E'] then (hexOperand w).map (.ingestFile name) else none
  | [.word m, .word op, .comma, .word flg, .comma, .word p] =>
    if m = ['.', 'c', 'm', 'd'] then rawLine op flg p else none
  | _ => none

/-- A line of text read as an assembly line. -/
def parseLine (line : List Char) : Option AsmLine :=
  (tokens line).bind lineOf

/-- A byte string cut into at most `n` pieces of at most 65535 bytes (30_encoding.md R107). R107 leaves the cut points open:
full pieces of 65535 bytes and then the rest is the model's choice (DESIGN CHOICE, safe, log 22). -/
def pieces : Nat → Bytes → List Bytes
  | 0, _ => []
  | n + 1, b => if b.length ≤ 65535 then [b] else b.take 65535 :: pieces n (b.drop 65535)

/-- A command's bytes, where its payload fits LEN (30_encoding.md R90). -/
def encodeFitting (i : Instr) : Option Bytes :=
  if i.wf then some (encode i) else none

/-- The key of the last SET_KEY once a line is read; a `.cmd` line is not one (30_encoding.md R107, log 22). -/
def lastKey (old : Option Key) : AsmLine → Option Key
  | .command (.setKey k) => some (keyOperand k)
  | _ => old

/-- The key of the last SET_KEY in a program, wherever it stands (30_encoding.md R107). -/
def programKey (program : List AsmLine) : Option Key :=
  program.foldl lastKey none

/-- The INGEST commands that carry a byte stream, cut as `pieces` cuts it (30_encoding.md R107, log 22). -/
def ingestAll (b : Bytes) : List Instr :=
  (pieces (b.length + 1) b).map .ingest

/-- The commands INGEST_FILE expands to; none where the program holds no SET_KEY, or the frame has no serialisation
(30_encoding.md R107). -/
def expandFile (sbox : SBox) (key : Option Key) (name data : Bytes) : Option (List Instr) :=
  (key.bind fun k => serializeFile sbox (schedule k) name data).map ingestAll

/-- The bytes of a line, given the key of the last SET_KEY in the program (30_encoding.md R106, R107). -/
def assembleLine (sbox : SBox) (key : Option Key) : AsmLine → Option Bytes
  | .blank => some []
  | .command i => encodeFitting i
  | .raw op flg p => if payloadFits p then some (encodeRaw op flg p) else none
  | .ingestText m => (serializeText m).bind fun b => encodeFitting (.ingest b)
  | .ingestFile name data => (expandFile sbox key name data).map (List.flatMap encode)

/-- The bytes of a program whose lines are read: each line under the one key of the whole program (30_encoding.md R106,
R107). -/
def assembleProgram (sbox : SBox) (program : List AsmLine) : Option Bytes :=
  (program.mapM (assembleLine sbox (programKey program))).map List.flatten

/-- The bytes the host sends for a program, one command per line (30_encoding.md R106). -/
def assemble (sbox : SBox) (lines : List (List Char)) : Option Bytes :=
  (lines.mapM parseLine).bind (assembleProgram sbox)

end Sys2Proof.Machine
end

