-- ==== Sys2Proof/Machine/HostPort.lean ====
section
/-! DEFINITION. The wire forms of what the CFE sends (30_encoding.md R93 to R99), and what the world outside the engine can
do to it (00_scope.md R10, 70_reset_and_hazards.md R300, R307, R311). -/

namespace Sys2Proof.Machine

/-- A response as bytes: STS, RSV, RLEN, RDATA (30_encoding.md R93). -/
def Response.bytes (r : Response) : Bytes :=
  r.status.code :: 0x00#8 :: be16bytes (BitVec.ofNat 16 r.rdata.length) ++ r.rdata

/-- The TYPE of an event (30_encoding.md R96). -/
def Event.code : Event → Byte
  | .text _ => 0x10#8
  | .file _ => 0x11#8
  | .connLost => 0x12#8
  | .protocolError _ => 0x13#8
  | .ioError _ => 0x14#8

/-- The DATA of an event (30_encoding.md R96). -/
def Event.data : Event → Bytes
  | .text body => body
  | .file name => name
  | .connLost => []
  | .protocolError reason => [reason.code]
  | .ioError op => [op.code]

/-- The DATA of a sink operation (30_encoding.md R97). -/
def SinkOp.data : SinkOp → Bytes
  | .sopen name => name
  | .swrite data => data
  | .strunc size => be64bytes size
  | .sclose => []
  | .sdelete => []

/-- The TYPE of a trace item (30_encoding.md R95). -/
def TraceItem.code : TraceItem → Byte
  | .event e => e.code
  | .sink op => op.kind.code

/-- The DATA of a trace item (30_encoding.md R95). -/
def TraceItem.data : TraceItem → Bytes
  | .event e => e.data
  | .sink op => op.data

/-- The LEN of a trace item. The spec gives it 4 bytes and no value where the data is longer than they can say: a free value
there (log 18). -/
def traceLen (n : Nat) : Word :=
  if n < 2 ^ 32 then BitVec.ofNat 32 n else Config.oversizeLen n

/-- A trace item as bytes: TYPE, LEN, DATA (30_encoding.md R95). -/
def TraceItem.bytes (t : TraceItem) : Bytes :=
  t.code :: be32bytes (traceLen t.data.length) ++ t.data

/-- What the host port carries for one command: its trace, then its response (30_encoding.md R93, R95). Only events go to the
host; sink operations go to the sink port. -/
def CommandResult.hostBytes (c : CommandResult) : Bytes :=
  (c.trace.flatMap fun t => match t with
    | .event _ => t.bytes
    | .sink _ => []) ++ c.response.bytes

/-- What the sink port carries for one command (30_encoding.md R95, R97). -/
def CommandResult.sinkBytes (c : CommandResult) : Bytes :=
  c.trace.flatMap fun t => match t with
    | .event _ => []
    | .sink _ => t.bytes

/-- What the host can observe: responses, output traces, and the sink's contents. STATUS is observed through a GET_STATUS
response (00_scope.md R2). -/
structure Observation where
  done : List CommandResult
  files : List FileEntry
deriving DecidableEq, Repr

/-- The observation of a state (00_scope.md R2, 70_reset_and_hazards.md R313). -/
def State.observe (s : State) : Observation :=
  { done := s.done, files := s.sink.fs }

/-- The host delivers command bytes (30_encoding.md R90, 70_reset_and_hazards.md R307). -/
def hostSend (bytes : Bytes) (s : State) : State :=
  { s with cmdIn := s.cmdIn ++ bytes }

/-- The host asks for a reset (70_reset_and_hazards.md R300). -/
def hostReset (s : State) : State :=
  { s with resetReq := true }

/-- The sink's next answers become known (30_encoding.md R98). -/
def sinkWillAnswer (answers : Bytes) (s : State) : State :=
  { s with answers := s.answers ++ answers }

/-- The engine holds the file `name`: SINK_HELD = 1 and CUR names it (70_reset_and_hazards.md R311). -/
def State.holds (name : Bytes) (s : State) : Bool :=
  s.sinkHeld && (s.sink.cur == some name)

/-- Another writer touches the held file, which breaks the host's duty (70_reset_and_hazards.md R311, 93 U16). -/
def State.disturbHeld (name : Bytes) (s : State) : State :=
  { s with sink := s.sink.disturb name s.draws, draws := s.draws + 1 }

/-- Another writer replaces a file of the sink. Whatever it writes to the held file, the contents are then any value
(70_reset_and_hazards.md R311, 93 U16, log 27). -/
def outsideWrite (name data : Bytes) (s : State) : State :=
  if s.holds name then s.disturbHeld name
  else { s with sink := { s.sink with fs := putFile s.sink.fs name data } }

/-- Another writer deletes a file of the sink; for the held file, what the sink then gives is any value
(70_reset_and_hazards.md R301, R311, 93 U16, log 27). A rename is a deletion and a write under the other name. -/
def outsideDelete (name : Bytes) (s : State) : State :=
  if s.holds name then s.disturbHeld name
  else { s with sink := { s.sink with fs := dropFile s.sink.fs name } }

end Sys2Proof.Machine
end

