-- ==== Sys2Proof/Safety.lean ====
section
/-! DEFINITION. What claims about runs are stated in: the invariants between commands (10_state.md R37 to R40), the output of
a run (70_reset_and_hazards.md R313), the order of failure checks (60_exceptions.md R265), and what a trace may hold. -/

namespace Sys2Proof.Machine

/-- No file transfer is active: the file registers and both sink flags are clear (10_state.md R37, R39). -/
structure TransferClear (s : State) : Prop where
  held : s.sinkHeld = false
  failed : s.sinkFailed = false
  fname : s.fname = []
  orig : s.origSize = 0#64
  padded : s.padSize = 0#64
  remain : s.remain = 0#64

/-- BUF fits LINE_MAX, where that is a number (10_state.md R37). -/
def BufFits (s : State) : Prop :=
  ∀ m, s.lineMax = some m → s.buf.length ≤ m

/-- PHASE = AWAITING_HEADER between commands (10_state.md R37). -/
structure AwaitingOk (s : State) : Prop where
  noLine : lineEnd ∉ s.buf
  clear : TransferClear s
  fits : BufFits s

/-- PHASE = RECEIVING_BODY between commands (10_state.md R38). -/
structure ReceivingOk (s : State) : Prop where
  remainPos : 8 ≤ s.remain.toNat
  remainMult : s.remain.toNat % 8 = 0
  partialChunk : s.buf.length < 8
  oneFlag : s.sinkHeld = !s.sinkFailed

/-- PHASE = DESYNCHRONIZED (10_state.md R39). -/
structure DesyncOk (s : State) : Prop where
  bufEmpty : s.buf = []
  clear : TransferClear s
  recorded : s.sticky.getLsbD protocolBit = true

/-- The session between commands (10_state.md R37 to R40); no command is under way, so no trace is (30_encoding.md R95). -/
structure SessionInv (s : State) : Prop where
  awaiting : s.phase = .awaitingHeader → AwaitingOk s
  receiving : s.phase = .receivingBody → ReceivingOk s
  desync : s.phase = .desynchronized → DesyncOk s
  unkeyed : s.keyValid = false → s.phase = .awaitingHeader ∧ s.buf = []
  noTrace : s.trace = []

/-- While KEY_VALID = 1, KS is the schedule of KEY (10_state.md R23, 40_key_schedule.md R121). -/
def KeyInv (s : State) : Prop :=
  s.keyValid = true → s.ks = schedule s.key

/-- The held file is the current one; while no other writer has touched it (70_reset_and_hazards.md R311, log 27), it exists
under its name and holds as many bytes as have been written of the body (20_memory.md R76, R80;
43_transfer_session.md R194 to R197). -/
structure HeldFile (s : State) : Prop where
  current : s.sink.cur = some (Config.sinkName s.fname)
  written : s.sink.disturbed = false → ∃ data, lookupFile s.sink.fs (Config.sinkName s.fname) = some data ∧
    data.length + s.remain.toNat = s.padSize.toNat

/-- The sink between commands (20_memory.md R76, 70_reset_and_hazards.md R311). -/
structure SinkInv (s : State) : Prop where
  canonical : filesWf s.sink.fs = true
  held : s.sinkHeld = true → HeldFile s

/-- The invariant of the machine between commands. -/
structure Inv (s : State) : Prop where
  session : SessionInv s
  key : KeyInv s
  sink : SinkInv s

/-- Run commands one after another (20_memory.md R74). -/
def runCommands : List Instr → State → Host.Outcome State Fault Refusal
  | [], s => .next s
  | i :: is, s =>
    match exec i s with
    | .next t => runCommands is t
    | .fault r => .fault r
    | .refused r => .refused r

/-- The concatenated output trace of what the host received (70_reset_and_hazards.md R313). -/
def traceOf (rs : List CommandResult) : List TraceItem :=
  rs.flatMap fun c => c.trace

/-- What the host received from `s` to `t`, where `t` is reached from `s`. -/
def resultsSince (s t : State) : List CommandResult :=
  t.done.drop s.done.length

/-- The sink will answer `ok` to the next `n` operations (30_encoding.md R98). -/
def NextAnswersOk (n : Nat) (s : State) : Prop :=
  ∃ rest, s.answers = List.replicate n 0x00#8 ++ rest

/-- The failure a command meets first, in the order of 60_exceptions.md R265, or none. -/
def firstFailure (i : Instr) (s : State) : Option Failure :=
  if i.flg ≠ 0#8 then some .illegalCmd
  else if reservedOp i.op then some .illegalCmd
  else if i.op = 0x01#8 ∧ i.payload.length ≠ 32 then some .keyLen
  else if (i.op = 0x02#8 ∨ i.op = 0x03#8) ∧ i.payload.length ≠ 8 then some .blockLen
  else if (i.op = 0x05#8 ∨ i.op = 0x06#8) ∧ i.payload.length ≠ 0 then some .illegalCmd
  else if i.op = 0x01#8 ∧ s.keyValid = true then some .keyLocked
  else if (i.op = 0x02#8 ∨ i.op = 0x03#8 ∨ i.op = 0x04#8) ∧ s.keyValid = false then some .noKey
  else if i.op = 0x04#8 ∧ s.phase = .desynchronized then some .desync
  else none

/-- What a failed command leaves: one sticky bit and its response; everything else as it was (60_exceptions.md R267). -/
def State.failedWith (f : Failure) (bit : BitVec 8) (s : State) : State :=
  { s with
    sticky := s.sticky ||| bit
    trace := []
    done := s.done ++ [{ response := { status := .failed f, rdata := [] }, trace := [] }] }

/-- The host receives an OK response with data `d` and output trace `items`. -/
def okResult (d : Bytes) (items : List TraceItem) : CommandResult :=
  { response := { status := .ok, rdata := d }, trace := items }

/-- STATUS bit `8+j` is raised by a command with this result: its failure's bit, ERR_PROTOCOL for a protocol error in its trace,
ERR_IO for an I/O error (10_state.md R36). -/
def RaisesBit (res : CommandResult) (j : Nat) : Prop :=
  (∃ f : Failure, res.response.status = .failed f ∧ j + 1 = f.code.toNat) ∨
  (j = 6 ∧ ∃ reason, TraceItem.event (.protocolError reason) ∈ res.trace) ∨
  (j = 7 ∧ ∃ op, TraceItem.event (.ioError op) ∈ res.trace)

/-- The length of RDATA for a command that succeeds (30_encoding.md R93). -/
def rdataLength : Instr → Nat
  | .setKey _ => 0
  | .encrypt _ => 8
  | .decrypt _ => 8
  | .ingest _ => 0
  | .disconnect _ => 0
  | .getStatus _ => 4
  | .illegal _ _ => 0
  | .illegalFlg _ _ _ => 0

/-- Only INGEST and DISCONNECT touch the session and the sink (30_encoding.md R95, 10_state.md R27 to R30). -/
def isSessionCommand : Instr → Bool
  | .setKey _ => false
  | .encrypt _ => false
  | .decrypt _ => false
  | .ingest _ => true
  | .disconnect _ => true
  | .getStatus _ => false
  | .illegal _ _ => false
  | .illegalFlg _ _ _ => false

/-- Every EV_FILE of a trace comes straight after an STRUNC and an SCLOSE (43_transfer_session.md R207, R208). -/
def DeliveredOnlyAfterClose (trace : List TraceItem) : Prop :=
  ∀ before name after, trace = before ++ .event (.file name) :: after →
    ∃ earlier size, before = earlier ++ [.sink (.strunc size), .sink .sclose]

/-- An EV_PROTOCOL_ERROR is the last item of a trace, so there is at most one (60_exceptions.md R266). -/
def ProtocolErrorOnlyLast (trace : List TraceItem) : Prop :=
  ∀ before reason after, trace = before ++ .event (.protocolError reason) :: after → after = []

/-- The same state but for KEY, which no rule reads (10_state.md R22), and the datapath registers, which no command shows
(R26). -/
def State.withHidden (key : Key) (dp : Datapath) (s : State) : State :=
  { s with key := key, dp := dp }

end Sys2Proof.Machine
end

