-- ==== Sys2Proof/Certificates/Slice0/Obligations.lean ====
section
/-! DEFINITION. The statements about the model, from the numbered rules of spec/. -/

open Sys2Proof Sys2Proof.Machine

/-! ## Encoding -/

/-- Header words written out from 30_encoding.md R90, R100 and R101, among them worked encodings of 95_test_vectors.md and
the example of 43_transfer_session.md R190, decode to the commands they stand for. -/
def Obligations.DecodeReadsSpecWords : Prop :=
  decode [0x06#8, 0x00#8, 0x00#8, 0x00#8] = .ok (.getStatus [], []) ∧
  decode [0x05#8, 0x00#8, 0x00#8, 0x00#8] = .ok (.disconnect [], []) ∧
  decode [0x04#8, 0x00#8, 0x00#8, 0x08#8, 0x54#8, 0x45#8, 0x58#8, 0x54#8, 0x3A#8, 0x68#8, 0x69#8, 0x0A#8] =
    .ok (.ingest [0x54#8, 0x45#8, 0x58#8, 0x54#8, 0x3A#8, 0x68#8, 0x69#8, 0x0A#8], []) ∧
  decode [0x02#8, 0x00#8, 0x00#8, 0x08#8, 0xFE#8, 0xDC#8, 0xBA#8, 0x98#8, 0x76#8, 0x54#8, 0x32#8, 0x10#8] =
    .ok (.encrypt [0xFE#8, 0xDC#8, 0xBA#8, 0x98#8, 0x76#8, 0x54#8, 0x32#8, 0x10#8], []) ∧
  decode [0x03#8, 0x00#8, 0x00#8, 0x00#8] = .ok (.decrypt [], []) ∧
  decode [0x01#8, 0x00#8, 0x00#8, 0x01#8, 0xAA#8] = .ok (.setKey [0xAA#8], []) ∧
  decode [0x07#8, 0x00#8, 0x00#8, 0x00#8] = .ok (.illegal 0x07#8 [], []) ∧
  decode [0xFF#8, 0x00#8, 0x00#8, 0x03#8, 0x01#8, 0x02#8, 0x03#8] = .ok (.illegal 0xFF#8 [0x01#8, 0x02#8, 0x03#8], []) ∧
  decode [0x06#8, 0x01#8, 0x00#8, 0x00#8] = .ok (.illegalFlg 0x06#8 0x01#8 [], [])

/-- For every well-formed command, with every payload LEN admits, decoding its bytes gives it back, and leaves the bytes of
what follows (30_encoding.md R90, R91, R100, R101). -/
def Obligations.DecodeUndoesEncode : Prop :=
  ∀ (i : Instr) (rest : Bytes), i.wf = true → decode (encode i ++ rest) = .ok (i, rest)

/-- Whatever decodes is well formed, and its encoding is the bytes it was read from: no two byte strings are one command
(30_encoding.md R90, R91). -/
def Obligations.DecodedCommandEncodesBack : Prop :=
  ∀ (bytes rest : Bytes) (i : Instr), decode bytes = .ok (i, rest) → i.wf = true ∧ bytes = encode i ++ rest

/-- 30_encoding.md R91: a command is 4 header bytes and exactly LEN payload bytes; while fewer have arrived, nothing is decoded.
The last clause is the model's reading (log 12, DEDUCED): that the engine takes no step (R91; `stuck` in 93 U16; idle on an empty
stream, 60_exceptions.md R275) has the form of a step that answers the same state. -/
def Obligations.PartialCommandWaits : Prop :=
  (∀ bytes : Bytes, bytes.length < 4 → ∃ e, decode bytes = .error e) ∧
  (∀ (op flg hi lo : Byte) (b : Bytes), b.length < 256 * hi.toNat + lo.toNat →
    ∃ e, decode (op :: flg :: hi :: lo :: b) = .error e) ∧
  (∀ (op flg hi lo : Byte) (b : Bytes), 256 * hi.toNat + lo.toNat ≤ b.length →
    ∃ i, decode (op :: flg :: hi :: lo :: b) = .ok (i, b.drop (256 * hi.toNat + lo.toNat)) ∧
      i.payload = b.take (256 * hi.toNat + lo.toNat)) ∧
  (∀ s : State, s.resetReq = false → (∃ e, decode s.cmdIn = .error e) → step s = .next s)

/-- FLG is tested first; with FLG = 0x00, OP alone selects the command, and 0x00 and 0x07 to 0xFF are reserved
(30_encoding.md R92, R100, R101). -/
def Obligations.HeaderSelectsCommand : Prop :=
  ∀ (op flg hi lo : Byte) (p rest : Bytes), p.length = 256 * hi.toNat + lo.toNat →
    (flg ≠ 0x00#8 → decode (op :: flg :: hi :: lo :: (p ++ rest)) = .ok (.illegalFlg op flg p, rest)) ∧
    (flg = 0x00#8 →
      (op = 0x01#8 → decode (op :: flg :: hi :: lo :: (p ++ rest)) = .ok (.setKey p, rest)) ∧
      (op = 0x02#8 → decode (op :: flg :: hi :: lo :: (p ++ rest)) = .ok (.encrypt p, rest)) ∧
      (op = 0x03#8 → decode (op :: flg :: hi :: lo :: (p ++ rest)) = .ok (.decrypt p, rest)) ∧
      (op = 0x04#8 → decode (op :: flg :: hi :: lo :: (p ++ rest)) = .ok (.ingest p, rest)) ∧
      (op = 0x05#8 → decode (op :: flg :: hi :: lo :: (p ++ rest)) = .ok (.disconnect p, rest)) ∧
      (op = 0x06#8 → decode (op :: flg :: hi :: lo :: (p ++ rest)) = .ok (.getStatus p, rest)) ∧
      (op.toNat = 0 ∨ 7 ≤ op.toNat → decode (op :: flg :: hi :: lo :: (p ++ rest)) = .ok (.illegal op p, rest)))

/-! ## The step and reset -/

/-- A step runs the command that the command stream begins with, with its bytes taken off the stream, when the host asks for
no reset (00_scope.md R11, 20_memory.md R74, 30_encoding.md R91). -/
def Obligations.StepRunsDecodedCommand : Prop :=
  ∀ (s : State) (i : Instr) (rest : Bytes), s.resetReq = false → decode s.cmdIn = .ok (i, rest) →
    step s = exec i { s with cmdIn := rest }

/-- The model's step never stops. This is the model's reading: that no command faults or is refused is log 26 (DEDUCED, from
00_scope.md R17 and 60_exceptions.md R267), and that a step without a whole command answers the same state, where 93 U16 says
`stuck`, is log 12 (DEDUCED, from 30_encoding.md R91); a reset step is 70_reset_and_hazards.md R300's. -/
def Obligations.EveryStepAnswersNext : Prop :=
  ∀ s : State, ∃ t, step s = .next t

/-- 70_reset_and_hazards.md R300 and R301: a reset puts every element the spec gives a value to its reset value, leaves the SBOX
ROM and the sink's FS and CUR as they were, even with a sink held, issues no sink operation and sends nothing. -/
def Obligations.ResetStepClearsEngineOnly : Prop :=
  ∀ s : State, s.resetReq = true → ∃ t, step s = .next t ∧
    t.keyValid = false ∧ t.phase = .awaitingHeader ∧ t.buf = [] ∧ t.fname = [] ∧
    t.origSize = 0#64 ∧ t.padSize = 0#64 ∧ t.remain = 0#64 ∧ t.sinkHeld = false ∧ t.sinkFailed = false ∧
    t.sticky = 0#8 ∧ status t = 0x00000000#32 ∧
    t.sbox = s.sbox ∧ t.sink = s.sink ∧ t.answers = s.answers ∧ t.done = s.done ∧ t.trace = []

/-- 10_state.md R45: the values the spec gives after reset. KEY, KS and the datapath registers have none. -/
def Obligations.ResetStateHoldsSpecValues : Prop :=
  State.reset.keyValid = false ∧ State.reset.phase = .awaitingHeader ∧ State.reset.buf = [] ∧ State.reset.fname = [] ∧
  State.reset.origSize = 0#64 ∧ State.reset.padSize = 0#64 ∧ State.reset.remain = 0#64 ∧
  State.reset.sinkHeld = false ∧ State.reset.sinkFailed = false ∧ State.reset.sticky = 0#8 ∧
  State.reset.sbox = Config.sbox ∧ status State.reset = 0x00000000#32

/-! ## The key -/

/-- 40_key_schedule.md R120: SET_KEY fails with KEY_LEN (STATUS bit 9) unless LEN is 32, then with KEY_LOCKED (bit 12) when a
key is loaded; otherwise it loads KEY, KS and KEY_VALID and nothing else. -/
def Obligations.SetKeyLoadsKeyOnce : Prop :=
  ∀ (p : Bytes) (s : State),
    encode (.setKey p) = [0x01#8, 0x00#8] ++ be16bytes (BitVec.ofNat 16 p.length) ++ p ∧
    (p.length ≠ 32 → exec (.setKey p) s = .next (s.failedWith .keyLen 0x02#8)) ∧
    (p.length = 32 → s.keyValid = true → exec (.setKey p) s = .next (s.failedWith .keyLocked 0x10#8)) ∧
    (p.length = 32 → s.keyValid = false → ∃ key : Key, key.toList = p ∧
      exec (.setKey p) s = .next
        { s with key := key, ks := schedule key, keyValid := true, trace := [], done := s.done ++ [okResult [] []] })

/-- 40_key_schedule.md R121: entry `i` of the schedule is the big-endian word of four key bytes, the words in order three
times and then reversed. -/
def Obligations.ScheduleRepeatsThenReverses : Prop :=
  ∀ (key : Key) (i : Fin 32),
    (schedule key).get i =
      let j := if i.val < 24 then i.val % 8 else 31 - i.val
      key.toList.getD (4 * j) 0#8 ++ key.toList.getD (4 * j + 1) 0#8 ++ key.toList.getD (4 * j + 2) 0#8
        ++ key.toList.getD (4 * j + 3) 0#8

/-- 40_key_schedule.md R122 and R123: the schedule's laws, and the key order of decryption: the words once, then reversed three
times, which is encryption's order reversed. -/
def Obligations.ScheduleLaws : Prop :=
  ∀ key : Key,
    (∀ j < 8, (schedule key)[8 + j]? = (schedule key)[j]? ∧ (schedule key)[16 + j]? = (schedule key)[j]? ∧
      (schedule key)[24 + j]? = (schedule key)[7 - j]?) ∧
    (∀ j < 8, ∀ m < 3, roundKey (schedule key) .encrypt (BitVec.ofNat 5 (8 * m + j)) = keyWord key j) ∧
    (∀ j < 8, roundKey (schedule key) .encrypt (BitVec.ofNat 5 (24 + j)) = keyWord key (7 - j)) ∧
    (∀ j < 8, roundKey (schedule key) .decrypt (BitVec.ofNat 5 j) = keyWord key j) ∧
    (∀ j < 8, ∀ m < 3, roundKey (schedule key) .decrypt (BitVec.ofNat 5 (8 + 8 * m + j)) = keyWord key (7 - j)) ∧
    (∀ i < 32, roundKey (schedule key) .decrypt (BitVec.ofNat 5 i) =
      roundKey (schedule key) .encrypt (BitVec.ofNat 5 (31 - i)))

/-- 40_key_schedule.md R124: key words that read the same backwards make the schedule a palindrome, and ENCRYPT and DECRYPT the
same function, whatever the S-box. -/
def Obligations.PalindromicKeyEqualsDirections : Prop :=
  ∀ key : Key, (∀ j < 8, keyWord key j = keyWord key (7 - j)) →
    (∀ i < 32, (schedule key)[i]? = (schedule key)[31 - i]?) ∧
    ∀ (sbox : SBox) (blk : Bytes), crypt sbox (schedule key) .encrypt blk = crypt sbox (schedule key) .decrypt blk

/-- A key is fixed once loaded (70_reset_and_hazards.md R308), only SET_KEY loads one (10_state.md R23, R24), and no command
writes the SBOX ROM (R25), LINE_MAX, the command stream or the reset request. -/
def Obligations.KeyIsFixedOnceLoaded : Prop :=
  ∀ (i : Instr) (s t : State), exec i s = .next t →
    t.sbox = s.sbox ∧ t.lineMax = s.lineMax ∧ t.cmdIn = s.cmdIn ∧ t.resetReq = s.resetReq ∧
    (s.keyValid = true → t.key = s.key ∧ t.ks = s.ks ∧ t.keyValid = true) ∧
    ((∀ p, i ≠ .setKey p) → t.key = s.key ∧ t.ks = s.ks ∧ t.keyValid = s.keyValid)

/-! ## The cipher -/

/-- 41_block_cipher.md R130 and R131: lane `i` of Substitute is lane `i` of the input through row `7 - i`, and depends on
nothing else. -/
def Obligations.SubstituteActsLaneByLane : Prop :=
  ∀ (sbox : SBox) (t : Word) (i : Fin 8),
    (substitute sbox t).extractLsb' (4 * i.val) 4 = (sbox.get (7 - i)).get (t.extractLsb' (4 * i.val) 4).toFin

/-- 41_block_cipher.md R132: bit `j` of the rotation is bit `(j - 11) mod 32`. -/
def Obligations.RotationMovesEveryBit : Prop :=
  ∀ (w : Word) (j : Nat), j < 32 → (rotl32 w 11).getLsbD j = w.getLsbD ((j + 32 - 11) % 32)

/-- 41_block_cipher.md R133: G adds modulo 2^32, losing the carry, substitutes, and rotates left by 11. -/
def Obligations.RoundFunctionAddsSubstitutesRotates : Prop :=
  ∀ (sbox : SBox) (a k t : Word), t.toNat = (a.toNat + k.toNat) % 2 ^ 32 →
    roundG sbox a k = rotl32 (substitute sbox t) 11

/-- 41_block_cipher.md R134, R135 and R136: Crypt is 32 Feistel rounds from the block's big-endian halves, with KS[RND] or
KS[31 - RND], and writes the final right half first. -/
def Obligations.CryptIsThirtyTwoFeistelRounds : Prop :=
  ∀ (sbox : SBox) (ks : Subkeys) (dir : Dir) (b0 b1 b2 b3 b4 b5 b6 b7 : Byte) (l r : Nat → Word),
    l 0 = b0 ++ b1 ++ b2 ++ b3 → r 0 = b4 ++ b5 ++ b6 ++ b7 →
    (∀ i : Fin 32, l (i.val + 1) = r i.val ∧
      r (i.val + 1) = l i.val ^^^ roundG sbox (r i.val) (ks.get (if dir = .encrypt then i else 31 - i))) →
    crypt sbox ks dir [b0, b1, b2, b3, b4, b5, b6, b7] =
      [(r 32).extractLsb' 24 8, (r 32).extractLsb' 16 8, (r 32).extractLsb' 8 8, (r 32).extractLsb' 0 8,
       (l 32).extractLsb' 24 8, (l 32).extractLsb' 16 8, (l 32).extractLsb' 8 8, (l 32).extractLsb' 0 8]

/-- 41_block_cipher.md R139: for every S-box, every schedule and every block, each direction undoes the other. -/
def Obligations.DecryptUndoesEncrypt : Prop :=
  ∀ (sbox : SBox) (ks : Subkeys) (b : Bytes), b.length = 8 →
    crypt sbox ks .decrypt (crypt sbox ks .encrypt b) = b ∧ crypt sbox ks .encrypt (crypt sbox ks .decrypt b) = b

/-- 41_block_cipher.md R141: the integer laws of the cipher. -/
def Obligations.CipherIntegerLaws : Prop :=
  (∀ a k : Word, (2 ^ 32 ≤ a.toNat + k.toNat → (a + k).toNat = a.toNat + k.toNat - 2 ^ 32) ∧
    (a.toNat + k.toNat < 2 ^ 32 → (a + k).toNat = a.toNat + k.toNat)) ∧
  (∀ x y : Word, (x ^^^ y) ^^^ y = x) ∧
  Function.Bijective (fun x : Word => rotl32 x 11) ∧
  (∀ sbox : SBox, Function.Bijective (substitute sbox) ↔
    ∀ row : Fin 8, Function.Bijective fun x : Nibble => (sbox.get row).get x.toFin)

/-- 41_block_cipher.md R137: ENCRYPT fails with BLOCK_LEN (STATUS bit 10) unless LEN is 8, then with NO_KEY (bit 11) without a
key; otherwise it returns Crypt(PAYLOAD, 0) and changes no state but the datapath registers, which hold any value between
commands (10_state.md R26). -/
def Obligations.EncryptReturnsCiphertext : Prop :=
  ∀ (p : Bytes) (s : State),
    encode (.encrypt p) = [0x02#8, 0x00#8] ++ be16bytes (BitVec.ofNat 16 p.length) ++ p ∧
    (p.length ≠ 8 → exec (.encrypt p) s = .next (s.failedWith .blockLen 0x04#8)) ∧
    (p.length = 8 → s.keyValid = false → exec (.encrypt p) s = .next (s.failedWith .noKey 0x08#8)) ∧
    (p.length = 8 → s.keyValid = true → ∃ (dp : Datapath) (draws : Nat),
      exec (.encrypt p) s = .next
        { s with
          dp := dp, draws := draws, trace := []
          done := s.done ++ [okResult (crypt s.sbox s.ks .encrypt p) []] })

/-- 41_block_cipher.md R138: DECRYPT, with the same checks as ENCRYPT, returns Crypt(PAYLOAD, 1). -/
def Obligations.DecryptReturnsPlaintext : Prop :=
  ∀ (p : Bytes) (s : State),
    encode (.decrypt p) = [0x03#8, 0x00#8] ++ be16bytes (BitVec.ofNat 16 p.length) ++ p ∧
    (p.length ≠ 8 → exec (.decrypt p) s = .next (s.failedWith .blockLen 0x04#8)) ∧
    (p.length = 8 → s.keyValid = false → exec (.decrypt p) s = .next (s.failedWith .noKey 0x08#8)) ∧
    (p.length = 8 → s.keyValid = true → ∃ (dp : Datapath) (draws : Nat),
      exec (.decrypt p) s = .next
        { s with
          dp := dp, draws := draws, trace := []
          done := s.done ++ [okResult (crypt s.sbox s.ks .decrypt p) []] })

/-- ENCRYPT, DECRYPT and GET_STATUS answer the same when they are repeated, and DECRYPT of what ENCRYPT answered gives the block
back (20_memory.md R72, 41_block_cipher.md R139, R140). -/
def Obligations.CipherCommandsRepeatAndInvert : Prop :=
  (∀ (i : Instr) (p : Bytes), i = .encrypt p ∨ i = .decrypt p ∨ i = .getStatus [] →
    ∀ s t u : State, exec i s = .next t → exec i t = .next u →
      ∃ res, t.done = s.done ++ [res] ∧ u.done = t.done ++ [res]) ∧
  (∀ (p c : Bytes) (s t : State), s.keyValid = true → p.length = 8 → exec (.encrypt p) s = .next t →
    t.done = s.done ++ [okResult c []] → ∃ u, exec (.decrypt c) t = .next u ∧ u.done = t.done ++ [okResult p []])

/-! ## STATUS and the sticky bits -/

/-- 10_state.md R31, R33 and R34: where each field of STATUS stands; the reserved bits read 0. -/
def Obligations.StatusFieldPlaces : Prop :=
  ∀ s : State,
    (status s).getLsbD 0 = s.keyValid ∧
    (status s).extractLsb' 1 2 =
      (match s.phase with
        | .awaitingHeader => 0#2
        | .receivingBody => 1#2
        | .desynchronized => 2#2) ∧
    (status s).getLsbD 3 = s.sinkHeld ∧ (status s).getLsbD 4 = s.sinkFailed ∧
    (status s).extractLsb' 5 3 = 0#3 ∧ (status s).extractLsb' 8 8 = s.sticky ∧ (status s).extractLsb' 16 16 = 0#16

/-- 44_control.md R230: GET_STATUS fails with ILLEGAL_CMD (STATUS bit 8) unless LEN is 0; otherwise it returns STATUS,
big-endian, and changes nothing. -/
def Obligations.GetStatusReturnsStatus : Prop :=
  ∀ (p : Bytes) (s : State),
    encode (.getStatus p) = [0x06#8, 0x00#8] ++ be16bytes (BitVec.ofNat 16 p.length) ++ p ∧
    (p.length ≠ 0 → exec (.getStatus p) s = .next (s.failedWith .illegalCmd 0x01#8)) ∧
    (p.length = 0 → exec (.getStatus p) s = .next
      { s with
        trace := []
        done := s.done ++ [okResult
          [(status s).extractLsb' 24 8, (status s).extractLsb' 16 8, (status s).extractLsb' 8 8,
           (status s).extractLsb' 0 8] []] })

/-- 10_state.md R36: after a command, a sticky bit is set exactly when it was set before or the command raised it: by failing, by
a protocol error, or by an I/O error. No command clears one; a reset clears all. -/
def Obligations.StickyBitsRecordEveryError : Prop :=
  (∀ (i : Instr) (s t : State) (res : CommandResult), exec i s = .next t → t.done = s.done ++ [res] →
    ∀ j < 8, t.sticky.getLsbD j = true ↔ s.sticky.getLsbD j = true ∨ RaisesBit res j) ∧
  ∀ s t : State, s.resetReq = true → step s = .next t → t.sticky = 0#8

/-! ## Failures -/

/-- 44_control.md R231 and R232: a reserved opcode, and any command whose FLG is not 0x00, fails with ILLEGAL_CMD (STATUS bit 8)
and has no other effect. -/
def Obligations.ReservedEncodingsFail : Prop :=
  ∀ (op flg : Byte) (p : Bytes) (s : State),
    encode (.illegal op p) = [op, 0x00#8] ++ be16bytes (BitVec.ofNat 16 p.length) ++ p ∧
    encode (.illegalFlg op flg p) = [op, flg] ++ be16bytes (BitVec.ofNat 16 p.length) ++ p ∧
    exec (.illegal op p) s = .next (s.failedWith .illegalCmd 0x01#8) ∧
    exec (.illegalFlg op flg p) s = .next (s.failedWith .illegalCmd 0x01#8)

/-- 60_exceptions.md R265: a command reports the first failure in the order FLG, reserved OP, LEN, key state, session phase, and
sets that failure's sticky bit only. -/
def Obligations.FirstFailureIsReported : Prop :=
  ∀ (i : Instr) (s t : State) (res : CommandResult), i.wf = true → exec i s = .next t → t.done = s.done ++ [res] →
    res.response.status = (match firstFailure i s with
      | none => .ok
      | some f => .failed f) ∧
    ∀ f, firstFailure i s = some f → t.sticky = s.sticky ||| (1#8 <<< (f.code.toNat - 1))

/-- 60_exceptions.md R267: a command that fails has done none of its work: its sticky bit and its empty response are all that
changed. -/
def Obligations.FailedCommandChangesOnlyItsBit : Prop :=
  ∀ (i : Instr) (s t : State) (res : CommandResult) (f : Failure), exec i s = .next t → t.done = s.done ++ [res] →
    res.response.status = .failed f →
    t = { s with sticky := t.sticky, trace := [], done := t.done } ∧
    t.sticky = s.sticky ||| (1#8 <<< (f.code.toNat - 1)) ∧ res.response.rdata = [] ∧ res.trace = []

/-- Every command ends with exactly one response, whose RDATA has the length 30_encoding.md R93 gives, and only INGEST and
DISCONNECT have a trace (R95); no trace is left over. -/
def Obligations.EveryCommandGetsOneResponse : Prop :=
  ∀ (i : Instr) (s : State), ∃ t res, exec i s = .next t ∧ t.done = s.done ++ [res] ∧ t.trace = [] ∧
    res.response.rdata.length = (if res.response.status = .ok then rdataLength i else 0) ∧
    (isSessionCommand i = false → res.trace = [])

/-- The frame of every command but INGEST and DISCONNECT: the session, the sink and its answers are unchanged (10_state.md R27 to
R30, 20_memory.md R72). -/
def Obligations.OtherCommandsLeaveSessionAlone : Prop :=
  ∀ (i : Instr) (s t : State), isSessionCommand i = false → exec i s = .next t →
    t.phase = s.phase ∧ t.buf = s.buf ∧ t.fname = s.fname ∧ t.origSize = s.origSize ∧ t.padSize = s.padSize ∧
    t.remain = s.remain ∧ t.sinkHeld = s.sinkHeld ∧ t.sinkFailed = s.sinkFailed ∧ t.sink = s.sink ∧
    t.answers = s.answers

/-! ## Header lines -/

/-- 42_frame_codec.md R160 and R162: the line is what stands before the first 0x0A; without one there is no line. -/
def Obligations.LineEndsAtFirstNewline : Prop :=
  ∀ b : Bytes,
    (∀ line rest, takeLine b = some (line, rest) ↔ b = line ++ 0x0A#8 :: rest ∧ (0x0A#8 : Byte) ∉ line) ∧
    (takeLine b = none ↔ (0x0A#8 : Byte) ∉ b)

/-- 42_frame_codec.md R164 and R165: the first five bytes pick the form, exactly; a text body is the rest of the line verbatim. -/
def Obligations.HeaderFormByPrefix : Prop :=
  (∀ m : Bytes, parseHeader ([0x54#8, 0x45#8, 0x58#8, 0x54#8, 0x3A#8] ++ m) = .text m) ∧
  (∀ m : Bytes, parseHeader ([0x46#8, 0x49#8, 0x4C#8, 0x45#8, 0x3A#8] ++ m) =
    parseFile ([0x46#8, 0x49#8, 0x4C#8, 0x45#8, 0x3A#8] ++ m)) ∧
  (∀ line : Bytes, line.take 5 ≠ [0x54#8, 0x45#8, 0x58#8, 0x54#8, 0x3A#8] →
    line.take 5 ≠ [0x46#8, 0x49#8, 0x4C#8, 0x45#8, 0x3A#8] → parseHeader line = .error .unrecognizedPrefix)

/-- 42_frame_codec.md R166, R170 and R171: a FILE line has exactly four fields, and the first check that fails, left to right,
gives the reason. The three fields after the tag are byte strings without a colon. -/
def Obligations.FileHeaderChecksInOrder : Prop :=
  (∀ line : Bytes, line.take 5 = fileTag → line.count 0x3A#8 ≠ 3 → parseHeader line = .error .fieldCount) ∧
  (∀ name o p : Bytes, (0x3A#8 : Byte) ∉ name → (0x3A#8 : Byte) ∉ o → (0x3A#8 : Byte) ∉ p →
    ∀ line : Bytes, line = fileTag ++ name ++ [0x3A#8] ++ o ++ [0x3A#8] ++ p →
    (parseDec o = .notNumeric → parseHeader line = .error .origNotNumeric) ∧
    (parseDec o = .outOfRange → parseHeader line = .error .sizeRange) ∧
    (∀ ov, parseDec o = .value ov →
      (parseDec p = .notNumeric → parseHeader line = .error .padNotNumeric) ∧
      (parseDec p = .outOfRange → parseHeader line = .error .sizeRange) ∧
      (∀ pv, parseDec p = .value pv →
        (pv.toNat % 8 ≠ 0 → parseHeader line = .error .padNotMult8) ∧
        (pv.toNat % 8 = 0 → parseHeader line = .file name ov pv))))

/-- 42_frame_codec.md R168 and R169: a size is one or more ASCII digits, leading zeros allowed; its value is the number they
spell, and 2^64 or more is out of range. -/
def Obligations.DecimalSizeParses : Prop :=
  parseDec [] = .notNumeric ∧
  (∀ s : Bytes, (∃ b ∈ s, b.toNat < 0x30 ∨ 0x39 < b.toNat) → parseDec s = .notNumeric) ∧
  (∀ ds : List Nat, ds ≠ [] → (∀ d ∈ ds, d < 10) →
    (Nat.ofDigits 10 ds.reverse < 2 ^ 64 →
      ∃ v : U64, parseDec (ds.map fun d => BitVec.ofNat 8 (0x30 + d)) = .value v ∧
        v.toNat = Nat.ofDigits 10 ds.reverse) ∧
    (2 ^ 64 ≤ Nat.ofDigits 10 ds.reverse → parseDec (ds.map fun d => BitVec.ofNat 8 (0x30 + d)) = .outOfRange))

/-- 42_frame_codec.md R175: what a correct sender writes as a header parses to what was written. -/
def Obligations.HeaderRoundTrip : Prop :=
  (∀ (name : Bytes) (o p : U64), (0x3A#8 : Byte) ∉ name → (0x0A#8 : Byte) ∉ name → p.toNat % 8 = 0 →
    ∃ line, serializeFileHeader name o p = some (line ++ [0x0A#8]) ∧ (0x0A#8 : Byte) ∉ line ∧
      parseHeader line = .file name o p) ∧
  (∀ m : Bytes, (0x0A#8 : Byte) ∉ m →
    serializeText m = some ([0x54#8, 0x45#8, 0x58#8, 0x54#8, 0x3A#8] ++ m ++ [0x0A#8]) ∧
    (0x0A#8 : Byte) ∉ [0x54#8, 0x45#8, 0x58#8, 0x54#8, 0x3A#8] ++ m ∧
    parseHeader ([0x54#8, 0x45#8, 0x58#8, 0x54#8, 0x3A#8] ++ m) = .text m)

/-! ## The receive loop -/

/-- 43_transfer_session.md R190: INGEST fails with NO_KEY (STATUS bit 11) without a key and with DESYNC (bit 13) after a protocol
error; otherwise it appends its payload to BUF and runs the receive loop. Between commands, an empty INGEST changes
nothing. -/
def Obligations.IngestAppendsAndRunsLoop : Prop :=
  ∀ (p : Bytes) (s : State),
    encode (.ingest p) = [0x04#8, 0x00#8] ++ be16bytes (BitVec.ofNat 16 p.length) ++ p ∧
    (s.keyValid = false → exec (.ingest p) s = .next (s.failedWith .noKey 0x08#8)) ∧
    (s.keyValid = true → s.phase = .desynchronized → exec (.ingest p) s = .next (s.failedWith .desync 0x20#8)) ∧
    (s.keyValid = true → s.phase ≠ .desynchronized → ∃ t : State,
      t = ({ s with buf := s.buf ++ p, trace := [] } : State).receiveLoop ∧
      exec (.ingest p) s = .next { t with trace := [], done := s.done ++ [okResult [] t.trace] }) ∧
    (Inv s → s.keyValid = true → s.phase ≠ .desynchronized →
      exec (.ingest []) s = .next { s with done := s.done ++ [okResult [] []] })

/-- 43_transfer_session.md R191: the loop repeats the step of the current phase until a step stops, and it always stops, at one
of three points: no complete line, fewer than 8 bytes of a body still owed, or desynchronized. -/
def Obligations.ReceiveLoopRunsToSuspension : Prop :=
  ∀ s : State,
    (s.phase = .awaitingHeader → s.receiveLoop = (match s.headerStep with
      | .stop t => t
      | .again t => t.receiveLoop)) ∧
    (s.phase = .receivingBody → s.receiveLoop = (match s.bodyStep with
      | .stop t => t
      | .again t => t.receiveLoop)) ∧
    (s.phase = .desynchronized → s.receiveLoop = s) ∧
    ((s.receiveLoop.phase = .awaitingHeader ∧ (0x0A#8 : Byte) ∉ s.receiveLoop.buf) ∨
      (s.receiveLoop.phase = .receivingBody ∧ s.receiveLoop.remain ≠ 0#64 ∧ s.receiveLoop.buf.length < 8) ∨
      s.receiveLoop.phase = .desynchronized)

/-- 43_transfer_session.md R192 and R193, with 42_frame_codec.md R163: what the loop does in AWAITING_HEADER, for a buffer
without a line and for one that begins with a line. -/
def Obligations.HeaderStepByLine : Prop :=
  ∀ s : State, s.phase = .awaitingHeader →
    ((0x0A#8 : Byte) ∉ s.buf → (∀ m, s.lineMax = some m → s.buf.length ≤ m) → s.receiveLoop = s) ∧
    ((0x0A#8 : Byte) ∉ s.buf → (∃ m, s.lineMax = some m ∧ m < s.buf.length) →
      s.receiveLoop = s.protocolError .lineTooLong) ∧
    (∀ line rest : Bytes, s.buf = line ++ 0x0A#8 :: rest → (0x0A#8 : Byte) ∉ line →
      ((∃ m, s.lineMax = some m ∧ m < line.length) →
        s.receiveLoop = ({ s with buf := rest } : State).protocolError .lineTooLong) ∧
      ((∀ m, s.lineMax = some m → line.length ≤ m) →
        (∀ body, parseHeader line = .text body →
          s.receiveLoop =
            ({ s with buf := rest, trace := s.trace ++ [.event (.text body)] } : State).receiveLoop) ∧
        (∀ name o p, parseHeader line = .file name o p →
          s.receiveLoop = (({ s with buf := rest } : State).fileFrame name o p).receiveLoop) ∧
        (∀ reason, parseHeader line = .error reason →
          s.receiveLoop = ({ s with buf := rest } : State).protocolError reason)))

/-- 43_transfer_session.md R194: a FILE header fills the file registers and opens the sink; the answer decides between
SINK_HELD and an I/O abort (R200); either way the phase is RECEIVING_BODY. The sink and its answers are what the SOPEN, and
after a failed one the abort, leave (20_memory.md R80). -/
def Obligations.FileFrameOpensSink : Prop :=
  ∀ (s : State) (name : Bytes) (o p : U64),
    let w := (s.openTransfer name o p).sinkOp (.sopen (Config.sinkName name))
    ∃ (t : State) (ok : Bool),
    s.fileFrame name o p = t ∧ (∀ a rest, s.answers = a :: rest → ok = (a == 0x00#8)) ∧
    t.fname = name ∧ t.origSize = o ∧ t.padSize = p ∧ t.remain = p ∧ t.phase = .receivingBody ∧ t.buf = s.buf ∧
    (ok = true → t.sinkHeld = true ∧ t.sinkFailed = false ∧ t.sticky = s.sticky ∧
      t.trace = s.trace ++ [.sink (.sopen (Config.sinkName name))] ∧
      t.sink = w.sink ∧ t.answers = w.answers) ∧
    (ok = false → t.sinkHeld = false ∧ t.sinkFailed = true ∧ t.sticky = s.sticky ||| 0x80#8 ∧
      (s.sinkHeld = false → t.sink = s.sink) ∧
      t.sink = (w.ioAbort .sopen).sink ∧ t.answers = (w.ioAbort .sopen).answers ∧
      t.trace = s.trace ++ [.sink (.sopen (Config.sinkName name)), .event (.ioError .sopen)] ++
        (if s.sinkHeld then [.sink .sclose, .sink .sdelete] else []))

/-- 43_transfer_session.md R195, R196 and R201: the body completes when REMAIN is 0, waits for 8 bytes, and otherwise loses 8
bytes of BUF and 8 of REMAIN per pass; after an I/O error a chunk has no other effect. -/
def Obligations.BodyStepByChunk : Prop :=
  ∀ s : State, s.phase = .receivingBody →
    (s.remain = 0#64 → s.receiveLoop = s.complete.receiveLoop) ∧
    (s.remain ≠ 0#64 → s.buf.length < 8 → s.receiveLoop = s) ∧
    (s.remain ≠ 0#64 → 8 ≤ s.buf.length →
      (s.sinkFailed = true →
        s.receiveLoop = ({ s with buf := s.buf.drop 8, remain := s.remain - 8#64 } : State).receiveLoop) ∧
      (s.sinkFailed = false →
        s.receiveLoop =
          (({ s with buf := s.buf.drop 8, remain := s.remain - 8#64 } : State).decryptAndWrite
            (s.buf.take 8)).receiveLoop))

/-- 43_transfer_session.md R197, with R200 and R202: a chunk is decrypted alone and written; a failed write closes and deletes
the file held. The sink and its answers are what the SWRITE, and after a failed one the abort, leave (20_memory.md R80,
ErrorsInsideTheLoop). -/
def Obligations.ChunkIsDecryptedAndWritten : Prop :=
  ∀ (s : State) (c : Bytes),
    let w := s.releaseDatapath.sinkOp (.swrite (crypt s.sbox s.ks .decrypt c))
    ∃ (t : State) (ok : Bool),
    s.decryptAndWrite c = t ∧ (∀ a rest, s.answers = a :: rest → ok = (a == 0x00#8)) ∧
    t.phase = s.phase ∧ t.buf = s.buf ∧ t.remain = s.remain ∧ t.fname = s.fname ∧ t.origSize = s.origSize ∧
    t.padSize = s.padSize ∧
    (ok = true → t.sinkHeld = s.sinkHeld ∧ t.sinkFailed = s.sinkFailed ∧ t.sticky = s.sticky ∧
      t.trace = s.trace ++ [.sink (.swrite (crypt s.sbox s.ks .decrypt c))] ∧
      t.sink = w.sink ∧ t.answers = w.answers) ∧
    (ok = false → t.sinkHeld = false ∧ t.sinkFailed = true ∧ t.sticky = s.sticky ||| 0x80#8 ∧
      t.sink = (w.ioAbort .swrite).sink ∧ t.answers = (w.ioAbort .swrite).answers ∧
      t.trace = s.trace ++ [.sink (.swrite (crypt s.sbox s.ks .decrypt c)), .event (.ioError .swrite)] ++
        (if s.sinkHeld then [.sink .sclose, .sink .sdelete] else []))

/-- 43_transfer_session.md R198, with R200 to R202: completion truncates to ORIG_SIZE, closes and delivers; a failed STRUNC or
SCLOSE deletes the file held instead; after an I/O error nothing is emitted. Then the session awaits a header. The sink and its
answers are what the STRUNC, the SCLOSE after a good one, and the abort after a failed one leave (20_memory.md R80,
ErrorsInsideTheLoop). -/
def Obligations.CompletionTruncatesClosesDelivers : Prop :=
  ∀ s : State,
    let truncated := s.sinkOp (.strunc s.origSize)
    let closed := truncated.sinkOp .sclose
    ∃ (t : State) (okTrunc okClose : Bool),
    s.complete = t ∧
    (s.sinkFailed = false → ∀ a rest, s.answers = a :: rest → okTrunc = (a == 0x00#8) ∧
      ∀ b more, rest = b :: more → okClose = (b == 0x00#8)) ∧
    t.phase = .awaitingHeader ∧ t.buf = s.buf ∧ TransferClear t ∧
    (s.sinkFailed = true → t.trace = s.trace ∧ t.sticky = s.sticky ∧ t.sink = s.sink ∧ t.answers = s.answers) ∧
    (s.sinkFailed = false → okTrunc = true → okClose = true → t.sticky = s.sticky ∧
      t.sink = closed.sink ∧ t.answers = closed.answers ∧
      t.trace = s.trace ++ [.sink (.strunc s.origSize), .sink .sclose, .event (.file (Config.sinkName s.fname))]) ∧
    (s.sinkFailed = false → okTrunc = true → okClose = false → t.sticky = s.sticky ||| 0x80#8 ∧
      t.sink = (closed.ioAbort .sclose).sink ∧ t.answers = (closed.ioAbort .sclose).answers ∧
      t.trace = s.trace ++ [.sink (.strunc s.origSize), .sink .sclose, .event (.ioError .sclose)] ++
        (if s.sinkHeld then [.sink .sdelete] else [])) ∧
    (s.sinkFailed = false → okTrunc = false → t.sticky = s.sticky ||| 0x80#8 ∧
      t.sink = (truncated.ioAbort .strunc).sink ∧ t.answers = (truncated.ioAbort .strunc).answers ∧
      t.trace = s.trace ++ [.sink (.strunc s.origSize), .event (.ioError .strunc)] ++
        (if s.sinkHeld then [.sink .sclose, .sink .sdelete] else []))

/-- 43_transfer_session.md R199 and R200: what a protocol error and an I/O abort change, and that they change nothing else of
the engine. The sink after an I/O abort with a sink held is the one that the cleanup, answered by the next answers, leaves: the
file CUR names is gone where SDELETE is answered `ok`, the sink is as it was where SDELETE fails, and whatever the answers,
every other file reads as before (20_memory.md R80, 43_transfer_session.md R202). -/
def Obligations.ErrorsInsideTheLoop : Prop :=
  (∀ (s : State) (reason : Reason), s.protocolError reason =
    { s with
      trace := s.trace ++ [.event (.protocolError reason)], sticky := s.sticky ||| 0x40#8,
      phase := .desynchronized, buf := [] }) ∧
  (∀ (s : State) (op : SinkKind),
    let cleaned := if s.sinkHeld then s.abandonFile (op != .sclose) else s
    s.ioAbort op =
      { s with
        trace := s.trace ++ .event (.ioError op) ::
          (if s.sinkHeld = false then [] else if op = .sclose then [.sink .sdelete] else [.sink .sclose, .sink .sdelete])
        sticky := s.sticky ||| 0x80#8, sinkHeld := false, sinkFailed := true,
        sink := cleaned.sink, answers := cleaned.answers, draws := cleaned.draws }) ∧
  (∀ (s : State) (op : SinkKind) (a b : Byte) (rest : Bytes), s.sinkHeld = true →
    s.answers = (if op = .sclose then [b] else [a, b]) ++ rest →
    (s.ioAbort op).answers = rest ∧
    (b = 0x00#8 → ∀ name, s.sink.cur = some name → lookupFile (s.ioAbort op).sink.fs name = none) ∧
    (b ≠ 0x00#8 → (s.ioAbort op).sink = s.sink)) ∧
  (∀ (s : State) (op : SinkKind) (other : Bytes), s.sink.cur ≠ some other →
    lookupFile (s.ioAbort op).sink.fs other = lookupFile s.sink.fs other)

/-- 43_transfer_session.md R205: DISCONNECT fails with ILLEGAL_CMD (STATUS bit 8) unless LEN is 0; otherwise it closes and
deletes a held sink, reports EV_CONN_LOST and clears the session, in every phase and without a key. The key and the sticky
bits are kept, and where no sink is held the sink is not touched. Both cleanup answers are ignored: the file CUR names is gone
where SDELETE is answered `ok` and left where it fails, and every other file reads as before (20_memory.md R80,
43_transfer_session.md R202). -/
def Obligations.DisconnectResetsSession : Prop :=
  ∀ (p : Bytes) (s : State),
    encode (.disconnect p) = [0x05#8, 0x00#8] ++ be16bytes (BitVec.ofNat 16 p.length) ++ p ∧
    (p.length ≠ 0 → exec (.disconnect p) s = .next (s.failedWith .illegalCmd 0x01#8)) ∧
    (p.length = 0 → ∃ (sink : RefSink) (answers : Bytes) (draws : Nat), exec (.disconnect p) s = .next
      { s with
        phase := .awaitingHeader, buf := [], fname := [], origSize := 0#64, padSize := 0#64, remain := 0#64,
        sinkHeld := false, sinkFailed := false, sink := sink, answers := answers, draws := draws, trace := [],
        done := s.done ++ [okResult []
          ((if s.phase = .receivingBody ∧ s.sinkHeld = true then [.sink .sclose, .sink .sdelete] else [])
            ++ [.event .connLost])] } ∧
      (¬(s.phase = .receivingBody ∧ s.sinkHeld = true) → sink = s.sink ∧ answers = s.answers ∧ draws = s.draws) ∧
      (s.phase = .receivingBody → s.sinkHeld = true →
        (sink = (s.abandonFile true).sink ∧ answers = (s.abandonFile true).answers ∧ draws = (s.abandonFile true).draws) ∧
        ∀ a b rest, s.answers = a :: b :: rest →
          answers = rest ∧
          (b = 0x00#8 → ∀ name, s.sink.cur = some name → lookupFile sink.fs name = none) ∧
          (b ≠ 0x00#8 → sink = s.sink)) ∧
      (∀ other, s.sink.cur ≠ some other → lookupFile sink.fs other = lookupFile s.sink.fs other))

/-- Only INGEST enters DESYNCHRONIZED, and only DISCONNECT leaves it (43_transfer_session.md R199, R205,
70_reset_and_hazards.md R304). -/
def Obligations.OnlyDisconnectEndsDesync : Prop :=
  ∀ (i : Instr) (s t : State), exec i s = .next t →
    (s.phase = .desynchronized → t.phase ≠ .desynchronized → i = .disconnect []) ∧
    (s.phase ≠ .desynchronized → t.phase = .desynchronized → ∃ p, i = .ingest p)

/-! ## Traces -/

/-- No partial file is delivered: in every command's trace, an EV_FILE comes straight after the STRUNC and SCLOSE of its file
(43_transfer_session.md R207, R208). -/
def Obligations.FileDeliveredOnlyAfterClose : Prop :=
  ∀ (i : Instr) (s t : State) (res : CommandResult), exec i s = .next t → t.done = s.done ++ [res] →
    DeliveredOnlyAfterClose res.trace

/-- A protocol error ends its command's trace, so there is at most one per INGEST (60_exceptions.md R266). -/
def Obligations.ProtocolErrorEndsTrace : Prop :=
  ∀ (i : Instr) (s t : State) (res : CommandResult), exec i s = .next t → t.done = s.done ++ [res] →
    ProtocolErrorOnlyLast res.trace

/-- Text frames of one payload are delivered in the order they were received, and nothing is left over
(43_transfer_session.md R193, R204, R207). -/
def Obligations.TextFramesDeliveredInOrder : Prop :=
  ∀ (s t : State) (ms : List Bytes), s.keyValid = true → s.phase = .awaitingHeader → s.buf = [] →
    (∀ m ∈ ms, (0x0A#8 : Byte) ∉ m) → (∀ n, s.lineMax = some n → ∀ m ∈ ms, m.length + 5 ≤ n) →
    exec (.ingest (ms.flatMap fun m => textTag ++ m ++ [0x0A#8])) s = .next t →
    t.done = s.done ++ [okResult [] (ms.map fun m => .event (.text m))] ∧ t.phase = .awaitingHeader ∧ t.buf = []

/-- However a byte stream is cut into INGEST payloads, the concatenated traces and the session's end state are the same, with a
key or without; with one, so are the sticky bits, but for ERR_DESYNC (STICKY bit 5), which later INGESTs of a finer cut set
(43_transfer_session.md R206). The clauses on the sink and its answers are the model's, and no words of R206: where STRUNC extends
a file each added byte is any value (93 U6, log 9), and where another writer has left a file any contents so are they (93 U16,
log 27); the two cuts agree on them, and on the answers past the scripted ones (log 8), because both start from one draw counter
and the model numbers their draws alike (log 10, DESIGN CHOICE). -/
def Obligations.FragmentationInvariance : Prop :=
  ∀ (s t u : State) (ps qs : List Bytes), s.phase = .awaitingHeader → s.buf = [] → ps.flatten = qs.flatten →
    runCommands (ps.map .ingest) s = .next t → runCommands (qs.map .ingest) s = .next u →
    traceOf (resultsSince s t) = traceOf (resultsSince s u) ∧
    t.phase = u.phase ∧ t.buf = u.buf ∧ t.fname = u.fname ∧ t.origSize = u.origSize ∧ t.padSize = u.padSize ∧
    t.remain = u.remain ∧ t.sinkHeld = u.sinkHeld ∧ t.sinkFailed = u.sinkFailed ∧
    t.sink = u.sink ∧ t.answers = u.answers ∧ (s.keyValid = true → t.sticky ||| 0x20#8 = u.sticky ||| 0x20#8)

/-- 43_transfer_session.md R209: a correct sender's stream, cut into any INGESTs, with every sink answer `ok` and a header line
that LINE_MAX admits, ends with the file's bytes in the reference sink and EV_FILE last in the trace. -/
def Obligations.FileRoundTrip : Prop :=
  ∀ (s t : State) (name x frame : Bytes) (ps : List Bytes), s.keyValid = true → s.phase = .awaitingHeader → s.buf = [] →
    serializeFile s.sbox s.ks name x = some frame → ps.flatten = frame →
    (∀ m, s.lineMax = some m →
      (fileHeaderLine name (BitVec.ofNat 64 x.length) (BitVec.ofNat 64 (pad x).length)).length ≤ m) →
    NextAnswersOk (3 + (pad x).length / 8) s →
    runCommands (ps.map .ingest) s = .next t →
    lookupFile t.sink.fs (Config.sinkName name) = some x ∧
    (∃ items, traceOf (resultsSince s t) = items ++ [.event (.file (Config.sinkName name))]) ∧
    t.phase = .awaitingHeader ∧ t.buf = []

/-! ## The sink -/

/-- 20_memory.md R80: what each operation does to FS and CUR when the answer is `ok`, and that a failed one changes neither. No
operation touches a file that CUR does not name but the one it opens. What SWRITE and STRUNC make of the contents is stated
while no other writer has touched the file since its SOPEN; once one has, they are any value (70_reset_and_hazards.md R311, 93
U16, log 27), and the rest holds all the same. -/
def Obligations.ReferenceSinkOperations : Prop :=
  (∀ (k : RefSink) (d : Nat) (name : Bytes), (k.apply d (.sopen name)).cur = some name ∧
    lookupFile (k.apply d (.sopen name)).fs name = some [] ∧ (k.apply d (.sopen name)).disturbed = false ∧
    ∀ other, other ≠ name → lookupFile (k.apply d (.sopen name)).fs other = lookupFile k.fs other) ∧
  (∀ (k : RefSink) (d : Nat) (name w : Bytes), k.cur = some name →
    (k.apply d (.swrite w)).cur = k.cur ∧ (k.apply d (.swrite w)).disturbed = k.disturbed ∧
    (k.disturbed = false → ∀ data, lookupFile k.fs name = some data →
      lookupFile (k.apply d (.swrite w)).fs name = some (data ++ w)) ∧
    ∀ other, other ≠ name → lookupFile (k.apply d (.swrite w)).fs other = lookupFile k.fs other) ∧
  (∀ (k : RefSink) (d : Nat) (name : Bytes) (n : U64), k.cur = some name →
    (k.apply d (.strunc n)).cur = k.cur ∧ (k.apply d (.strunc n)).disturbed = k.disturbed ∧
    (k.disturbed = false → ∀ data, lookupFile k.fs name = some data →
      ∃ after, lookupFile (k.apply d (.strunc n)).fs name = some after ∧ after.length = n.toNat ∧
        (n.toNat ≤ data.length → after = data.take n.toNat) ∧ (data.length < n.toNat → after.take data.length = data)) ∧
    ∀ other, other ≠ name → lookupFile (k.apply d (.strunc n)).fs other = lookupFile k.fs other) ∧
  (∀ (k : RefSink) (d : Nat), k.apply d .sclose = k) ∧
  (∀ (k : RefSink) (d : Nat) (name : Bytes), k.cur = some name → lookupFile (k.apply d .sdelete).fs name = none ∧
    ∀ other, other ≠ name → lookupFile (k.apply d .sdelete).fs other = lookupFile k.fs other) ∧
  (∀ (s : State) (op : SinkOp) (a : Byte) (rest : Bytes), s.answers = a :: rest →
    (s.sinkOp op).answers = rest ∧ (s.sinkOp op).trace = s.trace ++ [.sink op] ∧
    (a ≠ 0x00#8 → (s.sinkOp op).sink = s.sink) ∧ (a = 0x00#8 → (s.sinkOp op).sink = s.sink.apply s.draws op))

/-- The frame of every command over the sink's files: a file changes only where CUR names it when the command starts or the
command opens it; under the invariant and with no sink held, only where the command opens it, though CUR still names a file
delivered or deleted before; and a command whose trace holds no sink operation leaves the sink and its answers as they were
(20_memory.md R76, R80; 30_encoding.md R95). -/
def Obligations.OnlyTheHeldFileIsTouched : Prop :=
  ∀ (i : Instr) (s t : State) (res : CommandResult), exec i s = .next t → t.done = s.done ++ [res] →
    (∀ name : Bytes, s.sink.cur ≠ some name → TraceItem.sink (.sopen name) ∉ res.trace →
      lookupFile t.sink.fs name = lookupFile s.sink.fs name) ∧
    (Inv s → s.sinkHeld = false → ∀ name : Bytes, TraceItem.sink (.sopen name) ∉ res.trace →
      lookupFile t.sink.fs name = lookupFile s.sink.fs name) ∧
    ((∀ op, TraceItem.sink op ∉ res.trace) → t.sink = s.sink ∧ t.answers = s.answers)

/-! ## The ports -/

/-- 30_encoding.md R93 and R94: the bytes of a response. -/
def Obligations.ResponseWireForm : Prop :=
  (∀ d : Bytes, d.length < 65536 → ∃ hi lo : Byte, 256 * hi.toNat + lo.toNat = d.length ∧
    Response.bytes { status := .ok, rdata := d } = [0x00#8, 0x00#8, hi, lo] ++ d) ∧
  (∀ (f : Failure), Response.bytes { status := .failed f, rdata := [] } =
    [(match f with
      | .illegalCmd => 0x01#8
      | .keyLen => 0x02#8
      | .blockLen => 0x03#8
      | .noKey => 0x04#8
      | .keyLocked => 0x05#8
      | .desync => 0x06#8), 0x00#8, 0x00#8, 0x00#8])

/-- 30_encoding.md R95, R96, R97 and R99: the bytes of a trace item; STRUNC's size is written most significant byte first
(00_scope.md R14). The LEN of data of 2^32 bytes or more has no stated value
(log 18), so the statement stops below it. -/
def Obligations.TraceItemWireForm : Prop :=
  ∀ (t : TraceItem) (code : Byte) (data : Bytes), data.length < 2 ^ 32 →
    (match t with
      | .event (.text body) => code = 0x10#8 ∧ data = body
      | .event (.file name) => code = 0x11#8 ∧ data = name
      | .event .connLost => code = 0x12#8 ∧ data = []
      | .event (.protocolError r) => code = 0x13#8 ∧ data = [(match r with
          | .unrecognizedPrefix => 0x01#8
          | .fieldCount => 0x02#8
          | .origNotNumeric => 0x03#8
          | .padNotNumeric => 0x04#8
          | .sizeRange => 0x05#8
          | .padNotMult8 => 0x06#8
          | .lineTooLong => 0x07#8)]
      | .event (.ioError op) => code = 0x14#8 ∧ data = [(match op with
          | .sopen => 0x20#8
          | .swrite => 0x21#8
          | .strunc => 0x22#8
          | .sclose => 0x23#8
          | .sdelete => 0x24#8)]
      | .sink (.sopen name) => code = 0x20#8 ∧ data = name
      | .sink (.swrite w) => code = 0x21#8 ∧ data = w
      | .sink (.strunc n) => code = 0x22#8 ∧ data =
          [n.extractLsb' 56 8, n.extractLsb' 48 8, n.extractLsb' 40 8, n.extractLsb' 32 8,
           n.extractLsb' 24 8, n.extractLsb' 16 8, n.extractLsb' 8 8, n.extractLsb' 0 8]
      | .sink .sclose => code = 0x23#8 ∧ data = []
      | .sink .sdelete => code = 0x24#8 ∧ data = []) →
    ∃ len : Word, len.toNat = data.length ∧
      t.bytes = code :: [len.extractLsb' 24 8, len.extractLsb' 16 8, len.extractLsb' 8 8, len.extractLsb' 0 8] ++ data

/-! ## The send path -/

/-- 45_send_path.md R240, R241 and R242: what padding appends, and how long the padded file is. -/
def Obligations.PaddingLaws : Prop :=
  pad [] = [] ∧
  ∀ x : Bytes, x ≠ [] → ∃ v, 1 ≤ v ∧ v ≤ 8 ∧ pad x = x ++ List.replicate v (BitVec.ofNat 8 v) ∧
    (pad x).length % 8 = 0 ∧ x.length < (pad x).length ∧
    (x.length % 8 = 0 → v = 8 ∧ (pad x).length = x.length + 8) ∧
    (x.length % 8 ≠ 0 → v = 8 - x.length % 8 ∧ (pad x).length = 8 * (x.length / 8 + 1))

/-- The written form of commands (30_encoding.md R106, R107): three chosen programs assemble to the bytes their rules give:
GET_STATUS and DISCONNECT to the encodings of 44_control.md R230's and 43_transfer_session.md R205's examples, INGEST_TEXT by
R107's expansion to the encoding of R190's example, and a raw command, 44_control.md R232's example, to the header of
30_encoding.md R90. -/
def Obligations.AssemblerWritesCommands : Prop :=
  ∀ sbox : SBox,
    assemble sbox [['G', 'E', 'T', '_', 'S', 'T', 'A', 'T', 'U', 'S'],
      ['D', 'I', 'S', 'C', 'O', 'N', 'N', 'E', 'C', 'T']] =
      some [0x06#8, 0x00#8, 0x00#8, 0x00#8, 0x05#8, 0x00#8, 0x00#8, 0x00#8] ∧
    assemble sbox [['I', 'N', 'G', 'E', 'S', 'T', '_', 'T', 'E', 'X', 'T', ' ', Char.ofNat 34, 'h', 'i', Char.ofNat 34]] =
      some [0x04#8, 0x00#8, 0x00#8, 0x08#8, 0x54#8, 0x45#8, 0x58#8, 0x54#8, 0x3A#8, 0x68#8, 0x69#8, 0x0A#8] ∧
    assemble sbox [['.', 'c', 'm', 'd', ' ', '0', 'x', '0', '6', ',', ' ', '0', 'x', '0', '1', ',', ' ', '0', 'x']] =
      some [0x06#8, 0x01#8, 0x00#8, 0x00#8]

/-! ## Invariants and what cannot be observed -/

/-- The invariant between commands holds after reset (10_state.md R37, R40, R45). -/
def Obligations.ResetMeetsInvariant : Prop :=
  Inv State.reset

/-- 10_state.md R37 to R40: from every state that meets the invariant, not only from reset, every step, a reset or a wait
included, gives a state that meets it. The invariant also says that KS is KEY's schedule, and that the held file is
the current one and, while no other writer has touched it (log 27), exists and holds as many bytes as have been written of the
body. -/
def Obligations.EveryStepKeepsInvariant : Prop :=
  ∀ s t : State, Inv s → step s = .next t → Inv t

/-- KEY and the datapath registers cannot be observed: two states that differ only in them step to states that differ only in
them, so the host sees the same responses, traces and files (00_scope.md R2, 10_state.md R22, R26). Where a free value decides
(a byte that STRUNC adds, a sink answer past the scripted ones, contents another writer left), the two agree because the model
numbers their draws alike (logs 8, 9, 10 and 27, DESIGN CHOICE). -/
def Obligations.KeyAndDatapathAreHidden : Prop :=
  ∀ (s t : State) (key : Key) (dp : Datapath), step s = .next t →
    ∃ (key' : Key) (dp' : Datapath), step (s.withHidden key dp) = .next (t.withHidden key' dp') ∧
      (t.withHidden key' dp').observe = t.observe
end

