-- ==== Sys2Proof/Laws/Assembler.lean ====
section
/-! SUPPORT. What the assembler's pieces and its key can be (30_encoding.md R107). -/

namespace Sys2Proof.Machine

/-- With pieces enough, no byte is lost or moved. -/
theorem pieces_flatten : ∀ (n : Nat) (b : Bytes), b.length < n → (pieces n b).flatten = b
  | 0, _, h => absurd h (Nat.not_lt_zero _)
  | n + 1, b, h => by
    unfold pieces
    split
    · simp
    · rw [List.flatten_cons, pieces_flatten n _ (by rw [List.length_drop]; omega), List.take_append_drop]

/-- Every piece fits LEN. -/
theorem pieces_fit (n : Nat) (b : Bytes) : ∀ p ∈ pieces n b, p.length ≤ 65535 := by
  induction n generalizing b with
  | zero => simp [pieces]
  | succ n ih =>
    unfold pieces
    split
    · simpa
    · simp only [List.mem_cons, forall_eq_or_imp, List.length_take]
      exact ⟨by omega, ih _⟩

/-- INGEST_FILE's commands carry the stream whole, each in a payload that LEN admits. -/
theorem ingestAll_payloads (b : Bytes) :
    ((ingestAll b).map Instr.payload).flatten = b ∧ ∀ i ∈ ingestAll b, i.wf = true := by
  have fit := pieces_fit (b.length + 1) b
  refine ⟨by simpa [ingestAll, Function.comp_def, Instr.payload] using pieces_flatten _ b (Nat.lt_succ_self _), ?_⟩
  simp only [ingestAll, List.mem_map]
  rintro i ⟨p, hp, rfl⟩
  simpa [Instr.wf, payloadFits] using Nat.lt_succ_of_le (fit p hp)

/-- The program's key is that of its last SET_KEY, whatever lines stand before it, or after it without being one. -/
theorem programKey_last (before after : List AsmLine) (k : Bytes) (h : ∀ a ∈ after, ∀ old, lastKey old a = old) :
    programKey (before ++ .command (.setKey k) :: after) = some (keyOperand k) := by
  simp only [programKey, List.foldl_append, List.foldl_cons, lastKey]
  induction after with
  | nil => rfl
  | cons a rest ih =>
    rw [List.foldl_cons, h a (by simp)]
    exact ih fun x hx => h x (by simp [hx])

end Sys2Proof.Machine
end

