-- ==== Sys2Proof/Laws/Words.lean ====
section
/-! SUPPORT. Byte order: reading back what was written, and the lengths of written numbers. -/

namespace Sys2Proof

@[simp] theorem be16bytes_length (v : BitVec 16) : (be16bytes v).length = 2 := rfl

@[simp] theorem be16_be16bytes (v : BitVec 16) : be16 (v.extractLsb' 8 8) (v.extractLsb' 0 8) = v := by
  apply BitVec.eq_of_getLsbD_eq
  intro i hi
  simp only [be16, BitVec.getLsbD_append, BitVec.getLsbD_extractLsb']
  split <;> rename_i h
  · simp [h]
  · have : 8 + (i - 8) = i := by omega
    simp [this]; omega

end Sys2Proof

namespace Sys2Proof.Machine

@[simp] theorem be32bytes_length (w : Word) : (be32bytes w).length = 4 := rfl

@[simp] theorem be64bytes_length (v : U64) : (be64bytes v).length = 8 := rfl

theorem extract_append_bytes (a b c d : Byte) :
    be32bytes (a ++ b ++ c ++ d : BitVec 32) = [a, b, c, d] := by
  simp only [be32bytes, List.cons.injEq, and_true]
  refine ⟨?_, ?_, ?_, ?_⟩ <;>
  · apply BitVec.eq_of_getLsbD_eq
    intro i hi
    simp only [BitVec.getLsbD_extractLsb', BitVec.getLsbD_append, hi, decide_true, Bool.true_and]
    repeat' split
    all_goals first | omega | (congr 1; omega)

/-- BE32bytes undoes BE32 on 4 bytes (00_scope.md R14). -/
theorem be32bytes_be32 (b : Bytes) (h : b.length = 4) : be32bytes (be32 b) = b := by
  match b, h with
  | [x, y, z, w], _ => exact extract_append_bytes x y z w

/-- BE32 undoes BE32bytes (00_scope.md R14). -/
@[simp] theorem be32_be32bytes (w : Word) : be32 (be32bytes w) = w := by
  apply BitVec.eq_of_getLsbD_eq
  intro i hi
  simp only [be32, be32bytes, List.getD_cons_zero, List.getD_cons_succ, BitVec.getLsbD_append,
    BitVec.getLsbD_extractLsb']
  repeat' split
  all_goals (rw [decide_eq_true (by omega), Bool.true_and]; congr 1; omega)

end Sys2Proof.Machine
end

