-- ==== Sys2Proof/Laws/Cipher.lean ====
section
/-! SUPPORT. The 32 rounds as one fold over the list of round keys, which undoing, repeating and relating directions all
rest on (41_block_cipher.md R134, R135). -/

namespace Sys2Proof.Machine

@[simp] theorem crypt_length (sbox : SBox) (ks : Subkeys) (dir : Dir) (blk : Bytes) :
    (crypt sbox ks dir blk).length = 8 := by
  simp [crypt, Datapath.output]

@[simp] theorem schedule_get (key : Key) (i : Fin 32) :
    (schedule key).get i = if i.val < 24 then keyWord key (i.val % 8) else keyWord key (31 - i.val) := by
  simp [schedule, Vector.get_eq_getElem]

@[simp] theorem keyOperand_getElem (payload : Bytes) (i : Nat) (h : i < 32) :
    (keyOperand payload)[i] = payload.getD i 0 := by
  simp [keyOperand]

/-- The keys of rounds 0 to 31, in order. -/
def roundKeys (ks : Subkeys) (dir : Dir) : List Word :=
  (List.range 32).map fun i => roundKey ks dir (BitVec.ofNat 5 i)

/-- Rounds with the given keys, in order. -/
def feistelRounds (sbox : SBox) (keys : List Word) (p : Word × Word) : Word × Word :=
  keys.foldl (fun p k => feistel sbox k p) p

@[simp] theorem Datapath.round_dir (sbox : SBox) (ks : Subkeys) (d : Datapath) (i : BitVec 5) :
    (d.round sbox ks i).dir = d.dir := rfl

theorem Datapath.foldl_round (sbox : SBox) (ks : Subkeys) (is : List Nat) (d : Datapath) :
    let e := is.foldl (fun d i => d.round sbox ks (BitVec.ofNat 5 i)) d
    (e.l, e.r) = feistelRounds sbox (is.map fun i => roundKey ks d.dir (BitVec.ofNat 5 i)) (d.l, d.r) := by
  induction is generalizing d with
  | nil => rfl
  | cons i is ih => exact ih (d.round sbox ks (BitVec.ofNat 5 i))

/-- The datapath after all its rounds. -/
theorem Datapath.run_pair (sbox : SBox) (ks : Subkeys) (d : Datapath) :
    ((d.run sbox ks).l, (d.run sbox ks).r) = feistelRounds sbox (roundKeys ks d.dir) (d.l, d.r) :=
  Datapath.foldl_round sbox ks (List.range 32) d

/-- Crypt through the fold over the round keys. -/
theorem crypt_eq_rounds (sbox : SBox) (ks : Subkeys) (dir : Dir) (blk : Bytes) :
    crypt sbox ks dir blk =
      let p := feistelRounds sbox (roundKeys ks dir) (leftHalf blk, rightHalf blk)
      be32bytes p.2 ++ be32bytes p.1 := by
  have h := Datapath.run_pair sbox ks (Datapath.load dir blk)
  simp only [Prod.ext_iff] at h
  simp only [crypt, Datapath.output, h.1, h.2]
  rfl

/-- Decryption takes the keys in reverse (41_block_cipher.md R135). -/
theorem roundKeys_decrypt (ks : Subkeys) : roundKeys ks .decrypt = (roundKeys ks .encrypt).reverse := by
  simp only [roundKeys, List.range, List.range.loop, List.map_cons, List.map_nil, List.reverse_cons, List.reverse_nil,
    List.nil_append, List.cons_append]
  rfl

/-- A round undone: from the swapped pair after a round, the same round gives the swapped pair before it. -/
theorem feistel_undo (sbox : SBox) (k : Word) (p : Word × Word) :
    feistel sbox k (feistel sbox k p).swap = p.swap := by
  simp [feistel, Prod.swap]

@[simp] theorem feistelRounds_append (sbox : SBox) (ks₁ ks₂ : List Word) (p : Word × Word) :
    feistelRounds sbox (ks₁ ++ ks₂) p = feistelRounds sbox ks₂ (feistelRounds sbox ks₁ p) := by
  simp [feistelRounds]

/-- Rounds undone by the reversed keys on the swapped pair. -/
theorem feistelRounds_undo (sbox : SBox) (keys : List Word) (p : Word × Word) :
    feistelRounds sbox keys.reverse (feistelRounds sbox keys p).swap = p.swap := by
  induction keys generalizing p with
  | nil => rfl
  | cons k keys ih =>
    have h := ih (feistel sbox k p)
    rw [List.reverse_cons, feistelRounds_append]
    change feistelRounds sbox [k] (feistelRounds sbox keys.reverse (feistelRounds sbox keys (feistel sbox k p)).swap) = _
    rw [h]
    exact feistel_undo sbox k p

theorem slice_append_left (a b : Bytes) (n : Nat) (h : a.length = n) : slice (a ++ b) 0 n = a := by
  simp [slice, ← h]

theorem slice_append_right (a b : Bytes) (n m : Nat) (h : a.length = n) (hb : b.length = m) :
    slice (a ++ b) n (n + m) = b := by
  simp [slice, ← h, ← hb]

@[simp] theorem leftHalf_be32bytes (x y : Word) : leftHalf (be32bytes x ++ be32bytes y) = x := by
  rw [leftHalf, slice_append_left _ _ 4 rfl, be32_be32bytes]

@[simp] theorem rightHalf_be32bytes (x y : Word) : rightHalf (be32bytes x ++ be32bytes y) = y := by
  rw [rightHalf, slice_append_right _ _ 4 4 rfl rfl, be32_be32bytes]

/-- An 8-byte block is its two halves written back. -/
theorem halves_append (blk : Bytes) (h : blk.length = 8) : be32bytes (leftHalf blk) ++ be32bytes (rightHalf blk) = blk := by
  rw [leftHalf, rightHalf, be32bytes_be32 _ (by simp [slice, h]), be32bytes_be32 _ (by simp [slice, h])]
  have h2 : (blk.drop 4).take (8 - 4) = blk.drop 4 := List.take_of_length_le (by simp [h])
  rw [slice, slice, h2]
  exact List.take_append_drop 4 blk

end Sys2Proof.Machine
end

