-- ==== Sys2Proof/Laws/Decode.lean ====
section
/-! SUPPORT. What the decoder's parts give on an encoded command (30_encoding.md R90, R100). -/

namespace Sys2Proof

/-- OP and FLG select the command they encode. -/
theorem selectCommand_of_wf (i : Instr) (h : i.wf = true) : selectCommand i.op i.flg i.payload = i := by
  cases i with
  | illegal op p =>
    simp only [Instr.wf, reservedOp, Bool.and_eq_true, Bool.or_eq_true, beq_iff_eq, decide_eq_true_eq] at h
    have hne : ∀ c : Byte, c ≠ 0#8 → c < 7#8 → op ≠ c := by
      rintro c hc hlt rfl
      rcases h.1 with h0 | h7
      · exact hc h0
      · exact absurd hlt (by simpa [BitVec.not_lt] using h7)
    simp [selectCommand, Instr.op, Instr.flg, Instr.payload, hne 1#8 (by decide) (by decide), hne 2#8 (by decide) (by decide),
      hne 3#8 (by decide) (by decide), hne 4#8 (by decide) (by decide), hne 5#8 (by decide) (by decide),
      hne 6#8 (by decide) (by decide)]
  | illegalFlg op flg p =>
    simp only [Instr.wf, Bool.and_eq_true, bne_iff_ne] at h
    simp [selectCommand, Instr.op, Instr.flg, Instr.payload, h.1]
  | _ => rfl

theorem payload_lt_of_wf (i : Instr) (h : i.wf = true) : i.payload.length < 65536 := by
  cases i <;> simp_all [Instr.wf, Instr.payload, payloadFits]

end Sys2Proof
end

