-- ==== Sys2Proof/Laws/State.lean ====
section
/-! SUPPORT. One lemma per field for each named update of the state that is a plain record update: what the field holds
after it. -/

namespace Sys2Proof.Machine

variable (s : State)

@[simp] theorem State.begin_key : (s.begin).key = s.key := rfl
@[simp] theorem State.begin_keyValid : (s.begin).keyValid = s.keyValid := rfl
@[simp] theorem State.begin_ks : (s.begin).ks = s.ks := rfl
@[simp] theorem State.begin_sbox : (s.begin).sbox = s.sbox := rfl
@[simp] theorem State.begin_dp : (s.begin).dp = s.dp := rfl
@[simp] theorem State.begin_phase : (s.begin).phase = s.phase := rfl
@[simp] theorem State.begin_buf : (s.begin).buf = s.buf := rfl
@[simp] theorem State.begin_fname : (s.begin).fname = s.fname := rfl
@[simp] theorem State.begin_origSize : (s.begin).origSize = s.origSize := rfl
@[simp] theorem State.begin_padSize : (s.begin).padSize = s.padSize := rfl
@[simp] theorem State.begin_remain : (s.begin).remain = s.remain := rfl
@[simp] theorem State.begin_sinkHeld : (s.begin).sinkHeld = s.sinkHeld := rfl
@[simp] theorem State.begin_sinkFailed : (s.begin).sinkFailed = s.sinkFailed := rfl
@[simp] theorem State.begin_sticky : (s.begin).sticky = s.sticky := rfl
@[simp] theorem State.begin_lineMax : (s.begin).lineMax = s.lineMax := rfl
@[simp] theorem State.begin_cmdIn : (s.begin).cmdIn = s.cmdIn := rfl
@[simp] theorem State.begin_resetReq : (s.begin).resetReq = s.resetReq := rfl
@[simp] theorem State.begin_trace : (s.begin).trace = [] := rfl
@[simp] theorem State.begin_done : (s.begin).done = s.done := rfl
@[simp] theorem State.begin_sink : (s.begin).sink = s.sink := rfl
@[simp] theorem State.begin_answers : (s.begin).answers = s.answers := rfl
@[simp] theorem State.begin_draws : (s.begin).draws = s.draws := rfl

@[simp] theorem State.finish_key (r : Response) : (s.finish r).key = s.key := rfl
@[simp] theorem State.finish_keyValid (r : Response) : (s.finish r).keyValid = s.keyValid := rfl
@[simp] theorem State.finish_ks (r : Response) : (s.finish r).ks = s.ks := rfl
@[simp] theorem State.finish_sbox (r : Response) : (s.finish r).sbox = s.sbox := rfl
@[simp] theorem State.finish_dp (r : Response) : (s.finish r).dp = s.dp := rfl
@[simp] theorem State.finish_phase (r : Response) : (s.finish r).phase = s.phase := rfl
@[simp] theorem State.finish_buf (r : Response) : (s.finish r).buf = s.buf := rfl
@[simp] theorem State.finish_fname (r : Response) : (s.finish r).fname = s.fname := rfl
@[simp] theorem State.finish_origSize (r : Response) : (s.finish r).origSize = s.origSize := rfl
@[simp] theorem State.finish_padSize (r : Response) : (s.finish r).padSize = s.padSize := rfl
@[simp] theorem State.finish_remain (r : Response) : (s.finish r).remain = s.remain := rfl
@[simp] theorem State.finish_sinkHeld (r : Response) : (s.finish r).sinkHeld = s.sinkHeld := rfl
@[simp] theorem State.finish_sinkFailed (r : Response) : (s.finish r).sinkFailed = s.sinkFailed := rfl
@[simp] theorem State.finish_sticky (r : Response) : (s.finish r).sticky = s.sticky := rfl
@[simp] theorem State.finish_lineMax (r : Response) : (s.finish r).lineMax = s.lineMax := rfl
@[simp] theorem State.finish_cmdIn (r : Response) : (s.finish r).cmdIn = s.cmdIn := rfl
@[simp] theorem State.finish_resetReq (r : Response) : (s.finish r).resetReq = s.resetReq := rfl
@[simp] theorem State.finish_trace (r : Response) : (s.finish r).trace = [] := rfl
@[simp] theorem State.finish_done (r : Response) : (s.finish r).done = s.done ++ [{ response := r, trace := s.trace }] := rfl
@[simp] theorem State.finish_sink (r : Response) : (s.finish r).sink = s.sink := rfl
@[simp] theorem State.finish_answers (r : Response) : (s.finish r).answers = s.answers := rfl
@[simp] theorem State.finish_draws (r : Response) : (s.finish r).draws = s.draws := rfl

@[simp] theorem State.respond_key (d : Bytes) : (s.respond d).key = s.key := rfl
@[simp] theorem State.respond_keyValid (d : Bytes) : (s.respond d).keyValid = s.keyValid := rfl
@[simp] theorem State.respond_ks (d : Bytes) : (s.respond d).ks = s.ks := rfl
@[simp] theorem State.respond_sbox (d : Bytes) : (s.respond d).sbox = s.sbox := rfl
@[simp] theorem State.respond_dp (d : Bytes) : (s.respond d).dp = s.dp := rfl
@[simp] theorem State.respond_phase (d : Bytes) : (s.respond d).phase = s.phase := rfl
@[simp] theorem State.respond_buf (d : Bytes) : (s.respond d).buf = s.buf := rfl
@[simp] theorem State.respond_fname (d : Bytes) : (s.respond d).fname = s.fname := rfl
@[simp] theorem State.respond_origSize (d : Bytes) : (s.respond d).origSize = s.origSize := rfl
@[simp] theorem State.respond_padSize (d : Bytes) : (s.respond d).padSize = s.padSize := rfl
@[simp] theorem State.respond_remain (d : Bytes) : (s.respond d).remain = s.remain := rfl
@[simp] theorem State.respond_sinkHeld (d : Bytes) : (s.respond d).sinkHeld = s.sinkHeld := rfl
@[simp] theorem State.respond_sinkFailed (d : Bytes) : (s.respond d).sinkFailed = s.sinkFailed := rfl
@[simp] theorem State.respond_sticky (d : Bytes) : (s.respond d).sticky = s.sticky := rfl
@[simp] theorem State.respond_lineMax (d : Bytes) : (s.respond d).lineMax = s.lineMax := rfl
@[simp] theorem State.respond_cmdIn (d : Bytes) : (s.respond d).cmdIn = s.cmdIn := rfl
@[simp] theorem State.respond_resetReq (d : Bytes) : (s.respond d).resetReq = s.resetReq := rfl
@[simp] theorem State.respond_trace (d : Bytes) : (s.respond d).trace = [] := rfl
@[simp] theorem State.respond_done (d : Bytes) :
    (s.respond d).done = s.done ++ [{ response := { status := .ok, rdata := d }, trace := s.trace }] := rfl
@[simp] theorem State.respond_sink (d : Bytes) : (s.respond d).sink = s.sink := rfl
@[simp] theorem State.respond_answers (d : Bytes) : (s.respond d).answers = s.answers := rfl
@[simp] theorem State.respond_draws (d : Bytes) : (s.respond d).draws = s.draws := rfl

@[simp] theorem State.fail_key (f : Failure) : (s.fail f).key = s.key := rfl
@[simp] theorem State.fail_keyValid (f : Failure) : (s.fail f).keyValid = s.keyValid := rfl
@[simp] theorem State.fail_ks (f : Failure) : (s.fail f).ks = s.ks := rfl
@[simp] theorem State.fail_sbox (f : Failure) : (s.fail f).sbox = s.sbox := rfl
@[simp] theorem State.fail_dp (f : Failure) : (s.fail f).dp = s.dp := rfl
@[simp] theorem State.fail_phase (f : Failure) : (s.fail f).phase = s.phase := rfl
@[simp] theorem State.fail_buf (f : Failure) : (s.fail f).buf = s.buf := rfl
@[simp] theorem State.fail_fname (f : Failure) : (s.fail f).fname = s.fname := rfl
@[simp] theorem State.fail_origSize (f : Failure) : (s.fail f).origSize = s.origSize := rfl
@[simp] theorem State.fail_padSize (f : Failure) : (s.fail f).padSize = s.padSize := rfl
@[simp] theorem State.fail_remain (f : Failure) : (s.fail f).remain = s.remain := rfl
@[simp] theorem State.fail_sinkHeld (f : Failure) : (s.fail f).sinkHeld = s.sinkHeld := rfl
@[simp] theorem State.fail_sinkFailed (f : Failure) : (s.fail f).sinkFailed = s.sinkFailed := rfl
@[simp] theorem State.fail_sticky (f : Failure) : (s.fail f).sticky = setSticky s.sticky f.stickyBit := rfl
@[simp] theorem State.fail_lineMax (f : Failure) : (s.fail f).lineMax = s.lineMax := rfl
@[simp] theorem State.fail_cmdIn (f : Failure) : (s.fail f).cmdIn = s.cmdIn := rfl
@[simp] theorem State.fail_resetReq (f : Failure) : (s.fail f).resetReq = s.resetReq := rfl
@[simp] theorem State.fail_trace (f : Failure) : (s.fail f).trace = [] := rfl
@[simp] theorem State.fail_done (f : Failure) :
    (s.fail f).done = s.done ++ [{ response := { status := .failed f, rdata := [] }, trace := [] }] := rfl
@[simp] theorem State.fail_sink (f : Failure) : (s.fail f).sink = s.sink := rfl
@[simp] theorem State.fail_answers (f : Failure) : (s.fail f).answers = s.answers := rfl
@[simp] theorem State.fail_draws (f : Failure) : (s.fail f).draws = s.draws := rfl

@[simp] theorem State.record_key (item : TraceItem) : (s.record item).key = s.key := rfl
@[simp] theorem State.record_keyValid (item : TraceItem) : (s.record item).keyValid = s.keyValid := rfl
@[simp] theorem State.record_ks (item : TraceItem) : (s.record item).ks = s.ks := rfl
@[simp] theorem State.record_sbox (item : TraceItem) : (s.record item).sbox = s.sbox := rfl
@[simp] theorem State.record_dp (item : TraceItem) : (s.record item).dp = s.dp := rfl
@[simp] theorem State.record_phase (item : TraceItem) : (s.record item).phase = s.phase := rfl
@[simp] theorem State.record_buf (item : TraceItem) : (s.record item).buf = s.buf := rfl
@[simp] theorem State.record_fname (item : TraceItem) : (s.record item).fname = s.fname := rfl
@[simp] theorem State.record_origSize (item : TraceItem) : (s.record item).origSize = s.origSize := rfl
@[simp] theorem State.record_padSize (item : TraceItem) : (s.record item).padSize = s.padSize := rfl
@[simp] theorem State.record_remain (item : TraceItem) : (s.record item).remain = s.remain := rfl
@[simp] theorem State.record_sinkHeld (item : TraceItem) : (s.record item).sinkHeld = s.sinkHeld := rfl
@[simp] theorem State.record_sinkFailed (item : TraceItem) : (s.record item).sinkFailed = s.sinkFailed := rfl
@[simp] theorem State.record_sticky (item : TraceItem) : (s.record item).sticky = s.sticky := rfl
@[simp] theorem State.record_lineMax (item : TraceItem) : (s.record item).lineMax = s.lineMax := rfl
@[simp] theorem State.record_cmdIn (item : TraceItem) : (s.record item).cmdIn = s.cmdIn := rfl
@[simp] theorem State.record_resetReq (item : TraceItem) : (s.record item).resetReq = s.resetReq := rfl
@[simp] theorem State.record_trace (item : TraceItem) : (s.record item).trace = s.trace ++ [item] := rfl
@[simp] theorem State.record_done (item : TraceItem) : (s.record item).done = s.done := rfl
@[simp] theorem State.record_sink (item : TraceItem) : (s.record item).sink = s.sink := rfl
@[simp] theorem State.record_answers (item : TraceItem) : (s.record item).answers = s.answers := rfl
@[simp] theorem State.record_draws (item : TraceItem) : (s.record item).draws = s.draws := rfl

@[simp] theorem State.emit_key (e : Event) : (s.emit e).key = s.key := rfl
@[simp] theorem State.emit_keyValid (e : Event) : (s.emit e).keyValid = s.keyValid := rfl
@[simp] theorem State.emit_ks (e : Event) : (s.emit e).ks = s.ks := rfl
@[simp] theorem State.emit_sbox (e : Event) : (s.emit e).sbox = s.sbox := rfl
@[simp] theorem State.emit_dp (e : Event) : (s.emit e).dp = s.dp := rfl
@[simp] theorem State.emit_phase (e : Event) : (s.emit e).phase = s.phase := rfl
@[simp] theorem State.emit_buf (e : Event) : (s.emit e).buf = s.buf := rfl
@[simp] theorem State.emit_fname (e : Event) : (s.emit e).fname = s.fname := rfl
@[simp] theorem State.emit_origSize (e : Event) : (s.emit e).origSize = s.origSize := rfl
@[simp] theorem State.emit_padSize (e : Event) : (s.emit e).padSize = s.padSize := rfl
@[simp] theorem State.emit_remain (e : Event) : (s.emit e).remain = s.remain := rfl
@[simp] theorem State.emit_sinkHeld (e : Event) : (s.emit e).sinkHeld = s.sinkHeld := rfl
@[simp] theorem State.emit_sinkFailed (e : Event) : (s.emit e).sinkFailed = s.sinkFailed := rfl
@[simp] theorem State.emit_sticky (e : Event) : (s.emit e).sticky = s.sticky := rfl
@[simp] theorem State.emit_lineMax (e : Event) : (s.emit e).lineMax = s.lineMax := rfl
@[simp] theorem State.emit_cmdIn (e : Event) : (s.emit e).cmdIn = s.cmdIn := rfl
@[simp] theorem State.emit_resetReq (e : Event) : (s.emit e).resetReq = s.resetReq := rfl
@[simp] theorem State.emit_trace (e : Event) : (s.emit e).trace = s.trace ++ [.event e] := rfl
@[simp] theorem State.emit_done (e : Event) : (s.emit e).done = s.done := rfl
@[simp] theorem State.emit_sink (e : Event) : (s.emit e).sink = s.sink := rfl
@[simp] theorem State.emit_answers (e : Event) : (s.emit e).answers = s.answers := rfl
@[simp] theorem State.emit_draws (e : Event) : (s.emit e).draws = s.draws := rfl

@[simp] theorem State.applySink_key (op : SinkOp) : (s.applySink op).key = s.key := rfl
@[simp] theorem State.applySink_keyValid (op : SinkOp) : (s.applySink op).keyValid = s.keyValid := rfl
@[simp] theorem State.applySink_ks (op : SinkOp) : (s.applySink op).ks = s.ks := rfl
@[simp] theorem State.applySink_sbox (op : SinkOp) : (s.applySink op).sbox = s.sbox := rfl
@[simp] theorem State.applySink_dp (op : SinkOp) : (s.applySink op).dp = s.dp := rfl
@[simp] theorem State.applySink_phase (op : SinkOp) : (s.applySink op).phase = s.phase := rfl
@[simp] theorem State.applySink_buf (op : SinkOp) : (s.applySink op).buf = s.buf := rfl
@[simp] theorem State.applySink_fname (op : SinkOp) : (s.applySink op).fname = s.fname := rfl
@[simp] theorem State.applySink_origSize (op : SinkOp) : (s.applySink op).origSize = s.origSize := rfl
@[simp] theorem State.applySink_padSize (op : SinkOp) : (s.applySink op).padSize = s.padSize := rfl
@[simp] theorem State.applySink_remain (op : SinkOp) : (s.applySink op).remain = s.remain := rfl
@[simp] theorem State.applySink_sinkHeld (op : SinkOp) : (s.applySink op).sinkHeld = s.sinkHeld := rfl
@[simp] theorem State.applySink_sinkFailed (op : SinkOp) : (s.applySink op).sinkFailed = s.sinkFailed := rfl
@[simp] theorem State.applySink_sticky (op : SinkOp) : (s.applySink op).sticky = s.sticky := rfl
@[simp] theorem State.applySink_lineMax (op : SinkOp) : (s.applySink op).lineMax = s.lineMax := rfl
@[simp] theorem State.applySink_cmdIn (op : SinkOp) : (s.applySink op).cmdIn = s.cmdIn := rfl
@[simp] theorem State.applySink_resetReq (op : SinkOp) : (s.applySink op).resetReq = s.resetReq := rfl
@[simp] theorem State.applySink_trace (op : SinkOp) : (s.applySink op).trace = s.trace := rfl
@[simp] theorem State.applySink_done (op : SinkOp) : (s.applySink op).done = s.done := rfl
@[simp] theorem State.applySink_sink (op : SinkOp) : (s.applySink op).sink = s.sink.apply s.draws op := rfl
@[simp] theorem State.applySink_answers (op : SinkOp) : (s.applySink op).answers = s.answers := rfl
@[simp] theorem State.applySink_draws (op : SinkOp) : (s.applySink op).draws = s.draws + s.sink.draws op := rfl

@[simp] theorem State.loadKey_key (k : Key) : (s.loadKey k).key = k := rfl
@[simp] theorem State.loadKey_keyValid (k : Key) : (s.loadKey k).keyValid = true := rfl
@[simp] theorem State.loadKey_ks (k : Key) : (s.loadKey k).ks = schedule k := rfl
@[simp] theorem State.loadKey_sbox (k : Key) : (s.loadKey k).sbox = s.sbox := rfl
@[simp] theorem State.loadKey_dp (k : Key) : (s.loadKey k).dp = s.dp := rfl
@[simp] theorem State.loadKey_phase (k : Key) : (s.loadKey k).phase = s.phase := rfl
@[simp] theorem State.loadKey_buf (k : Key) : (s.loadKey k).buf = s.buf := rfl
@[simp] theorem State.loadKey_fname (k : Key) : (s.loadKey k).fname = s.fname := rfl
@[simp] theorem State.loadKey_origSize (k : Key) : (s.loadKey k).origSize = s.origSize := rfl
@[simp] theorem State.loadKey_padSize (k : Key) : (s.loadKey k).padSize = s.padSize := rfl
@[simp] theorem State.loadKey_remain (k : Key) : (s.loadKey k).remain = s.remain := rfl
@[simp] theorem State.loadKey_sinkHeld (k : Key) : (s.loadKey k).sinkHeld = s.sinkHeld := rfl
@[simp] theorem State.loadKey_sinkFailed (k : Key) : (s.loadKey k).sinkFailed = s.sinkFailed := rfl
@[simp] theorem State.loadKey_sticky (k : Key) : (s.loadKey k).sticky = s.sticky := rfl
@[simp] theorem State.loadKey_lineMax (k : Key) : (s.loadKey k).lineMax = s.lineMax := rfl
@[simp] theorem State.loadKey_cmdIn (k : Key) : (s.loadKey k).cmdIn = s.cmdIn := rfl
@[simp] theorem State.loadKey_resetReq (k : Key) : (s.loadKey k).resetReq = s.resetReq := rfl
@[simp] theorem State.loadKey_trace (k : Key) : (s.loadKey k).trace = s.trace := rfl
@[simp] theorem State.loadKey_done (k : Key) : (s.loadKey k).done = s.done := rfl
@[simp] theorem State.loadKey_sink (k : Key) : (s.loadKey k).sink = s.sink := rfl
@[simp] theorem State.loadKey_answers (k : Key) : (s.loadKey k).answers = s.answers := rfl
@[simp] theorem State.loadKey_draws (k : Key) : (s.loadKey k).draws = s.draws := rfl

@[simp] theorem State.releaseDatapath_key : (s.releaseDatapath).key = s.key := rfl
@[simp] theorem State.releaseDatapath_keyValid : (s.releaseDatapath).keyValid = s.keyValid := rfl
@[simp] theorem State.releaseDatapath_ks : (s.releaseDatapath).ks = s.ks := rfl
@[simp] theorem State.releaseDatapath_sbox : (s.releaseDatapath).sbox = s.sbox := rfl
@[simp] theorem State.releaseDatapath_dp : (s.releaseDatapath).dp = idleDatapath s.draws := rfl
@[simp] theorem State.releaseDatapath_phase : (s.releaseDatapath).phase = s.phase := rfl
@[simp] theorem State.releaseDatapath_buf : (s.releaseDatapath).buf = s.buf := rfl
@[simp] theorem State.releaseDatapath_fname : (s.releaseDatapath).fname = s.fname := rfl
@[simp] theorem State.releaseDatapath_origSize : (s.releaseDatapath).origSize = s.origSize := rfl
@[simp] theorem State.releaseDatapath_padSize : (s.releaseDatapath).padSize = s.padSize := rfl
@[simp] theorem State.releaseDatapath_remain : (s.releaseDatapath).remain = s.remain := rfl
@[simp] theorem State.releaseDatapath_sinkHeld : (s.releaseDatapath).sinkHeld = s.sinkHeld := rfl
@[simp] theorem State.releaseDatapath_sinkFailed : (s.releaseDatapath).sinkFailed = s.sinkFailed := rfl
@[simp] theorem State.releaseDatapath_sticky : (s.releaseDatapath).sticky = s.sticky := rfl
@[simp] theorem State.releaseDatapath_lineMax : (s.releaseDatapath).lineMax = s.lineMax := rfl
@[simp] theorem State.releaseDatapath_cmdIn : (s.releaseDatapath).cmdIn = s.cmdIn := rfl
@[simp] theorem State.releaseDatapath_resetReq : (s.releaseDatapath).resetReq = s.resetReq := rfl
@[simp] theorem State.releaseDatapath_trace : (s.releaseDatapath).trace = s.trace := rfl
@[simp] theorem State.releaseDatapath_done : (s.releaseDatapath).done = s.done := rfl
@[simp] theorem State.releaseDatapath_sink : (s.releaseDatapath).sink = s.sink := rfl
@[simp] theorem State.releaseDatapath_answers : (s.releaseDatapath).answers = s.answers := rfl
@[simp] theorem State.releaseDatapath_draws : (s.releaseDatapath).draws = s.draws + 1 := rfl

@[simp] theorem State.openTransfer_key (name : Bytes) (o p : U64) : (s.openTransfer name o p).key = s.key := rfl
@[simp] theorem State.openTransfer_keyValid (name : Bytes) (o p : U64) :
    (s.openTransfer name o p).keyValid = s.keyValid := rfl
@[simp] theorem State.openTransfer_ks (name : Bytes) (o p : U64) : (s.openTransfer name o p).ks = s.ks := rfl
@[simp] theorem State.openTransfer_sbox (name : Bytes) (o p : U64) : (s.openTransfer name o p).sbox = s.sbox := rfl
@[simp] theorem State.openTransfer_dp (name : Bytes) (o p : U64) : (s.openTransfer name o p).dp = s.dp := rfl
@[simp] theorem State.openTransfer_phase (name : Bytes) (o p : U64) : (s.openTransfer name o p).phase = s.phase := rfl
@[simp] theorem State.openTransfer_buf (name : Bytes) (o p : U64) : (s.openTransfer name o p).buf = s.buf := rfl
@[simp] theorem State.openTransfer_fname (name : Bytes) (o p : U64) : (s.openTransfer name o p).fname = name := rfl
@[simp] theorem State.openTransfer_origSize (name : Bytes) (o p : U64) : (s.openTransfer name o p).origSize = o := rfl
@[simp] theorem State.openTransfer_padSize (name : Bytes) (o p : U64) : (s.openTransfer name o p).padSize = p := rfl
@[simp] theorem State.openTransfer_remain (name : Bytes) (o p : U64) : (s.openTransfer name o p).remain = p := rfl
@[simp] theorem State.openTransfer_sinkHeld (name : Bytes) (o p : U64) :
    (s.openTransfer name o p).sinkHeld = s.sinkHeld := rfl
@[simp] theorem State.openTransfer_sinkFailed (name : Bytes) (o p : U64) :
    (s.openTransfer name o p).sinkFailed = false := rfl
@[simp] theorem State.openTransfer_sticky (name : Bytes) (o p : U64) : (s.openTransfer name o p).sticky = s.sticky := rfl
@[simp] theorem State.openTransfer_lineMax (name : Bytes) (o p : U64) : (s.openTransfer name o p).lineMax = s.lineMax := rfl
@[simp] theorem State.openTransfer_cmdIn (name : Bytes) (o p : U64) : (s.openTransfer name o p).cmdIn = s.cmdIn := rfl
@[simp] theorem State.openTransfer_resetReq (name : Bytes) (o p : U64) :
    (s.openTransfer name o p).resetReq = s.resetReq := rfl
@[simp] theorem State.openTransfer_trace (name : Bytes) (o p : U64) : (s.openTransfer name o p).trace = s.trace := rfl
@[simp] theorem State.openTransfer_done (name : Bytes) (o p : U64) : (s.openTransfer name o p).done = s.done := rfl
@[simp] theorem State.openTransfer_sink (name : Bytes) (o p : U64) : (s.openTransfer name o p).sink = s.sink := rfl
@[simp] theorem State.openTransfer_answers (name : Bytes) (o p : U64) : (s.openTransfer name o p).answers = s.answers := rfl
@[simp] theorem State.openTransfer_draws (name : Bytes) (o p : U64) : (s.openTransfer name o p).draws = s.draws := rfl

@[simp] theorem State.closeTransfer_key : (s.closeTransfer).key = s.key := rfl
@[simp] theorem State.closeTransfer_keyValid : (s.closeTransfer).keyValid = s.keyValid := rfl
@[simp] theorem State.closeTransfer_ks : (s.closeTransfer).ks = s.ks := rfl
@[simp] theorem State.closeTransfer_sbox : (s.closeTransfer).sbox = s.sbox := rfl
@[simp] theorem State.closeTransfer_dp : (s.closeTransfer).dp = s.dp := rfl
@[simp] theorem State.closeTransfer_phase : (s.closeTransfer).phase = .awaitingHeader := rfl
@[simp] theorem State.closeTransfer_buf : (s.closeTransfer).buf = s.buf := rfl
@[simp] theorem State.closeTransfer_fname : (s.closeTransfer).fname = [] := rfl
@[simp] theorem State.closeTransfer_origSize : (s.closeTransfer).origSize = 0#64 := rfl
@[simp] theorem State.closeTransfer_padSize : (s.closeTransfer).padSize = 0#64 := rfl
@[simp] theorem State.closeTransfer_remain : (s.closeTransfer).remain = 0#64 := rfl
@[simp] theorem State.closeTransfer_sinkHeld : (s.closeTransfer).sinkHeld = false := rfl
@[simp] theorem State.closeTransfer_sinkFailed : (s.closeTransfer).sinkFailed = false := rfl
@[simp] theorem State.closeTransfer_sticky : (s.closeTransfer).sticky = s.sticky := rfl
@[simp] theorem State.closeTransfer_lineMax : (s.closeTransfer).lineMax = s.lineMax := rfl
@[simp] theorem State.closeTransfer_cmdIn : (s.closeTransfer).cmdIn = s.cmdIn := rfl
@[simp] theorem State.closeTransfer_resetReq : (s.closeTransfer).resetReq = s.resetReq := rfl
@[simp] theorem State.closeTransfer_trace : (s.closeTransfer).trace = s.trace := rfl
@[simp] theorem State.closeTransfer_done : (s.closeTransfer).done = s.done := rfl
@[simp] theorem State.closeTransfer_sink : (s.closeTransfer).sink = s.sink := rfl
@[simp] theorem State.closeTransfer_answers : (s.closeTransfer).answers = s.answers := rfl
@[simp] theorem State.closeTransfer_draws : (s.closeTransfer).draws = s.draws := rfl

@[simp] theorem State.takeChunk_key : (s.takeChunk).key = s.key := rfl
@[simp] theorem State.takeChunk_keyValid : (s.takeChunk).keyValid = s.keyValid := rfl
@[simp] theorem State.takeChunk_ks : (s.takeChunk).ks = s.ks := rfl
@[simp] theorem State.takeChunk_sbox : (s.takeChunk).sbox = s.sbox := rfl
@[simp] theorem State.takeChunk_dp : (s.takeChunk).dp = s.dp := rfl
@[simp] theorem State.takeChunk_phase : (s.takeChunk).phase = s.phase := rfl
@[simp] theorem State.takeChunk_buf : (s.takeChunk).buf = s.buf.drop 8 := rfl
@[simp] theorem State.takeChunk_fname : (s.takeChunk).fname = s.fname := rfl
@[simp] theorem State.takeChunk_origSize : (s.takeChunk).origSize = s.origSize := rfl
@[simp] theorem State.takeChunk_padSize : (s.takeChunk).padSize = s.padSize := rfl
@[simp] theorem State.takeChunk_remain : (s.takeChunk).remain = s.remain - 8#64 := rfl
@[simp] theorem State.takeChunk_sinkHeld : (s.takeChunk).sinkHeld = s.sinkHeld := rfl
@[simp] theorem State.takeChunk_sinkFailed : (s.takeChunk).sinkFailed = s.sinkFailed := rfl
@[simp] theorem State.takeChunk_sticky : (s.takeChunk).sticky = s.sticky := rfl
@[simp] theorem State.takeChunk_lineMax : (s.takeChunk).lineMax = s.lineMax := rfl
@[simp] theorem State.takeChunk_cmdIn : (s.takeChunk).cmdIn = s.cmdIn := rfl
@[simp] theorem State.takeChunk_resetReq : (s.takeChunk).resetReq = s.resetReq := rfl
@[simp] theorem State.takeChunk_trace : (s.takeChunk).trace = s.trace := rfl
@[simp] theorem State.takeChunk_done : (s.takeChunk).done = s.done := rfl
@[simp] theorem State.takeChunk_sink : (s.takeChunk).sink = s.sink := rfl
@[simp] theorem State.takeChunk_answers : (s.takeChunk).answers = s.answers := rfl
@[simp] theorem State.takeChunk_draws : (s.takeChunk).draws = s.draws := rfl

@[simp] theorem State.setBuf_key (rest : Bytes) : (s.setBuf rest).key = s.key := rfl
@[simp] theorem State.setBuf_keyValid (rest : Bytes) : (s.setBuf rest).keyValid = s.keyValid := rfl
@[simp] theorem State.setBuf_ks (rest : Bytes) : (s.setBuf rest).ks = s.ks := rfl
@[simp] theorem State.setBuf_sbox (rest : Bytes) : (s.setBuf rest).sbox = s.sbox := rfl
@[simp] theorem State.setBuf_dp (rest : Bytes) : (s.setBuf rest).dp = s.dp := rfl
@[simp] theorem State.setBuf_phase (rest : Bytes) : (s.setBuf rest).phase = s.phase := rfl
@[simp] theorem State.setBuf_buf (rest : Bytes) : (s.setBuf rest).buf = rest := rfl
@[simp] theorem State.setBuf_fname (rest : Bytes) : (s.setBuf rest).fname = s.fname := rfl
@[simp] theorem State.setBuf_origSize (rest : Bytes) : (s.setBuf rest).origSize = s.origSize := rfl
@[simp] theorem State.setBuf_padSize (rest : Bytes) : (s.setBuf rest).padSize = s.padSize := rfl
@[simp] theorem State.setBuf_remain (rest : Bytes) : (s.setBuf rest).remain = s.remain := rfl
@[simp] theorem State.setBuf_sinkHeld (rest : Bytes) : (s.setBuf rest).sinkHeld = s.sinkHeld := rfl
@[simp] theorem State.setBuf_sinkFailed (rest : Bytes) : (s.setBuf rest).sinkFailed = s.sinkFailed := rfl
@[simp] theorem State.setBuf_sticky (rest : Bytes) : (s.setBuf rest).sticky = s.sticky := rfl
@[simp] theorem State.setBuf_lineMax (rest : Bytes) : (s.setBuf rest).lineMax = s.lineMax := rfl
@[simp] theorem State.setBuf_cmdIn (rest : Bytes) : (s.setBuf rest).cmdIn = s.cmdIn := rfl
@[simp] theorem State.setBuf_resetReq (rest : Bytes) : (s.setBuf rest).resetReq = s.resetReq := rfl
@[simp] theorem State.setBuf_trace (rest : Bytes) : (s.setBuf rest).trace = s.trace := rfl
@[simp] theorem State.setBuf_done (rest : Bytes) : (s.setBuf rest).done = s.done := rfl
@[simp] theorem State.setBuf_sink (rest : Bytes) : (s.setBuf rest).sink = s.sink := rfl
@[simp] theorem State.setBuf_answers (rest : Bytes) : (s.setBuf rest).answers = s.answers := rfl
@[simp] theorem State.setBuf_draws (rest : Bytes) : (s.setBuf rest).draws = s.draws := rfl

@[simp] theorem State.receive_key (p : Bytes) : (s.receive p).key = s.key := rfl
@[simp] theorem State.receive_keyValid (p : Bytes) : (s.receive p).keyValid = s.keyValid := rfl
@[simp] theorem State.receive_ks (p : Bytes) : (s.receive p).ks = s.ks := rfl
@[simp] theorem State.receive_sbox (p : Bytes) : (s.receive p).sbox = s.sbox := rfl
@[simp] theorem State.receive_dp (p : Bytes) : (s.receive p).dp = s.dp := rfl
@[simp] theorem State.receive_phase (p : Bytes) : (s.receive p).phase = s.phase := rfl
@[simp] theorem State.receive_buf (p : Bytes) : (s.receive p).buf = s.buf ++ p := rfl
@[simp] theorem State.receive_fname (p : Bytes) : (s.receive p).fname = s.fname := rfl
@[simp] theorem State.receive_origSize (p : Bytes) : (s.receive p).origSize = s.origSize := rfl
@[simp] theorem State.receive_padSize (p : Bytes) : (s.receive p).padSize = s.padSize := rfl
@[simp] theorem State.receive_remain (p : Bytes) : (s.receive p).remain = s.remain := rfl
@[simp] theorem State.receive_sinkHeld (p : Bytes) : (s.receive p).sinkHeld = s.sinkHeld := rfl
@[simp] theorem State.receive_sinkFailed (p : Bytes) : (s.receive p).sinkFailed = s.sinkFailed := rfl
@[simp] theorem State.receive_sticky (p : Bytes) : (s.receive p).sticky = s.sticky := rfl
@[simp] theorem State.receive_lineMax (p : Bytes) : (s.receive p).lineMax = s.lineMax := rfl
@[simp] theorem State.receive_cmdIn (p : Bytes) : (s.receive p).cmdIn = s.cmdIn := rfl
@[simp] theorem State.receive_resetReq (p : Bytes) : (s.receive p).resetReq = s.resetReq := rfl
@[simp] theorem State.receive_trace (p : Bytes) : (s.receive p).trace = s.trace := rfl
@[simp] theorem State.receive_done (p : Bytes) : (s.receive p).done = s.done := rfl
@[simp] theorem State.receive_sink (p : Bytes) : (s.receive p).sink = s.sink := rfl
@[simp] theorem State.receive_answers (p : Bytes) : (s.receive p).answers = s.answers := rfl
@[simp] theorem State.receive_draws (p : Bytes) : (s.receive p).draws = s.draws := rfl

@[simp] theorem State.textFrame_key (body : Bytes) : (s.textFrame body).key = s.key := rfl
@[simp] theorem State.textFrame_keyValid (body : Bytes) : (s.textFrame body).keyValid = s.keyValid := rfl
@[simp] theorem State.textFrame_ks (body : Bytes) : (s.textFrame body).ks = s.ks := rfl
@[simp] theorem State.textFrame_sbox (body : Bytes) : (s.textFrame body).sbox = s.sbox := rfl
@[simp] theorem State.textFrame_dp (body : Bytes) : (s.textFrame body).dp = s.dp := rfl
@[simp] theorem State.textFrame_phase (body : Bytes) : (s.textFrame body).phase = s.phase := rfl
@[simp] theorem State.textFrame_buf (body : Bytes) : (s.textFrame body).buf = s.buf := rfl
@[simp] theorem State.textFrame_fname (body : Bytes) : (s.textFrame body).fname = s.fname := rfl
@[simp] theorem State.textFrame_origSize (body : Bytes) : (s.textFrame body).origSize = s.origSize := rfl
@[simp] theorem State.textFrame_padSize (body : Bytes) : (s.textFrame body).padSize = s.padSize := rfl
@[simp] theorem State.textFrame_remain (body : Bytes) : (s.textFrame body).remain = s.remain := rfl
@[simp] theorem State.textFrame_sinkHeld (body : Bytes) : (s.textFrame body).sinkHeld = s.sinkHeld := rfl
@[simp] theorem State.textFrame_sinkFailed (body : Bytes) : (s.textFrame body).sinkFailed = s.sinkFailed := rfl
@[simp] theorem State.textFrame_sticky (body : Bytes) : (s.textFrame body).sticky = s.sticky := rfl
@[simp] theorem State.textFrame_lineMax (body : Bytes) : (s.textFrame body).lineMax = s.lineMax := rfl
@[simp] theorem State.textFrame_cmdIn (body : Bytes) : (s.textFrame body).cmdIn = s.cmdIn := rfl
@[simp] theorem State.textFrame_resetReq (body : Bytes) : (s.textFrame body).resetReq = s.resetReq := rfl
@[simp] theorem State.textFrame_trace (body : Bytes) : (s.textFrame body).trace = s.trace ++ [.event (.text body)] := rfl
@[simp] theorem State.textFrame_done (body : Bytes) : (s.textFrame body).done = s.done := rfl
@[simp] theorem State.textFrame_sink (body : Bytes) : (s.textFrame body).sink = s.sink := rfl
@[simp] theorem State.textFrame_answers (body : Bytes) : (s.textFrame body).answers = s.answers := rfl
@[simp] theorem State.textFrame_draws (body : Bytes) : (s.textFrame body).draws = s.draws := rfl

@[simp] theorem State.protocolError_key (reason : Reason) : (s.protocolError reason).key = s.key := rfl
@[simp] theorem State.protocolError_keyValid (reason : Reason) : (s.protocolError reason).keyValid = s.keyValid := rfl
@[simp] theorem State.protocolError_ks (reason : Reason) : (s.protocolError reason).ks = s.ks := rfl
@[simp] theorem State.protocolError_sbox (reason : Reason) : (s.protocolError reason).sbox = s.sbox := rfl
@[simp] theorem State.protocolError_dp (reason : Reason) : (s.protocolError reason).dp = s.dp := rfl
@[simp] theorem State.protocolError_phase (reason : Reason) : (s.protocolError reason).phase = .desynchronized := rfl
@[simp] theorem State.protocolError_buf (reason : Reason) : (s.protocolError reason).buf = [] := rfl
@[simp] theorem State.protocolError_fname (reason : Reason) : (s.protocolError reason).fname = s.fname := rfl
@[simp] theorem State.protocolError_origSize (reason : Reason) : (s.protocolError reason).origSize = s.origSize := rfl
@[simp] theorem State.protocolError_padSize (reason : Reason) : (s.protocolError reason).padSize = s.padSize := rfl
@[simp] theorem State.protocolError_remain (reason : Reason) : (s.protocolError reason).remain = s.remain := rfl
@[simp] theorem State.protocolError_sinkHeld (reason : Reason) : (s.protocolError reason).sinkHeld = s.sinkHeld := rfl
@[simp] theorem State.protocolError_sinkFailed (reason : Reason) : (s.protocolError reason).sinkFailed = s.sinkFailed := rfl
@[simp] theorem State.protocolError_sticky (reason : Reason) :
    (s.protocolError reason).sticky = setSticky s.sticky protocolBit := rfl
@[simp] theorem State.protocolError_lineMax (reason : Reason) : (s.protocolError reason).lineMax = s.lineMax := rfl
@[simp] theorem State.protocolError_cmdIn (reason : Reason) : (s.protocolError reason).cmdIn = s.cmdIn := rfl
@[simp] theorem State.protocolError_resetReq (reason : Reason) : (s.protocolError reason).resetReq = s.resetReq := rfl
@[simp] theorem State.protocolError_trace (reason : Reason) :
    (s.protocolError reason).trace = s.trace ++ [.event (.protocolError reason)] := rfl
@[simp] theorem State.protocolError_done (reason : Reason) : (s.protocolError reason).done = s.done := rfl
@[simp] theorem State.protocolError_sink (reason : Reason) : (s.protocolError reason).sink = s.sink := rfl
@[simp] theorem State.protocolError_answers (reason : Reason) : (s.protocolError reason).answers = s.answers := rfl
@[simp] theorem State.protocolError_draws (reason : Reason) : (s.protocolError reason).draws = s.draws := rfl

end Sys2Proof.Machine
end

