-- ==== Sys2Proof/Laws/Ops.lean ====
section
/-! SUPPORT. What the shared operations can do: a sink operation and its answer, the abort paths, and the frames of each. -/

namespace Sys2Proof.Machine

variable (s : State)

/-! ## Taking an answer -/

@[simp] theorem State.tookAnswer_key : (s.tookAnswer).key = s.key := by unfold State.tookAnswer; split <;> rfl
@[simp] theorem State.tookAnswer_keyValid : (s.tookAnswer).keyValid = s.keyValid := by unfold State.tookAnswer; split <;> rfl
@[simp] theorem State.tookAnswer_ks : (s.tookAnswer).ks = s.ks := by unfold State.tookAnswer; split <;> rfl
@[simp] theorem State.tookAnswer_sbox : (s.tookAnswer).sbox = s.sbox := by unfold State.tookAnswer; split <;> rfl
@[simp] theorem State.tookAnswer_dp : (s.tookAnswer).dp = s.dp := by unfold State.tookAnswer; split <;> rfl
@[simp] theorem State.tookAnswer_phase : (s.tookAnswer).phase = s.phase := by unfold State.tookAnswer; split <;> rfl
@[simp] theorem State.tookAnswer_buf : (s.tookAnswer).buf = s.buf := by unfold State.tookAnswer; split <;> rfl
@[simp] theorem State.tookAnswer_fname : (s.tookAnswer).fname = s.fname := by unfold State.tookAnswer; split <;> rfl
@[simp] theorem State.tookAnswer_origSize : (s.tookAnswer).origSize = s.origSize := by unfold State.tookAnswer; split <;> rfl
@[simp] theorem State.tookAnswer_padSize : (s.tookAnswer).padSize = s.padSize := by unfold State.tookAnswer; split <;> rfl
@[simp] theorem State.tookAnswer_remain : (s.tookAnswer).remain = s.remain := by unfold State.tookAnswer; split <;> rfl
@[simp] theorem State.tookAnswer_sinkHeld : (s.tookAnswer).sinkHeld = s.sinkHeld := by unfold State.tookAnswer; split <;> rfl
@[simp] theorem State.tookAnswer_sinkFailed : (s.tookAnswer).sinkFailed = s.sinkFailed := by unfold State.tookAnswer; split <;> rfl
@[simp] theorem State.tookAnswer_sticky : (s.tookAnswer).sticky = s.sticky := by unfold State.tookAnswer; split <;> rfl
@[simp] theorem State.tookAnswer_lineMax : (s.tookAnswer).lineMax = s.lineMax := by unfold State.tookAnswer; split <;> rfl
@[simp] theorem State.tookAnswer_cmdIn : (s.tookAnswer).cmdIn = s.cmdIn := by unfold State.tookAnswer; split <;> rfl
@[simp] theorem State.tookAnswer_resetReq : (s.tookAnswer).resetReq = s.resetReq := by unfold State.tookAnswer; split <;> rfl
@[simp] theorem State.tookAnswer_trace : (s.tookAnswer).trace = s.trace := by unfold State.tookAnswer; split <;> rfl
@[simp] theorem State.tookAnswer_done : (s.tookAnswer).done = s.done := by unfold State.tookAnswer; split <;> rfl
@[simp] theorem State.tookAnswer_sink : (s.tookAnswer).sink = s.sink := by unfold State.tookAnswer; split <;> rfl

/-! ## A sink operation -/

/-- A sink operation, whole: the item it adds, the answer it takes, and what the sink does where the answer is `ok`. -/
theorem State.sinkOp_cases (op : SinkOp) :
    (s.answersOk = true ∧ s.sinkOp op = (s.tookAnswer.record (.sink op)).applySink op) ∨
    (s.answersOk = false ∧ s.sinkOp op = s.tookAnswer.record (.sink op)) := by
  unfold State.sinkOp
  by_cases h : s.answersOk <;> simp [h]

@[simp] theorem State.sinkOp_trace (op : SinkOp) : (s.sinkOp op).trace = s.trace ++ [.sink op] := by
  rcases s.sinkOp_cases op with ⟨-, h⟩ | ⟨-, h⟩ <;> simp [h]
@[simp] theorem State.sinkOp_key (op : SinkOp) : (s.sinkOp op).key = s.key := by
  rcases s.sinkOp_cases op with ⟨-, h⟩ | ⟨-, h⟩ <;> simp [h]
@[simp] theorem State.sinkOp_keyValid (op : SinkOp) : (s.sinkOp op).keyValid = s.keyValid := by
  rcases s.sinkOp_cases op with ⟨-, h⟩ | ⟨-, h⟩ <;> simp [h]
@[simp] theorem State.sinkOp_ks (op : SinkOp) : (s.sinkOp op).ks = s.ks := by
  rcases s.sinkOp_cases op with ⟨-, h⟩ | ⟨-, h⟩ <;> simp [h]
@[simp] theorem State.sinkOp_sbox (op : SinkOp) : (s.sinkOp op).sbox = s.sbox := by
  rcases s.sinkOp_cases op with ⟨-, h⟩ | ⟨-, h⟩ <;> simp [h]
@[simp] theorem State.sinkOp_dp (op : SinkOp) : (s.sinkOp op).dp = s.dp := by
  rcases s.sinkOp_cases op with ⟨-, h⟩ | ⟨-, h⟩ <;> simp [h]
@[simp] theorem State.sinkOp_phase (op : SinkOp) : (s.sinkOp op).phase = s.phase := by
  rcases s.sinkOp_cases op with ⟨-, h⟩ | ⟨-, h⟩ <;> simp [h]
@[simp] theorem State.sinkOp_buf (op : SinkOp) : (s.sinkOp op).buf = s.buf := by
  rcases s.sinkOp_cases op with ⟨-, h⟩ | ⟨-, h⟩ <;> simp [h]
@[simp] theorem State.sinkOp_fname (op : SinkOp) : (s.sinkOp op).fname = s.fname := by
  rcases s.sinkOp_cases op with ⟨-, h⟩ | ⟨-, h⟩ <;> simp [h]
@[simp] theorem State.sinkOp_origSize (op : SinkOp) : (s.sinkOp op).origSize = s.origSize := by
  rcases s.sinkOp_cases op with ⟨-, h⟩ | ⟨-, h⟩ <;> simp [h]
@[simp] theorem State.sinkOp_padSize (op : SinkOp) : (s.sinkOp op).padSize = s.padSize := by
  rcases s.sinkOp_cases op with ⟨-, h⟩ | ⟨-, h⟩ <;> simp [h]
@[simp] theorem State.sinkOp_remain (op : SinkOp) : (s.sinkOp op).remain = s.remain := by
  rcases s.sinkOp_cases op with ⟨-, h⟩ | ⟨-, h⟩ <;> simp [h]
@[simp] theorem State.sinkOp_sinkHeld (op : SinkOp) : (s.sinkOp op).sinkHeld = s.sinkHeld := by
  rcases s.sinkOp_cases op with ⟨-, h⟩ | ⟨-, h⟩ <;> simp [h]
@[simp] theorem State.sinkOp_sinkFailed (op : SinkOp) : (s.sinkOp op).sinkFailed = s.sinkFailed := by
  rcases s.sinkOp_cases op with ⟨-, h⟩ | ⟨-, h⟩ <;> simp [h]
@[simp] theorem State.sinkOp_sticky (op : SinkOp) : (s.sinkOp op).sticky = s.sticky := by
  rcases s.sinkOp_cases op with ⟨-, h⟩ | ⟨-, h⟩ <;> simp [h]
@[simp] theorem State.sinkOp_lineMax (op : SinkOp) : (s.sinkOp op).lineMax = s.lineMax := by
  rcases s.sinkOp_cases op with ⟨-, h⟩ | ⟨-, h⟩ <;> simp [h]
@[simp] theorem State.sinkOp_cmdIn (op : SinkOp) : (s.sinkOp op).cmdIn = s.cmdIn := by
  rcases s.sinkOp_cases op with ⟨-, h⟩ | ⟨-, h⟩ <;> simp [h]
@[simp] theorem State.sinkOp_resetReq (op : SinkOp) : (s.sinkOp op).resetReq = s.resetReq := by
  rcases s.sinkOp_cases op with ⟨-, h⟩ | ⟨-, h⟩ <;> simp [h]
@[simp] theorem State.sinkOp_done (op : SinkOp) : (s.sinkOp op).done = s.done := by
  rcases s.sinkOp_cases op with ⟨-, h⟩ | ⟨-, h⟩ <;> simp [h]

/-- An operation answered `fail` leaves the sink as it was (20_memory.md R80). -/
theorem State.sinkOp_sink_of_fail (op : SinkOp) (h : s.answersOk = false) : (s.sinkOp op).sink = s.sink := by
  rcases s.sinkOp_cases op with ⟨h', -⟩ | ⟨-, e⟩
  · simp [h] at h'
  · simp [e]

/-- An operation answered `ok` is carried out by the sink (20_memory.md R80). -/
theorem State.sinkOp_sink_of_ok (op : SinkOp) (h : s.answersOk = true) :
    (s.sinkOp op).sink = s.sink.apply s.tookAnswer.draws op := by
  rcases s.sinkOp_cases op with ⟨-, e⟩ | ⟨h', -⟩
  · simp [e]
  · simp [h] at h'

/-- With an answer scripted, that answer decides, and it is used up (30_encoding.md R98). -/
theorem State.answersOk_of_cons (a : Byte) (rest : Bytes) (h : s.answers = a :: rest) : s.answersOk = (a == 0x00#8) := by
  simp [State.answersOk, State.nextAnswer, h]

theorem State.sinkOp_answers_of_cons (op : SinkOp) (a : Byte) (rest : Bytes) (h : s.answers = a :: rest) :
    (s.sinkOp op).answers = rest := by
  rcases s.sinkOp_cases op with ⟨-, e⟩ | ⟨-, e⟩ <;> simp [e, State.tookAnswer, h]

/-- With an answer scripted, no free value is drawn for it. -/
theorem State.tookAnswer_draws_of_cons (a : Byte) (rest : Bytes) (h : s.answers = a :: rest) :
    s.tookAnswer.draws = s.draws := by
  simp [State.tookAnswer, h]

/-! ## The abort paths -/

@[simp] theorem State.abandonFile_trace (c : Bool) :
    (s.abandonFile c).trace = s.trace ++ (if c then [.sink .sclose] else []) ++ [.sink .sdelete] := by
  cases c <;> simp [State.abandonFile]
@[simp] theorem State.abandonFile_key (c : Bool) : (s.abandonFile c).key = s.key := by
  cases c <;> simp [State.abandonFile]
@[simp] theorem State.abandonFile_keyValid (c : Bool) : (s.abandonFile c).keyValid = s.keyValid := by
  cases c <;> simp [State.abandonFile]
@[simp] theorem State.abandonFile_ks (c : Bool) : (s.abandonFile c).ks = s.ks := by
  cases c <;> simp [State.abandonFile]
@[simp] theorem State.abandonFile_sbox (c : Bool) : (s.abandonFile c).sbox = s.sbox := by
  cases c <;> simp [State.abandonFile]
@[simp] theorem State.abandonFile_dp (c : Bool) : (s.abandonFile c).dp = s.dp := by
  cases c <;> simp [State.abandonFile]
@[simp] theorem State.abandonFile_phase (c : Bool) : (s.abandonFile c).phase = s.phase := by
  cases c <;> simp [State.abandonFile]
@[simp] theorem State.abandonFile_buf (c : Bool) : (s.abandonFile c).buf = s.buf := by
  cases c <;> simp [State.abandonFile]
@[simp] theorem State.abandonFile_fname (c : Bool) : (s.abandonFile c).fname = s.fname := by
  cases c <;> simp [State.abandonFile]
@[simp] theorem State.abandonFile_origSize (c : Bool) : (s.abandonFile c).origSize = s.origSize := by
  cases c <;> simp [State.abandonFile]
@[simp] theorem State.abandonFile_padSize (c : Bool) : (s.abandonFile c).padSize = s.padSize := by
  cases c <;> simp [State.abandonFile]
@[simp] theorem State.abandonFile_remain (c : Bool) : (s.abandonFile c).remain = s.remain := by
  cases c <;> simp [State.abandonFile]
@[simp] theorem State.abandonFile_sinkHeld (c : Bool) : (s.abandonFile c).sinkHeld = s.sinkHeld := by
  cases c <;> simp [State.abandonFile]
@[simp] theorem State.abandonFile_sinkFailed (c : Bool) : (s.abandonFile c).sinkFailed = s.sinkFailed := by
  cases c <;> simp [State.abandonFile]
@[simp] theorem State.abandonFile_sticky (c : Bool) : (s.abandonFile c).sticky = s.sticky := by
  cases c <;> simp [State.abandonFile]
@[simp] theorem State.abandonFile_lineMax (c : Bool) : (s.abandonFile c).lineMax = s.lineMax := by
  cases c <;> simp [State.abandonFile]
@[simp] theorem State.abandonFile_cmdIn (c : Bool) : (s.abandonFile c).cmdIn = s.cmdIn := by
  cases c <;> simp [State.abandonFile]
@[simp] theorem State.abandonFile_resetReq (c : Bool) : (s.abandonFile c).resetReq = s.resetReq := by
  cases c <;> simp [State.abandonFile]
@[simp] theorem State.abandonFile_done (c : Bool) : (s.abandonFile c).done = s.done := by
  cases c <;> simp [State.abandonFile]

/-- The trace items of an I/O abort (43_transfer_session.md R200, R202). -/
def abortItems (op : SinkKind) (held : Bool) : List TraceItem :=
  .event (.ioError op) ::
    if held then (if op = .sclose then [.sink .sdelete] else [.sink .sclose, .sink .sdelete]) else []

@[simp] theorem State.ioAbort_trace (op : SinkKind) : (s.ioAbort op).trace = s.trace ++ abortItems op s.sinkHeld := by
  unfold State.ioAbort abortItems
  cases h : s.sinkHeld <;> cases op <;> simp
@[simp] theorem State.ioAbort_sinkHeld (op : SinkKind) : (s.ioAbort op).sinkHeld = false := by simp [State.ioAbort]
@[simp] theorem State.ioAbort_sinkFailed (op : SinkKind) : (s.ioAbort op).sinkFailed = true := by simp [State.ioAbort]
@[simp] theorem State.ioAbort_sticky (op : SinkKind) : (s.ioAbort op).sticky = setSticky s.sticky ioBit := by
  unfold State.ioAbort
  cases h : s.sinkHeld <;> simp
@[simp] theorem State.ioAbort_key (op : SinkKind) : (s.ioAbort op).key = s.key := by
  unfold State.ioAbort
  cases h : s.sinkHeld <;> simp
@[simp] theorem State.ioAbort_keyValid (op : SinkKind) : (s.ioAbort op).keyValid = s.keyValid := by
  unfold State.ioAbort
  cases h : s.sinkHeld <;> simp
@[simp] theorem State.ioAbort_ks (op : SinkKind) : (s.ioAbort op).ks = s.ks := by
  unfold State.ioAbort
  cases h : s.sinkHeld <;> simp
@[simp] theorem State.ioAbort_sbox (op : SinkKind) : (s.ioAbort op).sbox = s.sbox := by
  unfold State.ioAbort
  cases h : s.sinkHeld <;> simp
@[simp] theorem State.ioAbort_dp (op : SinkKind) : (s.ioAbort op).dp = s.dp := by
  unfold State.ioAbort
  cases h : s.sinkHeld <;> simp
@[simp] theorem State.ioAbort_phase (op : SinkKind) : (s.ioAbort op).phase = s.phase := by
  unfold State.ioAbort
  cases h : s.sinkHeld <;> simp
@[simp] theorem State.ioAbort_buf (op : SinkKind) : (s.ioAbort op).buf = s.buf := by
  unfold State.ioAbort
  cases h : s.sinkHeld <;> simp
@[simp] theorem State.ioAbort_fname (op : SinkKind) : (s.ioAbort op).fname = s.fname := by
  unfold State.ioAbort
  cases h : s.sinkHeld <;> simp
@[simp] theorem State.ioAbort_origSize (op : SinkKind) : (s.ioAbort op).origSize = s.origSize := by
  unfold State.ioAbort
  cases h : s.sinkHeld <;> simp
@[simp] theorem State.ioAbort_padSize (op : SinkKind) : (s.ioAbort op).padSize = s.padSize := by
  unfold State.ioAbort
  cases h : s.sinkHeld <;> simp
@[simp] theorem State.ioAbort_remain (op : SinkKind) : (s.ioAbort op).remain = s.remain := by
  unfold State.ioAbort
  cases h : s.sinkHeld <;> simp
@[simp] theorem State.ioAbort_lineMax (op : SinkKind) : (s.ioAbort op).lineMax = s.lineMax := by
  unfold State.ioAbort
  cases h : s.sinkHeld <;> simp
@[simp] theorem State.ioAbort_cmdIn (op : SinkKind) : (s.ioAbort op).cmdIn = s.cmdIn := by
  unfold State.ioAbort
  cases h : s.sinkHeld <;> simp
@[simp] theorem State.ioAbort_resetReq (op : SinkKind) : (s.ioAbort op).resetReq = s.resetReq := by
  unfold State.ioAbort
  cases h : s.sinkHeld <;> simp
@[simp] theorem State.ioAbort_done (op : SinkKind) : (s.ioAbort op).done = s.done := by
  unfold State.ioAbort
  cases h : s.sinkHeld <;> simp

/-! ## The abort paths, whole -/

/-- The state with another trace and other sticky bits, which no sink operation reads. -/
def State.noted (trace : List TraceItem) (sticky : Byte) (s : State) : State :=
  { s with trace := trace, sticky := sticky }

/-- A sink operation does the same whatever was noted before, and adds its item. -/
theorem State.sinkOp_noted (op : SinkOp) (trace : List TraceItem) (sticky : Byte) :
    (s.noted trace sticky).sinkOp op = (s.sinkOp op).noted (trace ++ [.sink op]) sticky := by
  cases ha : s.answers <;> cases ho : s.answersOk <;>
    simp_all [State.noted, State.sinkOp, State.answersOk, State.nextAnswer, State.tookAnswer, State.record, State.applySink]

theorem State.abandonFile_noted (c : Bool) (trace : List TraceItem) (sticky : Byte) :
    (s.noted trace sticky).abandonFile c =
      (s.abandonFile c).noted (trace ++ (if c then [.sink .sclose] else []) ++ [.sink .sdelete]) sticky := by
  cases c <;> simp [State.abandonFile, State.sinkOp_noted]

/-- A cleanup, whole: the operations it issues, and what the sink does with them. -/
theorem State.abandonFile_eq (c : Bool) :
    s.abandonFile c = { s with
      trace := s.trace ++ (if c then [.sink .sclose] else []) ++ [.sink .sdelete]
      sink := (s.abandonFile c).sink, answers := (s.abandonFile c).answers, draws := (s.abandonFile c).draws } := by
  rw [State.mk.injEq]; simp

/-- An I/O abort, whole (43_transfer_session.md R200): what it notes, and, for a held sink, what the cleanup leaves. -/
theorem State.ioAbort_eq (op : SinkKind) :
    let cleaned := if s.sinkHeld then s.abandonFile (op != .sclose) else s
    s.ioAbort op = { s with
      trace := s.trace ++ abortItems op s.sinkHeld, sticky := setSticky s.sticky ioBit, sinkHeld := false, sinkFailed := true
      sink := cleaned.sink, answers := cleaned.answers, draws := cleaned.draws } := by
  have e : { s.emit (.ioError op) with sticky := setSticky s.sticky ioBit } =
    s.noted (s.trace ++ [.event (.ioError op)]) (setSticky s.sticky ioBit) := rfl
  simp only [State.ioAbort, e, State.abandonFile_noted]
  rw [State.mk.injEq]
  cases h : s.sinkHeld <;> cases op <;> simp [State.noted, abortItems]
end Sys2Proof.Machine
end

