-- ==== Sys2Proof/Laws/Sink.lean ====
section
/-! SUPPORT. The reference sink: the order of names, reading a file after FS is changed, and that every operation keeps FS
in its canonical form. -/

namespace Sys2Proof.Machine

/-! ## The order of names -/

theorem nameLt_irrefl : ∀ a : Bytes, nameLt a a = false
  | [] => rfl
  | a :: as => by simp [nameLt, nameLt_irrefl as]

theorem nameLt_trans : ∀ a b c : Bytes, nameLt a b = true → nameLt b c = true → nameLt a c = true
  | _, [], _, h, _ => by cases ‹Bytes› <;> simp [nameLt] at h
  | _, _ :: _, [], _, h => by simp [nameLt] at h
  | [], _ :: _, _ :: _, _, _ => by simp [nameLt]
  | a :: as, b :: bs, c :: cs, h1, h2 => by
    simp only [nameLt] at h1 h2 ⊢
    have ih := nameLt_trans as bs cs
    by_cases hab : a = b
    · subst hab
      by_cases hac : a = c
      · subst hac; simp_all
      · simp_all
    · by_cases hbc : b = c
      · subst hbc; simp_all
      · simp only [hab, hbc, if_false, decide_eq_true_eq] at h1 h2
        have hac : a ≠ c := by rintro rfl; omega
        simp only [hac, if_false, decide_eq_true_eq]; omega

/-- Two different names are in order one way or the other. -/
theorem nameLt_total : ∀ a b : Bytes, a ≠ b → nameLt a b = false → nameLt b a = true
  | [], [], h, _ => absurd rfl h
  | [], _ :: _, _, h => by simp [nameLt] at h
  | _ :: _, [], _, _ => by simp [nameLt]
  | a :: as, b :: bs, h, h2 => by
    simp only [nameLt] at h2 ⊢
    by_cases hab : a = b
    · subst hab
      simp only [if_true] at h2 ⊢
      exact nameLt_total as bs (fun e => h (by rw [e])) h2
    · have hne : a.toNat ≠ b.toNat := fun e => hab (BitVec.eq_of_toNat_eq e)
      simp only [hab, if_false, decide_eq_false_iff_not] at h2
      simp only [Ne.symm hab, if_false, decide_eq_true_eq]; omega

/-! ## Reading a file after a change -/

@[simp] theorem lookupFile_putFile_self (fs : List FileEntry) (n d : Bytes) :
    lookupFile (putFile fs n d) n = some d := by
  induction fs with
  | nil => simp [putFile, lookupFile]
  | cons e rest ih =>
    obtain ⟨m, c⟩ := e
    unfold putFile
    split
    · simp [lookupFile]
    · split
      · simp [lookupFile]
      · rename_i h _; simp [lookupFile, h, ih]

theorem lookupFile_putFile_of_ne (fs : List FileEntry) (n d m : Bytes) (h : m ≠ n) :
    lookupFile (putFile fs n d) m = lookupFile fs m := by
  induction fs with
  | nil => simp [putFile, lookupFile, h.symm]
  | cons e rest ih =>
    obtain ⟨k, c⟩ := e
    unfold putFile
    split
    · rename_i hk; subst hk; simp [lookupFile, h.symm]
    · split
      · simp [lookupFile, h.symm]
      · simp [lookupFile, ih]

@[simp] theorem lookupFile_dropFile_self (fs : List FileEntry) (n : Bytes) : lookupFile (dropFile fs n) n = none := by
  induction fs with
  | nil => rfl
  | cons e rest ih =>
    obtain ⟨k, c⟩ := e
    by_cases hk : k = n
    · subst hk; simpa [dropFile] using ih
    · have : dropFile ((k, c) :: rest) n = (k, c) :: dropFile rest n := by simp [dropFile, hk]
      simp [this, lookupFile, hk, ih]

theorem lookupFile_dropFile_of_ne (fs : List FileEntry) (n m : Bytes) (h : m ≠ n) :
    lookupFile (dropFile fs n) m = lookupFile fs m := by
  induction fs with
  | nil => rfl
  | cons e rest ih =>
    obtain ⟨k, c⟩ := e
    by_cases hk : k = n
    · subst hk
      have : dropFile ((k, c) :: rest) k = dropFile rest k := by simp [dropFile]
      simp [this, lookupFile, h.symm, ih]
    · have : dropFile ((k, c) :: rest) n = (k, c) :: dropFile rest n := by simp [dropFile, hk]
      simp [this, lookupFile, ih]

/-! ## Changing the current file -/

/-- Whatever the sink gives, one file is dropped or put. -/
theorem RefSink.anyContents_cases (k : RefSink) (n : Bytes) (draw : Nat) :
    k.anyContents n draw = { k with fs := dropFile k.fs n } ∨
    ∃ d, k.anyContents n draw = { k with fs := putFile k.fs n d } := by
  unfold RefSink.anyContents
  split
  · exact .inl rfl
  · exact .inr ⟨_, rfl⟩

/-- What changing the current file does: nothing where there is no handle, one file put anew where its contents are the
engine's own, and a free value elsewhere. -/
theorem RefSink.updateCur_cases (k : RefSink) (draw : Nat) (f : Bytes → Bytes) :
    (k.cur = none ∧ k.updateCur draw f = k) ∨
    (∃ n, k.cur = some n ∧ k.ownData = none ∧ k.updateCur draw f = k.anyContents n draw) ∨
    ∃ n d, k.cur = some n ∧ k.ownData = some d ∧ k.updateCur draw f = { k with fs := putFile k.fs n (f d) } := by
  unfold RefSink.updateCur
  cases hc : k.cur with
  | none => exact .inl ⟨rfl, rfl⟩
  | some n =>
    cases hl : k.ownData with
    | none => exact .inr (.inl ⟨n, rfl, rfl, rfl⟩)
    | some d => exact .inr (.inr ⟨n, d, rfl, rfl, rfl⟩)

/-- The engine's own data: the current file's contents, while no other writer has touched it. -/
theorem RefSink.ownData_eq (k : RefSink) (n : Bytes) (hc : k.cur = some n) (hd : k.disturbed = false) :
    k.ownData = lookupFile k.fs n := by
  simp [RefSink.ownData, hc, hd]

/-- An undisturbed file is changed as the operation says (20_memory.md R80). -/
theorem RefSink.updateCur_own (k : RefSink) (draw : Nat) (f : Bytes → Bytes) (n d : Bytes) (hc : k.cur = some n)
    (hd : k.disturbed = false) (hl : lookupFile k.fs n = some d) :
    k.updateCur draw f = { k with fs := putFile k.fs n (f d) } := by
  simp [RefSink.updateCur, k.ownData_eq n hc hd, hc, hl]

@[simp] theorem RefSink.anyContents_cur (k : RefSink) (n : Bytes) (draw : Nat) : (k.anyContents n draw).cur = k.cur := by
  rcases k.anyContents_cases n draw with e | ⟨d, e⟩ <;> rw [e]

@[simp] theorem RefSink.anyContents_disturbed (k : RefSink) (n : Bytes) (draw : Nat) :
    (k.anyContents n draw).disturbed = k.disturbed := by
  rcases k.anyContents_cases n draw with e | ⟨d, e⟩ <;> rw [e]

theorem RefSink.anyContents_other (k : RefSink) (n m : Bytes) (draw : Nat) (h : m ≠ n) :
    lookupFile (k.anyContents n draw).fs m = lookupFile k.fs m := by
  rcases k.anyContents_cases n draw with e | ⟨d, e⟩ <;> rw [e]
  · exact lookupFile_dropFile_of_ne _ _ _ h
  · exact lookupFile_putFile_of_ne _ _ _ _ h

@[simp] theorem RefSink.updateCur_cur (k : RefSink) (draw : Nat) (f : Bytes → Bytes) : (k.updateCur draw f).cur = k.cur := by
  rcases k.updateCur_cases draw f with ⟨-, e⟩ | ⟨n, -, -, e⟩ | ⟨n, d, -, -, e⟩ <;> simp [e]

@[simp] theorem RefSink.updateCur_disturbed (k : RefSink) (draw : Nat) (f : Bytes → Bytes) :
    (k.updateCur draw f).disturbed = k.disturbed := by
  rcases k.updateCur_cases draw f with ⟨-, e⟩ | ⟨n, -, -, e⟩ | ⟨n, d, -, -, e⟩ <;> simp [e]

/-! ## The cleanup of a held file -/

variable (s : State)

/-- SCLOSE leaves the sink as it was, whatever its answer (20_memory.md R80). -/
@[simp] theorem State.sinkOp_sclose_sink : (s.sinkOp .sclose).sink = s.sink := by
  rcases s.sinkOp_cases .sclose with ⟨-, e⟩ | ⟨-, e⟩ <;> simp [e, RefSink.apply]

/-- SDELETE's answer decides what is left of the current file (20_memory.md R80). -/
theorem State.sinkOp_sdelete_sink :
    (s.sinkOp .sdelete).sink = if s.answersOk then s.sink.apply 0 .sdelete else s.sink := by
  cases h : s.answersOk
  · simp [s.sinkOp_sink_of_fail _ h]
  · simp [s.sinkOp_sink_of_ok _ h, RefSink.apply]

/-- The sink after a cleanup: SDELETE is all that can change it, and its own answer decides. -/
theorem State.abandonFile_sink (c : Bool) :
    (s.abandonFile c).sink =
      if (if c then s.sinkOp .sclose else s).answersOk then s.sink.apply 0 .sdelete else s.sink := by
  cases c <;> simp [State.abandonFile, State.sinkOp_sdelete_sink]

/-- A cleanup takes one answer for each operation it issues. -/
theorem State.abandonFile_answers_of_cons (c : Bool) (a b : Byte) (rest : Bytes)
    (h : s.answers = (if c then [a, b] else [b]) ++ rest) : (s.abandonFile c).answers = rest := by
  cases c
  · exact s.sinkOp_answers_of_cons _ b rest h
  · exact State.sinkOp_answers_of_cons _ _ b rest (s.sinkOp_answers_of_cons _ a (b :: rest) h)

/-- With the answers scripted, SDELETE's byte `b` decides what a cleanup leaves; SCLOSE's byte is ignored. -/
theorem State.abandonFile_sink_of_cons (c : Bool) (a b : Byte) (rest : Bytes)
    (h : s.answers = (if c then [a, b] else [b]) ++ rest) :
    (s.abandonFile c).sink = if b = 0x00#8 then s.sink.apply 0 .sdelete else s.sink := by
  rw [s.abandonFile_sink]
  cases c
  · simp [s.answersOk_of_cons b rest h]
  · simp [State.answersOk_of_cons _ b rest (s.sinkOp_answers_of_cons .sclose a (b :: rest) h)]

/-- SDELETE removes the file CUR names, and no other (20_memory.md R80). -/
theorem RefSink.apply_sdelete_current (k : RefSink) (draw : Nat) (name : Bytes) (h : k.cur = some name) :
    lookupFile (k.apply draw .sdelete).fs name = none := by
  simp [RefSink.apply, h]

theorem RefSink.apply_sdelete_other (k : RefSink) (draw : Nat) (other : Bytes) (h : k.cur ≠ some other) :
    lookupFile (k.apply draw .sdelete).fs other = lookupFile k.fs other := by
  cases hc : k.cur with
  | none => simp [RefSink.apply, hc]
  | some n =>
    have : other ≠ n := by rintro rfl; exact h hc
    simp [RefSink.apply, hc, lookupFile_dropFile_of_ne _ _ _ this]

/-- A cleanup touches no file but the one CUR names. -/
theorem State.abandonFile_other (c : Bool) (other : Bytes) (h : s.sink.cur ≠ some other) :
    lookupFile (s.abandonFile c).sink.fs other = lookupFile s.sink.fs other := by
  rw [s.abandonFile_sink]
  cases (if c then s.sinkOp .sclose else s).answersOk
  · rfl
  · exact s.sink.apply_sdelete_other 0 other h

theorem State.ioAbort_other (op : SinkKind) (other : Bytes) (h : s.sink.cur ≠ some other) :
    lookupFile (s.ioAbort op).sink.fs other = lookupFile s.sink.fs other := by
  rw [s.ioAbort_eq]
  cases s.sinkHeld
  · rfl
  · exact s.abandonFile_other _ _ h

/-- An operation touches no file but the one CUR names and the one it opens, and CUR comes to name no other (20_memory.md
R80). -/
theorem RefSink.apply_other (k : RefSink) (draw : Nat) (op : SinkOp) (other : Bytes) (h : k.cur ≠ some other)
    (ho : op ≠ .sopen other) :
    lookupFile (k.apply draw op).fs other = lookupFile k.fs other ∧ (k.apply draw op).cur ≠ some other := by
  have update (f : Bytes → Bytes) :
      lookupFile (k.updateCur draw f).fs other = lookupFile k.fs other ∧ (k.updateCur draw f).cur ≠ some other := by
    refine ⟨?_, by rwa [RefSink.updateCur_cur]⟩
    rcases k.updateCur_cases draw f with ⟨-, e⟩ | ⟨n, hn, -, e⟩ | ⟨n, d, hn, -, e⟩ <;> rw [e]
    · exact k.anyContents_other _ _ _ fun e => h (by rw [hn, e])
    · exact lookupFile_putFile_of_ne _ _ _ _ fun e => h (by rw [hn, e])
  cases op with
  | sopen n =>
    have hn : other ≠ n := fun e => ho (by rw [e])
    exact ⟨lookupFile_putFile_of_ne _ _ _ _ hn, by simpa [RefSink.apply] using Ne.symm hn⟩
  | swrite d => exact update _
  | strunc n => exact update _
  | sclose => exact ⟨rfl, h⟩
  | sdelete => exact ⟨k.apply_sdelete_other draw other h, by cases hc : k.cur <;> simp_all [RefSink.apply]⟩

theorem State.sinkOp_other (op : SinkOp) (other : Bytes) (h : s.sink.cur ≠ some other) (ho : op ≠ .sopen other) :
    lookupFile (s.sinkOp op).sink.fs other = lookupFile s.sink.fs other ∧ (s.sinkOp op).sink.cur ≠ some other := by
  cases ha : s.answersOk
  · rw [s.sinkOp_sink_of_fail op ha]; exact ⟨rfl, h⟩
  · rw [s.sinkOp_sink_of_ok op ha]; exact s.sink.apply_other _ op other h ho

/-! ## The canonical form is kept -/

theorem putFile_all (p : Bytes → Bool) (fs : List FileEntry) (n d : Bytes) (h : fs.all (fun f => p f.1) = true)
    (hn : p n = true) : (putFile fs n d).all (fun f => p f.1) = true := by
  induction fs with
  | nil => simp [putFile, hn]
  | cons e rest ih =>
    obtain ⟨k, c⟩ := e
    simp only [List.all_cons, Bool.and_eq_true] at h
    unfold putFile
    split
    · simp [hn, h.2]
    · split <;> simp [hn, h.1, h.2, ih h.2]

theorem putFile_wf (fs : List FileEntry) (n d : Bytes) (h : filesWf fs = true) : filesWf (putFile fs n d) = true := by
  induction fs with
  | nil => simp [putFile, filesWf]
  | cons e rest ih =>
    obtain ⟨k, c⟩ := e
    simp only [filesWf, Bool.and_eq_true] at h
    unfold putFile
    split
    · rename_i hk
      rw [← hk]
      simp only [filesWf, h.1, h.2, Bool.and_self]
    · rename_i hk
      split
      · rename_i hlt
        simp only [filesWf, List.all_cons, h.1, h.2, hlt, Bool.and_true, Bool.true_and]
        rw [List.all_eq_true] at h ⊢
        exact fun f hf => nameLt_trans _ _ _ hlt (h.1 f hf)
      · rename_i hlt
        simp only [filesWf, Bool.and_eq_true]
        exact ⟨putFile_all (nameLt k) rest n d h.1 (nameLt_total _ _ (Ne.symm hk) (by simpa using hlt)), ih h.2⟩

theorem dropFile_wf (fs : List FileEntry) (n : Bytes) (h : filesWf fs = true) : filesWf (dropFile fs n) = true := by
  induction fs with
  | nil => rfl
  | cons e rest ih =>
    obtain ⟨k, c⟩ := e
    simp only [filesWf, Bool.and_eq_true] at h
    by_cases hk : k = n
    · subst hk; simpa [dropFile] using ih h.2
    · have : dropFile ((k, c) :: rest) n = (k, c) :: dropFile rest n := by simp [dropFile, hk]
      rw [this, filesWf, ih h.2, Bool.and_true]
      rw [List.all_eq_true] at h ⊢
      exact fun f hf => h.1 f (List.mem_of_mem_filter hf)

theorem RefSink.anyContents_wf (k : RefSink) (n : Bytes) (draw : Nat) (h : filesWf k.fs = true) :
    filesWf (k.anyContents n draw).fs = true := by
  rcases k.anyContents_cases n draw with e | ⟨d, e⟩ <;> rw [e]
  · exact dropFile_wf _ _ h
  · exact putFile_wf _ _ _ h

theorem RefSink.updateCur_wf (k : RefSink) (draw : Nat) (f : Bytes → Bytes) (h : filesWf k.fs = true) :
    filesWf (k.updateCur draw f).fs = true := by
  rcases k.updateCur_cases draw f with ⟨-, e⟩ | ⟨n, -, -, e⟩ | ⟨n, d, -, -, e⟩ <;> rw [e]
  · exact h
  · exact k.anyContents_wf n draw h
  · exact putFile_wf _ _ _ h

/-- Every sink operation keeps FS in its canonical form. -/
theorem RefSink.apply_wf (k : RefSink) (draw : Nat) (op : SinkOp) (h : filesWf k.fs = true) :
    filesWf (k.apply draw op).fs = true := by
  cases op with
  | sopen n => exact putFile_wf _ _ _ h
  | swrite d => exact k.updateCur_wf _ _ h
  | strunc n => exact k.updateCur_wf _ _ h
  | sclose => exact h
  | sdelete =>
    simp only [RefSink.apply]
    split
    · exact h
    · exact dropFile_wf _ _ h

theorem State.sinkOp_wf (s : State) (op : SinkOp) (h : filesWf s.sink.fs = true) :
    filesWf (s.sinkOp op).sink.fs = true := by
  rcases s.sinkOp_cases op with ⟨-, e⟩ | ⟨-, e⟩ <;> rw [e]
  · simpa using s.sink.apply_wf _ op h
  · simpa using h

theorem State.abandonFile_wf (s : State) (c : Bool) (h : filesWf s.sink.fs = true) :
    filesWf (s.abandonFile c).sink.fs = true := by
  cases c
  · exact s.sinkOp_wf .sdelete h
  · exact (s.sinkOp .sclose).sinkOp_wf .sdelete (s.sinkOp_wf .sclose h)

theorem State.ioAbort_wf (s : State) (op : SinkKind) (h : filesWf s.sink.fs = true) :
    filesWf (s.ioAbort op).sink.fs = true := by
  unfold State.ioAbort
  cases s.sinkHeld
  · simpa using h
  · exact State.abandonFile_wf _ _ (by simpa using h)

theorem reset_files_wf : filesWf State.reset.sink.fs = true := rfl

end Sys2Proof.Machine
end

