-- ==== Sys2Proof/Laws/Session.lean ====
section
/-! SUPPORT. What a pass of the receive loop can do, that the loop's fuel is always enough, and what the loop leaves alone
(43_transfer_session.md R191). -/

namespace Sys2Proof.Machine

variable (s t : State)

/-! ## The state a pass leaves, whichever way it ends -/

/-- The state of a pass. -/
def Pass.state : Pass → State
  | .stop t => t
  | .again t => t

/-! ## Finding a line -/

theorem takeLine_some (b line rest : Bytes) (h : takeLine b = some (line, rest)) :
    b = line ++ lineEnd :: rest ∧ lineEnd ∉ line := by
  induction b generalizing line with
  | nil => simp [takeLine] at h
  | cons c b ih =>
    unfold takeLine at h
    split at h
    · rename_i hc
      simp only [Option.some.injEq, Prod.mk.injEq] at h
      obtain ⟨rfl, rfl⟩ := h
      simp [hc]
    · rename_i hc
      simp only [Option.map_eq_some_iff, Prod.mk.injEq] at h
      obtain ⟨⟨l, r⟩, h1, rfl, rfl⟩ := h
      obtain ⟨rfl, h2⟩ := ih l h1
      simp [h2, Ne.symm hc]

theorem takeLine_none_iff (b : Bytes) : takeLine b = none ↔ lineEnd ∉ b := by
  induction b with
  | nil => simp [takeLine]
  | cons c b ih =>
    unfold takeLine
    split
    · rename_i hc; simp [hc]
    · rename_i hc; simp [ih, Ne.symm hc]

theorem takeLine_append (line rest : Bytes) (h : lineEnd ∉ line) :
    takeLine (line ++ lineEnd :: rest) = some (line, rest) := by
  induction line with
  | nil => simp [takeLine]
  | cons c line ih =>
    simp only [List.mem_cons, not_or] at h
    simp [takeLine, Ne.symm h.1, ih h.2]

/-! ## What a pass can do -/

/-- A pass in AWAITING_HEADER, whole. -/
theorem State.headerStep_cases :
    (lineEnd ∉ s.buf ∧ tooLong s.lineMax s.buf.length = true ∧ s.headerStep = .stop (s.protocolError .lineTooLong)) ∨
    (lineEnd ∉ s.buf ∧ tooLong s.lineMax s.buf.length = false ∧ s.headerStep = .stop s) ∨
    ∃ line rest, s.buf = line ++ lineEnd :: rest ∧ lineEnd ∉ line ∧
      s.headerStep = (s.setBuf rest).headerLine line := by
  unfold State.headerStep
  cases h : takeLine s.buf with
  | none =>
    have hn := (takeLine_none_iff _).1 h
    cases tooLong s.lineMax s.buf.length
    · exact .inr (.inl ⟨hn, rfl, by simp⟩)
    · exact .inl ⟨hn, rfl, by simp⟩
  | some p =>
    obtain ⟨hb, hl⟩ := takeLine_some _ _ _ h
    exact .inr (.inr ⟨p.1, p.2, hb, hl, rfl⟩)

/-- What a header line does, whole. -/
theorem State.headerLine_cases (line : Bytes) :
    (∃ reason, s.headerLine line = .stop (s.protocolError reason)) ∨
    (∃ body, parseHeader line = .text body ∧ s.headerLine line = .again (s.textFrame body)) ∨
    (∃ name o p, parseHeader line = .file name o p ∧ s.headerLine line = .again (s.fileFrame name o p)) := by
  unfold State.headerLine
  cases tooLong s.lineMax line.length
  · simp only [Bool.false_eq_true, if_false]
    cases h : parseHeader line with
    | text body => exact .inr (.inl ⟨body, rfl, rfl⟩)
    | file name o p => exact .inr (.inr ⟨name, o, p, rfl, rfl⟩)
    | error reason => exact .inl ⟨reason, rfl⟩
  · exact .inl ⟨.lineTooLong, rfl⟩

/-- A pass in RECEIVING_BODY, whole. -/
theorem State.bodyStep_cases :
    (s.remain = 0#64 ∧ s.bodyStep = .again s.complete) ∨
    (s.remain ≠ 0#64 ∧ s.buf.length < 8 ∧ s.bodyStep = .stop s) ∨
    (s.remain ≠ 0#64 ∧ 8 ≤ s.buf.length ∧ s.sinkFailed = true ∧ s.bodyStep = .again s.takeChunk) ∨
    (s.remain ≠ 0#64 ∧ 8 ≤ s.buf.length ∧ s.sinkFailed = false ∧
      s.bodyStep = .again (s.takeChunk.decryptAndWrite (slice s.buf 0 8))) := by
  unfold State.bodyStep
  by_cases h1 : s.remain = 0#64
  · exact .inl ⟨h1, by simp [h1]⟩
  · by_cases h2 : s.buf.length < 8
    · exact .inr (.inl ⟨h1, h2, by simp [h1, h2]⟩)
    · cases h3 : s.sinkFailed
      · exact .inr (.inr (.inr ⟨h1, by omega, rfl, by simp [h1, h2]⟩))
      · exact .inr (.inr (.inl ⟨h1, by omega, rfl, by simp [h1, h2]⟩))

/-! ## The parts of a pass: what each leaves alone -/

/-- The fields no part of the receive loop writes. -/
structure SameOutside (s t : State) : Prop where
  key : t.key = s.key
  keyValid : t.keyValid = s.keyValid
  ks : t.ks = s.ks
  sbox : t.sbox = s.sbox
  lineMax : t.lineMax = s.lineMax
  cmdIn : t.cmdIn = s.cmdIn
  resetReq : t.resetReq = s.resetReq
  done : t.done = s.done

theorem SameOutside.refl : SameOutside s s := ⟨rfl, rfl, rfl, rfl, rfl, rfl, rfl, rfl⟩

theorem SameOutside.trans {s t u : State} (h : SameOutside s t) (k : SameOutside t u) : SameOutside s u :=
  ⟨k.key.trans h.key, k.keyValid.trans h.keyValid, k.ks.trans h.ks, k.sbox.trans h.sbox, k.lineMax.trans h.lineMax,
    k.cmdIn.trans h.cmdIn, k.resetReq.trans h.resetReq, k.done.trans h.done⟩

theorem sameOutside_protocolError (r : Reason) : SameOutside s (s.protocolError r) := by constructor <;> simp

theorem sameOutside_textFrame (b : Bytes) : SameOutside s (s.textFrame b) := by constructor <;> simp

theorem sameOutside_sinkOp (op : SinkOp) : SameOutside s (s.sinkOp op) := by constructor <;> simp

theorem sameOutside_ioAbort (op : SinkKind) : SameOutside s (s.ioAbort op) := by constructor <;> simp

theorem sameOutside_fileFrame (n : Bytes) (o p : U64) : SameOutside s (s.fileFrame n o p) := by
  unfold State.fileFrame
  dsimp only
  split <;> constructor <;> simp

theorem sameOutside_decryptAndWrite (c : Bytes) : SameOutside s (s.decryptAndWrite c) := by
  unfold State.decryptAndWrite
  dsimp only
  split <;> constructor <;> simp

theorem sameOutside_closeAndDeliver : SameOutside s s.closeAndDeliver := by
  unfold State.closeAndDeliver
  dsimp only
  split <;> constructor <;> simp

theorem sameOutside_finishFile : SameOutside s s.finishFile := by
  unfold State.finishFile
  dsimp only
  split
  · exact (sameOutside_sinkOp s _).trans (sameOutside_closeAndDeliver _)
  · exact (sameOutside_sinkOp s _).trans (sameOutside_ioAbort _ _)

theorem sameOutside_complete : SameOutside s s.complete := by
  unfold State.complete
  refine SameOutside.trans (t := if s.sinkFailed then s else s.finishFile) ?_ (by constructor <;> simp)
  split
  · exact SameOutside.refl s
  · exact sameOutside_finishFile s

/-- A pass leaves the key, the ROM, the parameters and the host port alone. -/
theorem sameOutside_pass : SameOutside s s.pass.state := by
  unfold State.pass
  cases s.phase with
  | desynchronized => exact SameOutside.refl s
  | receivingBody =>
    rcases s.bodyStep_cases with ⟨-, h⟩ | ⟨-, -, h⟩ | ⟨-, -, -, h⟩ | ⟨-, -, -, h⟩ <;>
      (dsimp only; rw [h]; dsimp only [Pass.state])
    · exact sameOutside_complete s
    · exact SameOutside.refl s
    · constructor <;> simp
    · exact SameOutside.trans (t := s.takeChunk) (by constructor <;> simp) (sameOutside_decryptAndWrite _ _)
  | awaitingHeader =>
    rcases s.headerStep_cases with ⟨-, -, h⟩ | ⟨-, -, h⟩ | ⟨line, rest, -, -, h⟩ <;> (dsimp only; rw [h])
    · exact sameOutside_protocolError s _
    · exact SameOutside.refl s
    · refine SameOutside.trans (t := s.setBuf rest) (by constructor <;> rfl) ?_
      rcases (s.setBuf rest).headerLine_cases line with ⟨r, e⟩ | ⟨b, -, e⟩ | ⟨n, o, p, -, e⟩ <;> rw [e]
      · exact sameOutside_protocolError _ _
      · exact sameOutside_textFrame _ _
      · exact sameOutside_fileFrame _ _ _ _

/-! ## The loop -/

/-- A property that every pass keeps holds after the loop. -/
theorem State.loop_induction (P : State → Prop) (hp : ∀ u, P u → P u.pass.state) (n : Nat) (h : P s) : P (s.loop n) := by
  induction n generalizing s with
  | zero => exact h
  | succ n ih =>
    have hs := hp s h
    unfold State.loop
    cases e : s.pass with
    | stop t => simpa [e, Pass.state] using hs
    | again t => exact ih t (by simpa [e, Pass.state] using hs)

/-- The loop leaves the key, the ROM, the parameters and the host port alone. -/
theorem sameOutside_loop (n : Nat) : SameOutside s (s.loop n) :=
  State.loop_induction s (SameOutside s) (fun u h => h.trans (sameOutside_pass u)) n (SameOutside.refl s)

theorem sameOutside_receiveLoop : SameOutside s s.receiveLoop := sameOutside_loop s _

/-- What falls with every pass that goes on (43_transfer_session.md R191). -/
def State.loopMeasure : Nat :=
  2 * s.buf.length + if s.phase = .receivingBody then 1 else 0

theorem State.loopMeasure_lt_fuel : s.loopMeasure < s.loopFuel := by
  unfold State.loopMeasure State.loopFuel
  split <;> omega

@[simp] theorem State.fileFrame_buf (n : Bytes) (o p : U64) : (s.fileFrame n o p).buf = s.buf := by
  unfold State.fileFrame
  dsimp only
  split <;> simp

@[simp] theorem State.decryptAndWrite_buf (c : Bytes) : (s.decryptAndWrite c).buf = s.buf := by
  unfold State.decryptAndWrite
  dsimp only
  split <;> simp

@[simp] theorem State.decryptAndWrite_phase (c : Bytes) : (s.decryptAndWrite c).phase = s.phase := by
  unfold State.decryptAndWrite
  dsimp only
  split <;> simp

@[simp] theorem State.closeAndDeliver_buf : s.closeAndDeliver.buf = s.buf := by
  unfold State.closeAndDeliver
  dsimp only
  split <;> simp

@[simp] theorem State.finishFile_buf : s.finishFile.buf = s.buf := by
  unfold State.finishFile
  dsimp only
  split <;> simp

@[simp] theorem State.complete_buf : s.complete.buf = s.buf := by
  unfold State.complete
  split <;> simp

@[simp] theorem State.complete_phase : s.complete.phase = .awaitingHeader := by
  unfold State.complete
  split <;> simp

/-- A pass that goes on removes a byte of BUF or leaves RECEIVING_BODY (43_transfer_session.md R191). -/
theorem State.pass_again_lt (h : s.pass = .again t) : t.loopMeasure < s.loopMeasure := by
  unfold State.pass at h
  cases hp : s.phase with
  | desynchronized => simp [hp] at h
  | receivingBody =>
    simp only [hp] at h
    rcases s.bodyStep_cases with ⟨-, e⟩ | ⟨-, -, e⟩ | ⟨-, hb, -, e⟩ | ⟨-, hb, -, e⟩ <;> rw [e] at h <;>
      simp only [Pass.again.injEq, reduceCtorEq] at h <;> subst h <;> simp [State.loopMeasure, hp]
    all_goals omega
  | awaitingHeader =>
    simp only [hp] at h
    rcases s.headerStep_cases with ⟨-, -, e⟩ | ⟨-, -, e⟩ | ⟨line, rest, hb, -, e⟩ <;> rw [e] at h
    · simp at h
    · simp at h
    · rcases (s.setBuf rest).headerLine_cases line with ⟨r, e⟩ | ⟨b, -, e⟩ | ⟨n, o, p, -, e⟩ <;> rw [e] at h <;>
        simp only [Pass.again.injEq, reduceCtorEq] at h <;> subst h <;> simp [State.loopMeasure, hp, hb]
      · omega
      · split <;> omega

/-- Any two amounts of fuel above the measure give the same state. -/
theorem State.loop_fuel_irrelevant (n m : Nat) (hn : s.loopMeasure < n) (hm : s.loopMeasure < m) : s.loop n = s.loop m := by
  induction n generalizing s m with
  | zero => omega
  | succ n ih =>
    cases m with
    | zero => omega
    | succ m =>
      unfold State.loop
      cases e : s.pass with
      | stop t => rfl
      | again t =>
        have := s.pass_again_lt t e
        exact ih t m (by omega) (by omega)

end Sys2Proof.Machine
end

