-- ==== Sys2Proof/Laws/Exec.lean ====
section
/-! SUPPORT. What a command can do, said once: it fails, or it has its own effect (60_exceptions.md R267). -/

namespace Sys2Proof.Machine

/-- A failure's sticky bit as a mask (10_state.md R35). -/
theorem State.fail_eq_failedWith (s : State) (f : Failure) : s.fail f = s.failedWith f (1#8 <<< (f.code.toNat - 1)) := rfl

/-- A failed command adds its one response. -/
theorem State.fail_done_eq (s : State) (f : Failure) :
    (s.fail f).done = s.done ++ [{ response := { status := .failed f, rdata := [] }, trace := [] }] := rfl

/-- The session command's state after its own effect, before its response. -/
inductive OwnEffect (s : State) : Instr → Bytes → State → Prop where
  | setKey (p : Bytes) (len : p.length = 32) (unlocked : s.keyValid = false) :
    OwnEffect s (.setKey p) [] (s.begin.loadKey (keyOperand p))
  | encrypt (p : Bytes) (len : p.length = 8) (keyed : s.keyValid = true) :
    OwnEffect s (.encrypt p) (crypt s.sbox s.ks .encrypt p) s.begin.releaseDatapath
  | decrypt (p : Bytes) (len : p.length = 8) (keyed : s.keyValid = true) :
    OwnEffect s (.decrypt p) (crypt s.sbox s.ks .decrypt p) s.begin.releaseDatapath
  | ingest (p : Bytes) (keyed : s.keyValid = true) (inStep : s.phase ≠ .desynchronized) :
    OwnEffect s (.ingest p) [] (s.begin.receive p).receiveLoop
  | disconnect : OwnEffect s (.disconnect []) [] s.begin.loseConnection
  | getStatus : OwnEffect s (.getStatus []) (be32bytes (status s)) s.begin

/-- Every command fails, with the failure its checks give, or responds after its own effect. -/
theorem exec_cases (i : Instr) (s t : State) (h : exec i s = .next t) :
    (∃ f, t = s.fail f) ∨ ∃ d u, OwnEffect s i d u ∧ t = u.respond d := by
  cases i with
  | setKey p =>
    simp only [exec, execSetKey] at h
    split at h
    · exact .inl ⟨_, (Host.Outcome.next.inj h).symm⟩
    · split at h
      · exact .inl ⟨_, (Host.Outcome.next.inj h).symm⟩
      · rename_i h1 h2
        exact .inr ⟨_, _, .setKey p (by omega) (by simpa using h2), (Host.Outcome.next.inj h).symm⟩
  | encrypt p =>
    simp only [exec, execEncrypt, cipherCommand, Host.Outcome.next.injEq] at h
    split at h
    · exact .inl ⟨_, h.symm⟩
    · split at h
      · exact .inl ⟨_, h.symm⟩
      · rename_i h1 h2
        exact .inr ⟨_, _, .encrypt p (by omega) (by simpa using h2), h.symm⟩
  | decrypt p =>
    simp only [exec, execDecrypt, cipherCommand, Host.Outcome.next.injEq] at h
    split at h
    · exact .inl ⟨_, h.symm⟩
    · split at h
      · exact .inl ⟨_, h.symm⟩
      · rename_i h1 h2
        exact .inr ⟨_, _, .decrypt p (by omega) (by simpa using h2), h.symm⟩
  | ingest p =>
    simp only [exec, execIngest] at h
    split at h
    · exact .inl ⟨_, (Host.Outcome.next.inj h).symm⟩
    · split at h
      · exact .inl ⟨_, (Host.Outcome.next.inj h).symm⟩
      · rename_i h1 h2
        exact .inr ⟨_, _, .ingest p (by simpa using h1) h2, (Host.Outcome.next.inj h).symm⟩
  | disconnect p =>
    simp only [exec, execDisconnect] at h
    split at h
    · exact .inl ⟨_, (Host.Outcome.next.inj h).symm⟩
    · rename_i h1
      obtain rfl : p = [] := List.eq_nil_of_length_eq_zero (by omega)
      exact .inr ⟨_, _, .disconnect, (Host.Outcome.next.inj h).symm⟩
  | getStatus p =>
    simp only [exec, execGetStatus] at h
    split at h
    · exact .inl ⟨_, (Host.Outcome.next.inj h).symm⟩
    · rename_i h1
      obtain rfl : p = [] := List.eq_nil_of_length_eq_zero (by omega)
      exact .inr ⟨_, _, .getStatus, (Host.Outcome.next.inj h).symm⟩
  | illegal op p => exact .inl ⟨_, (Host.Outcome.next.inj h).symm⟩
  | illegalFlg op flg p => exact .inl ⟨_, (Host.Outcome.next.inj h).symm⟩

/-- No command stops the machine (00_scope.md R17). -/
theorem exec_total (i : Instr) (s : State) : ∃ t, exec i s = .next t := by
  cases i <;> simp only [exec, execSetKey, execEncrypt, execDecrypt, execIngest, execDisconnect, execGetStatus, execIllegal,
    execIllegalFlg]
  all_goals repeat' split
  all_goals exact ⟨_, rfl⟩

/-- No run of commands stops the machine. -/
theorem runCommands_total (is : List Instr) (s : State) : ∃ t, runCommands is s = .next t := by
  induction is generalizing s with
  | nil => exact ⟨s, rfl⟩
  | cons i is ih =>
    obtain ⟨u, h⟩ := exec_total i s
    simpa [runCommands, h] using ih u

/-- DISCONNECT leaves the key, the ROM, the parameters and the host port alone. -/
theorem sameOutside_loseConnection (s : State) : SameOutside s s.loseConnection := by
  unfold State.loseConnection
  dsimp only
  split <;> constructor <;> simp

/-- A command's own effect sends nothing before its response. -/
theorem OwnEffect.done_eq {s : State} {i : Instr} {d : Bytes} {u : State} (h : OwnEffect s i d u) : u.done = s.done := by
  cases h with
  | ingest p => exact (sameOutside_receiveLoop _).done
  | disconnect => exact (sameOutside_loseConnection _).done
  | _ => simp

/-- Every command: the result the host receives is a failure's, or the response and the trace of the command's own effect. -/
theorem result_cases {i : Instr} {s t : State} {res : CommandResult} (h : exec i s = .next t)
    (hd : t.done = s.done ++ [res]) :
    (∃ f, t = s.fail f ∧ res = { response := { status := .failed f, rdata := [] }, trace := [] }) ∨
    ∃ d u, OwnEffect s i d u ∧ t = u.respond d ∧ res = okResult d u.trace := by
  rcases exec_cases i s t h with ⟨f, rfl⟩ | ⟨d, u, ho, rfl⟩
  · exact .inl ⟨f, rfl, by simpa [eq_comm] using hd⟩
  · exact .inr ⟨d, u, ho, rfl, by simpa [ho.done_eq, okResult, eq_comm] using hd⟩

/-- Every step: a reset, a wait for the rest of a command, or one whole command. -/
theorem step_cases (s t : State) (h : step s = .next t) :
    (s.resetReq = true ∧ t = s.resetFrom) ∨
    (s.resetReq = false ∧ (∃ e, decode s.cmdIn = .error e) ∧ t = s) ∨
    (s.resetReq = false ∧ ∃ i rest, decode s.cmdIn = .ok (i, rest) ∧ exec i { s with cmdIn := rest } = .next t) := by
  unfold step State.fetch at h
  cases hr : s.resetReq
  · simp only [hr, Bool.false_eq_true, if_false] at h
    cases hd : decode s.cmdIn with
    | error e => exact .inr (.inl ⟨rfl, ⟨e, rfl⟩, by simpa [hd, eq_comm] using h⟩)
    | ok p => exact .inr (.inr ⟨rfl, p.1, p.2, rfl, by simpa [hd] using h⟩)
  · exact .inl ⟨rfl, by simpa [hr, eq_comm] using h⟩

end Sys2Proof.Machine
end

