-- ==== Sys2Proof/Laws/Loop.lean ====
section
/-! SUPPORT. The receive loop as one equation, its induction principle, and where it rests (43_transfer_session.md R191,
R203). -/

namespace Sys2Proof.Machine

variable (s t : State)

/-- A pass that stops is the loop (43_transfer_session.md R191). -/
theorem State.receiveLoop_of_stop (h : s.pass = .stop t) : s.receiveLoop = t := by
  simp [State.receiveLoop, State.loopFuel, State.loop, h]

theorem State.receiveLoop_of_again (h : s.pass = .again t) : s.receiveLoop = t.receiveLoop := by
  have h1 := State.pass_again_lt s t h
  have h2 := s.loopMeasure_lt_fuel
  rw [State.receiveLoop, State.loopFuel, State.loop, h]
  exact State.loop_fuel_irrelevant t _ _ (by simp only [State.loopFuel] at h2; omega) t.loopMeasure_lt_fuel

/-- Induction over the loop: what holds where a pass stops, and is carried back over a pass that goes on,
    holds of the loop. -/
theorem State.receiveLoop_induction {motive : State → State → Prop} (s : State)
    (stop : ∀ u v, u.pass = .stop v → motive u v)
    (again : ∀ u v, u.pass = .again v → motive v v.receiveLoop → motive u v.receiveLoop) : motive s s.receiveLoop := by
  generalize hn : s.loopMeasure = n
  induction n using Nat.strong_induction_on generalizing s with
  | _ n ih =>
    cases h : s.pass with
    | stop t => rw [s.receiveLoop_of_stop t h]; exact stop s t h
    | again t =>
      rw [s.receiveLoop_of_again t h]
      exact again s t h (ih _ (by have := s.pass_again_lt t h; omega) t rfl)

/-- The loop rests: one more pass would stop at once and change nothing (43_transfer_session.md R203). -/
def State.atRest (s : State) : Prop :=
  (s.phase = .awaitingHeader ∧ lineEnd ∉ s.buf ∧ tooLong s.lineMax s.buf.length = false) ∨
  (s.phase = .receivingBody ∧ s.remain ≠ 0#64 ∧ s.buf.length < 8) ∨
  (s.phase = .desynchronized)

theorem State.atRest_of_stop (h : s.pass = .stop t) : t.atRest := by
  unfold State.pass at h
  cases hp : s.phase with
  | desynchronized => simp [hp] at h; subst h; exact .inr (.inr hp)
  | receivingBody =>
    simp only [hp] at h
    rcases s.bodyStep_cases with ⟨-, e⟩ | ⟨h1, h2, e⟩ | ⟨-, hb, -, e⟩ | ⟨-, hb, -, e⟩ <;> rw [e] at h <;>
      simp only [Pass.stop.injEq, reduceCtorEq] at h
    subst h; exact .inr (.inl ⟨hp, h1, h2⟩)
  | awaitingHeader =>
    simp only [hp] at h
    rcases s.headerStep_cases with ⟨-, -, e⟩ | ⟨h1, h2, e⟩ | ⟨line, rest, hb, -, e⟩ <;> rw [e] at h
    · cases h; exact .inr (.inr (by simp))
    · cases h; exact .inl ⟨hp, h1, h2⟩
    · rcases (s.setBuf rest).headerLine_cases line with ⟨r, e⟩ | ⟨b, -, e⟩ | ⟨n, o, p, -, e⟩ <;> rw [e] at h <;> cases h
      exact .inr (.inr (by simp))

theorem State.receiveLoop_atRest : s.receiveLoop.atRest :=
  State.receiveLoop_induction (motive := fun _ v => v.atRest) s (fun u v h => u.atRest_of_stop v h) (fun _ _ _ h => h)

theorem State.pass_of_atRest (h : s.atRest) : s.pass = .stop s := by
  unfold State.pass
  rcases h with ⟨h1, h2, h3⟩ | ⟨h1, h2, h3⟩ | h1 <;> rw [h1] <;> dsimp only
  · rcases s.headerStep_cases with ⟨-, h, -⟩ | ⟨-, -, e⟩ | ⟨l, r, hb, -, -⟩
    · simp [h3] at h
    · exact e
    · simp [hb] at h2
  · rcases s.bodyStep_cases with ⟨h, -⟩ | ⟨-, -, e⟩ | ⟨-, h, -⟩ | ⟨-, h, -⟩
    · exact absurd h h2
    · exact e
    · omega
    · omega

theorem State.receiveLoop_of_atRest (h : s.atRest) : s.receiveLoop = s := s.receiveLoop_of_stop s (s.pass_of_atRest h)

theorem tooLong_eq_false (lineMax : Option Nat) (n : Nat) : tooLong lineMax n = false ↔ ∀ m, lineMax = some m →
    n ≤ m := by
  cases lineMax <;> simp [tooLong]

theorem tooLong_eq_true (lineMax : Option Nat) (n : Nat) : tooLong lineMax n = true ↔ ∃ m, lineMax = some m ∧ m < n := by
  cases lineMax <;> simp [tooLong]

end Sys2Proof.Machine
end

