-- ==== Sys2Proof/Laws/Fragment.lean ====
section
/-! SUPPORT. The receive loop on bytes that come in parts, and its independence of what was logged before
(42_frame_codec.md R174, 43_transfer_session.md R206). -/

namespace Sys2Proof.Machine

variable (s t : State)

/-! ## More bytes at the end of BUF -/

theorem State.receive_nil : s.receive [] = s := by simp [State.receive]

theorem State.receive_receive (a b : Bytes) : (s.receive a).receive b = s.receive (a ++ b) := by
  simp [State.receive]

theorem State.answersOk_receive (b : Bytes) : (s.receive b).answersOk = s.answersOk := rfl

theorem State.tookAnswer_receive (b : Bytes) : (s.receive b).tookAnswer = s.tookAnswer.receive b := by
  unfold State.tookAnswer
  rw [State.receive_answers]
  split <;> rfl

theorem State.sinkOp_receive (op : SinkOp) (b : Bytes) : (s.receive b).sinkOp op = (s.sinkOp op).receive b := by
  unfold State.sinkOp
  rw [State.answersOk_receive, State.tookAnswer_receive]
  cases s.answersOk <;> rfl

theorem State.abandonFile_receive (c : Bool) (b : Bytes) : (s.receive b).abandonFile c = (s.abandonFile c).receive b := by
  cases c <;> simp [State.abandonFile, State.sinkOp_receive]

theorem State.ioAbort_receive (op : SinkKind) (b : Bytes) : (s.receive b).ioAbort op = (s.ioAbort op).receive b := by
  unfold State.ioAbort
  rw [State.receive_sinkHeld]
  cases s.sinkHeld
  · rfl
  · have e := State.abandonFile_receive { s.emit (.ioError op) with sticky := setSticky s.sticky ioBit } (op != .sclose) b
    dsimp only [if_true]
    rw [← State.receive_sticky s b] at e
    exact congrArg (fun c : State => { c with sinkHeld := false, sinkFailed := true }) e

theorem State.fileFrame_receive (n : Bytes) (o p : U64) (b : Bytes) :
    (s.receive b).fileFrame n o p = (s.fileFrame n o p).receive b := by
  have e := State.sinkOp_receive (s.openTransfer n o p) (.sopen (Config.sinkName n)) b
  have e' : (s.receive b).openTransfer n o p = (s.openTransfer n o p).receive b := rfl
  unfold State.fileFrame
  dsimp only
  rw [e', State.answersOk_receive, e, State.ioAbort_receive]
  cases (s.openTransfer n o p).answersOk <;> rfl

theorem State.decryptAndWrite_receive (c b : Bytes) :
    (s.receive b).decryptAndWrite c = (s.decryptAndWrite c).receive b := by
  have e' : (s.receive b).releaseDatapath = s.releaseDatapath.receive b := rfl
  unfold State.decryptAndWrite
  dsimp only
  rw [e', State.answersOk_receive, State.sinkOp_receive, State.ioAbort_receive]
  cases s.releaseDatapath.answersOk <;> rfl

theorem State.complete_receive (b : Bytes) : (s.receive b).complete = s.complete.receive b := by
  have e1 : ∀ u : State, (u.receive b).closeAndDeliver = u.closeAndDeliver.receive b := by
    intro u
    unfold State.closeAndDeliver
    dsimp only
    rw [State.answersOk_receive, State.sinkOp_receive, State.ioAbort_receive]
    cases u.answersOk <;> rfl
  have e2 : (s.receive b).finishFile = s.finishFile.receive b := by
    unfold State.finishFile
    dsimp only
    rw [State.answersOk_receive, State.receive_origSize, State.sinkOp_receive, State.ioAbort_receive, e1]
    cases s.answersOk <;> rfl
  unfold State.complete
  rw [e2, State.receive_sinkFailed]
  cases s.sinkFailed <;> rfl

theorem State.protocolError_receive (r : Reason) (b : Bytes) : (s.receive b).protocolError r = s.protocolError r := rfl

theorem takeLine_append_of_some (a b line rest : Bytes) (h : takeLine a = some (line, rest)) :
    takeLine (a ++ b) = some (line, rest ++ b) := by
  obtain ⟨rfl, hl⟩ := takeLine_some _ _ _ h
  rw [List.append_assoc, List.cons_append]
  exact takeLine_append _ _ hl

theorem State.headerLine_receive (line b : Bytes) : (s.receive b).headerLine line =
    (match s.headerLine line with
      | .stop t => .stop t
      | .again t => .again (t.receive b)) := by
  unfold State.headerLine
  rw [State.receive_lineMax]
  cases tooLong s.lineMax line.length
  · simp only [Bool.false_eq_true, if_false]
    cases parseHeader line with
    | text body => rfl
    | file n o p => simp [State.fileFrame_receive]
    | error r => simp [State.protocolError_receive]
  · simp [State.protocolError_receive]

/-- A pass that goes on does the same with more bytes behind (42_frame_codec.md R174, 43_transfer_session.md R206). -/
theorem State.pass_receive_of_again (b : Bytes) (h : s.pass = .again t) : (s.receive b).pass = .again (t.receive b) := by
  unfold State.pass at h ⊢
  rw [State.receive_phase]
  cases hp : s.phase with
  | desynchronized => simp [hp] at h
  | receivingBody =>
    simp only [hp] at h ⊢
    unfold State.bodyStep at h ⊢
    rw [State.receive_remain]
    split at h
    · simp only [Pass.again.injEq] at h; subst h
      rw [if_pos (by assumption), State.complete_receive]
    · rw [if_neg (by assumption)]
      split at h
      · simp at h
      · rename_i hb
        have hc : (s.receive b).takeChunk = s.takeChunk.receive b := by
          unfold State.takeChunk State.receive
          simp only [List.drop_append_of_le_length (show 8 ≤ s.buf.length by omega)]
        have hs : slice (s.receive b).buf 0 8 = slice s.buf 0 8 := by
          simp only [slice, State.receive_buf, List.drop_zero]
          exact List.take_append_of_le_length (by omega)
        rw [if_neg (by simp; omega), hc, hs, State.receive_sinkFailed]
        split at h <;> simp only [Pass.again.injEq] at h <;> subst h
        · rw [if_pos (by assumption)]
        · rw [if_neg (by assumption), State.decryptAndWrite_receive]
  | awaitingHeader =>
    simp only [hp] at h ⊢
    unfold State.headerStep at h ⊢
    split at h
    · simp at h
    · rename_i line rest hl
      rw [State.receive_buf, takeLine_append_of_some _ b _ _ hl]
      have : (s.receive b).setBuf (rest ++ b) = (s.setBuf rest).receive b := rfl
      dsimp only
      rw [this, State.headerLine_receive, h]

/-- A pass that stops the loop for good does the same with more bytes behind. -/
theorem State.pass_receive_of_stop (b : Bytes) (h : s.pass = .stop t) (hs : s.phase ≠ .desynchronized)
    (ht : t.phase = .desynchronized) : (s.receive b).pass = .stop t := by
  unfold State.pass at h ⊢
  rw [State.receive_phase]
  cases hp : s.phase with
  | desynchronized => exact absurd hp hs
  | receivingBody =>
    simp only [hp] at h
    rcases s.bodyStep_cases with ⟨-, e⟩ | ⟨-, -, e⟩ | ⟨-, hb, -, e⟩ | ⟨-, hb, -, e⟩ <;> rw [e] at h <;> cases h
    exact absurd ht hs
  | awaitingHeader =>
    simp only [hp] at h ⊢
    unfold State.headerStep at h ⊢
    split at h
    · rename_i hl
      have hn := (takeLine_none_iff _).1 hl
      split at h
      · rename_i hlong
        simp only [Pass.stop.injEq] at h; subst h
        have mono : ∀ n, s.buf.length ≤ n → tooLong s.lineMax n = true := by
          intro n hle
          cases hm : s.lineMax with
          | none => simp [hm, tooLong] at hlong
          | some m => simp [hm, tooLong] at hlong ⊢; omega
        split
        · rw [if_pos (by simpa using mono _ (by simp))]; rfl
        · rename_i line rest h2
          obtain ⟨h3, -⟩ := takeLine_some _ _ _ h2
          have : s.buf.length ≤ line.length := by
            by_contra hlt
            apply hn
            have h4 := congrArg (fun l => l[line.length]?) h3
            simp only [State.receive_buf] at h4
            rw [List.getElem?_append_left (by omega)] at h4
            simp at h4
            exact List.mem_of_getElem? h4
          unfold State.headerLine
          rw [if_pos (by simpa using mono _ this)]
          rfl
      · simp only [Pass.stop.injEq] at h; subst h
        exact absurd ht hs
    · rename_i line rest hl
      rw [State.receive_buf, takeLine_append_of_some _ b _ _ hl]
      have : (s.receive b).setBuf (rest ++ b) = (s.setBuf rest).receive b := rfl
      dsimp only
      rw [this, State.headerLine_receive, h]

@[simp] theorem State.fileFrame_phase (n : Bytes) (o p : U64) : (s.fileFrame n o p).phase = .receivingBody := by
  simp [State.fileFrame]

/-- A pass that goes on is not desynchronized. -/
theorem State.phase_of_again (h : s.pass = .again t) : t.phase ≠ .desynchronized := by
  unfold State.pass at h
  cases hp : s.phase with
  | desynchronized => simp [hp] at h
  | receivingBody =>
    simp only [hp] at h
    rcases s.bodyStep_cases with ⟨-, e⟩ | ⟨-, -, e⟩ | ⟨-, -, -, e⟩ | ⟨-, -, -, e⟩ <;> rw [e] at h <;> cases h <;> simp [hp]
  | awaitingHeader =>
    simp only [hp] at h
    rcases s.headerStep_cases with ⟨-, -, e⟩ | ⟨-, -, e⟩ | ⟨line, rest, -, -, e⟩ <;> rw [e] at h
    · cases h
    · cases h
    · rcases (s.setBuf rest).headerLine_cases line with ⟨r, e⟩ | ⟨b, -, e⟩ | ⟨n, o, p, -, e⟩ <;> rw [e] at h <;> cases h <;>
        simp [hp]

/-- A pass that stops has changed nothing, or met a protocol error. -/
theorem State.stop_cases (h : s.pass = .stop t) : t = s ∨ ∃ (r : Reason) (u : State), u.phase = s.phase ∧ t = u.protocolError r := by
  unfold State.pass at h
  cases hp : s.phase with
  | desynchronized => simp only [hp, Pass.stop.injEq] at h; exact .inl h.symm
  | receivingBody =>
    simp only [hp] at h
    rcases s.bodyStep_cases with ⟨-, e⟩ | ⟨-, -, e⟩ | ⟨-, -, -, e⟩ | ⟨-, -, -, e⟩ <;> rw [e] at h <;> cases h
    exact .inl rfl
  | awaitingHeader =>
    simp only [hp] at h
    rcases s.headerStep_cases with ⟨-, -, e⟩ | ⟨-, -, e⟩ | ⟨line, rest, -, -, e⟩ <;> rw [e] at h
    · cases h; exact .inr ⟨_, s, hp, rfl⟩
    · cases h; exact .inl rfl
    · rcases (s.setBuf rest).headerLine_cases line with ⟨r, e⟩ | ⟨b, -, e⟩ | ⟨n, o, p, -, e⟩ <;> rw [e] at h <;> cases h
      exact .inr ⟨r, s.setBuf rest, hp, rfl⟩

/-- The loop on bytes that come in two parts (43_transfer_session.md R206). -/
theorem State.receiveLoop_receive (b : Bytes) (hs : s.phase ≠ .desynchronized) :
    (s.receiveLoop.phase = .desynchronized → (s.receive b).receiveLoop = s.receiveLoop) ∧
    (s.receiveLoop.phase ≠ .desynchronized → (s.receive b).receiveLoop = (s.receiveLoop.receive b).receiveLoop) := by
  revert hs
  refine State.receiveLoop_induction (motive := fun s v => s.phase ≠ .desynchronized →
    (v.phase = .desynchronized → (s.receive b).receiveLoop = v) ∧
    (v.phase ≠ .desynchronized → (s.receive b).receiveLoop = (v.receive b).receiveLoop)) s ?_ ?_
  · intro u v h hu
    refine ⟨fun hv => (u.receive b).receiveLoop_of_stop v (u.pass_receive_of_stop v b h hu hv), fun hv => ?_⟩
    rcases u.stop_cases v h with rfl | ⟨r, w, -, rfl⟩
    · rfl
    · simp at hv
  · intro u v h ih hu
    rw [State.receiveLoop_of_again _ _ (u.pass_receive_of_again v b h)]
    exact ih (u.phase_of_again v h)

/-! ## The trace so far, and what the host has received, play no part in the loop -/

/-- The same state with `items` before its trace, and `rs` received. -/
def State.relog (items : List TraceItem) (rs : List CommandResult) (s : State) : State :=
  { s with trace := items ++ s.trace, done := rs }

variable (items : List TraceItem) (rs : List CommandResult)

theorem State.record_relog (i : TraceItem) : (s.relog items rs).record i = (s.record i).relog items rs := by
  simp [State.relog, State.record]

theorem State.tookAnswer_relog : (s.relog items rs).tookAnswer = s.tookAnswer.relog items rs := by
  have : (s.relog items rs).answers = s.answers := rfl
  unfold State.tookAnswer
  rw [this]
  split <;> rfl

theorem State.sinkOp_relog (op : SinkOp) : (s.relog items rs).sinkOp op = (s.sinkOp op).relog items rs := by
  have : (s.relog items rs).answersOk = s.answersOk := rfl
  unfold State.sinkOp
  rw [this, State.tookAnswer_relog, State.record_relog]
  cases s.answersOk <;> rfl

theorem State.abandonFile_relog (c : Bool) : (s.relog items rs).abandonFile c = (s.abandonFile c).relog items rs := by
  cases c <;> simp [State.abandonFile, State.sinkOp_relog]

theorem State.ioAbort_relog (op : SinkKind) : (s.relog items rs).ioAbort op = (s.ioAbort op).relog items rs := by
  have h : (s.relog items rs).sinkHeld = s.sinkHeld := rfl
  have h1 : ({ (s.relog items rs).emit (.ioError op) with sticky := setSticky (s.relog items rs).sticky ioBit } : State) =
      ({ s.emit (.ioError op) with sticky := setSticky s.sticky ioBit } : State).relog items rs := by
    simp [State.relog, State.emit, State.record]
  unfold State.ioAbort
  dsimp only
  rw [h, h1, State.abandonFile_relog]
  cases s.sinkHeld <;> rfl

theorem State.fileFrame_relog (n : Bytes) (o p : U64) :
    (s.relog items rs).fileFrame n o p = (s.fileFrame n o p).relog items rs := by
  have e' : (s.relog items rs).openTransfer n o p = (s.openTransfer n o p).relog items rs := rfl
  have e (u : State) : (u.relog items rs).answersOk = u.answersOk := rfl
  unfold State.fileFrame
  dsimp only
  rw [e', e, State.sinkOp_relog, State.ioAbort_relog]
  cases (s.openTransfer n o p).answersOk <;> rfl

theorem State.decryptAndWrite_relog (c : Bytes) :
    (s.relog items rs).decryptAndWrite c = (s.decryptAndWrite c).relog items rs := by
  have e' : (s.relog items rs).releaseDatapath = s.releaseDatapath.relog items rs := rfl
  have e (u : State) : (u.relog items rs).answersOk = u.answersOk := rfl
  unfold State.decryptAndWrite
  dsimp only
  rw [e', e, State.sinkOp_relog, State.ioAbort_relog]
  cases s.releaseDatapath.answersOk <;> rfl

theorem State.complete_relog : (s.relog items rs).complete = s.complete.relog items rs := by
  have e (u : State) : (u.relog items rs).answersOk = u.answersOk := rfl
  have e1 : ∀ u : State, (u.relog items rs).closeAndDeliver = u.closeAndDeliver.relog items rs := by
    intro u
    unfold State.closeAndDeliver
    dsimp only
    rw [e, State.sinkOp_relog, State.ioAbort_relog]
    cases u.answersOk
    · rfl
    · simp [State.emit, State.record, State.relog]
  have e2 : (s.relog items rs).finishFile = s.finishFile.relog items rs := by
    have h : (s.relog items rs).origSize = s.origSize := rfl
    unfold State.finishFile
    dsimp only
    rw [e, h, State.sinkOp_relog, State.ioAbort_relog, e1]
    cases s.answersOk <;> rfl
  have h : (s.relog items rs).sinkFailed = s.sinkFailed := rfl
  unfold State.complete
  rw [e2, h]
  cases s.sinkFailed <;> rfl

/-- A pass's result with another log. -/
def Pass.map (f : State → State) : Pass → Pass
  | .stop t => .stop (f t)
  | .again t => .again (f t)

theorem State.protocolError_relog (r : Reason) :
    (s.relog items rs).protocolError r = (s.protocolError r).relog items rs := by
  simp [State.protocolError, State.emit, State.record, State.relog]

theorem State.pass_relog : (s.relog items rs).pass = s.pass.map (State.relog items rs) := by
  have h1 : (s.relog items rs).phase = s.phase := rfl
  have h2 : (s.relog items rs).buf = s.buf := rfl
  have h3 : (s.relog items rs).lineMax = s.lineMax := rfl
  have h4 : (s.relog items rs).remain = s.remain := rfl
  have h5 : (s.relog items rs).sinkFailed = s.sinkFailed := rfl
  have h6 : (s.relog items rs).takeChunk = s.takeChunk.relog items rs := rfl
  unfold State.pass
  rw [h1]
  cases s.phase with
  | desynchronized => rfl
  | receivingBody =>
    dsimp only
    unfold State.bodyStep
    rw [h2, h4, h5, h6, State.complete_relog, State.decryptAndWrite_relog]
    repeat' split
    all_goals rfl
  | awaitingHeader =>
    dsimp only
    unfold State.headerStep
    rw [h2, h3]
    split
    · rw [State.protocolError_relog]
      split <;> rfl
    · rename_i line rest _
      have h7 : (s.relog items rs).setBuf rest = (s.setBuf rest).relog items rs := rfl
      unfold State.headerLine
      rw [h7]
      have h8 : ((s.setBuf rest).relog items rs).lineMax = (s.setBuf rest).lineMax := rfl
      rw [h8, State.protocolError_relog]
      split
      · rfl
      · split
        · rw [State.textFrame, State.emit, State.record_relog]; rfl
        · rw [State.fileFrame_relog]; rfl
        · rw [State.protocolError_relog]; rfl

theorem State.receiveLoop_relog : (s.relog items rs).receiveLoop = s.receiveLoop.relog items rs := by
  refine State.receiveLoop_induction (motive := fun s v => (s.relog items rs).receiveLoop = v.relog items rs) s ?_ ?_
  · intro u v h
    exact State.receiveLoop_of_stop _ _ (by rw [State.pass_relog, h]; rfl)
  · intro u v h ih
    rw [State.receiveLoop_of_again _ (v.relog items rs) (by rw [State.pass_relog, h]; rfl)]
    exact ih

end Sys2Proof.Machine
end

