-- ==== Sys2Proof/Laws/Invariant.lean ====
section
/-! SUPPORT. The invariant inside the receive loop, which every pass keeps,
    and how it gives the invariant between commands
(10_state.md R37 to R40). -/

namespace Sys2Proof.Machine

variable (s : State)

theorem setSticky_getLsbD (st : BitVec 8) (k j : Nat) (hj : j < 8) :
    (setSticky st k).getLsbD j = (st.getLsbD j || decide (j = k)) := by
  unfold setSticky
  rw [BitVec.getLsbD_or, BitVec.getLsbD_shiftLeft]
  congr 1
  simp [hj]
  by_cases h : j = k
  · subst h; simp
  · simp [h]; omega

/-! ## The invariant inside the loop -/

/-- What every pass keeps: the phase's flags and registers, and the held file. -/
structure LoopInv (s : State) : Prop where
  awaiting : s.phase = .awaitingHeader → TransferClear s
  receiving : s.phase = .receivingBody → s.remain.toNat % 8 = 0 ∧ s.sinkHeld = !s.sinkFailed
  desync : s.phase = .desynchronized → DesyncOk s
  sink : SinkInv s

theorem HeldFile.of_eq {s t : State} (h : HeldFile s) (h1 : t.sink = s.sink) (h2 : t.fname = s.fname)
    (h3 : t.remain = s.remain)
    (h4 : t.padSize = s.padSize) : HeldFile t := by
  obtain ⟨hc, hw⟩ := h
  exact ⟨by rw [h1, h2]; exact hc, by rw [h1, h2, h3, h4]; exact hw⟩

theorem SinkInv.of_eq {s t : State} (h : SinkInv s) (h0 : t.sinkHeld = true → s.sinkHeld = true)
    (h1 : t.sink = s.sink) (h2 : t.fname = s.fname) (h3 : t.remain = s.remain)
    (h4 : t.padSize = s.padSize) : SinkInv t :=
  ⟨by rw [h1]; exact h.canonical, fun e => (h.held (h0 e)).of_eq h1 h2 h3 h4⟩

theorem LoopInv.protocolError (h : TransferClear s) (hs : SinkInv s) (r : Reason) : LoopInv (s.protocolError r) where
  awaiting := by simp
  receiving := by simp
  desync := fun _ => ⟨by simp, ⟨by simp [h.held], by simp [h.failed], by simp [h.fname], by simp [h.orig],
      by simp [h.padded], by simp [h.remain]⟩,
    by rw [State.protocolError_sticky, setSticky_getLsbD _ _ _ (by decide)]; simp⟩
  sink := hs.of_eq (by simp) (by simp) (by simp) (by simp) (by simp)

/-- A file opened: the held file is empty and the whole body is owed (43_transfer_session.md R194). -/
theorem LoopInv.fileFrame (h : SinkInv s) (n : Bytes) (o p : U64) (hp : p.toNat % 8 = 0) : LoopInv
    (s.fileFrame n o p) := by
  unfold State.fileFrame
  dsimp only
  split
  · rename_i ha
    refine ⟨by simp, fun _ => ?_, by simp, ?_, fun _ => ?_⟩
    · simp [hp]
    · exact State.sinkOp_wf _ _ h.canonical
    · have e := State.sinkOp_sink_of_ok _ (.sopen (Config.sinkName n)) ha
      refine ⟨?_, fun _ => ⟨[], ?_, ?_⟩⟩
      · simp [e, RefSink.apply]
      · simp [e, RefSink.apply]
      · simp
  · refine ⟨by simp, fun _ => by simp [hp], by simp, ?_, by simp⟩
    exact State.ioAbort_wf _ _ (State.sinkOp_wf _ _ h.canonical)

/-- A FILE header's padded size is a multiple of 8 (42_frame_codec.md R170). -/
theorem parseHeader_file_pad (line name : Bytes) (o p : U64)
    (h : parseHeader line = .file name o p) : p.toNat % 8 = 0 := by
  unfold parseHeader at h
  split at h
  · simp [parseText] at h
  · split at h
    · unfold parseFile at h
      split at h
      · unfold parseSizes at h
        repeat' split at h
        all_goals simp_all
      · simp at h
    · simp at h

theorem takeChunk_remain (h8 : s.remain.toNat % 8 = 0) (h0 : s.remain ≠ 0#64) :
    s.takeChunk.remain.toNat + 8 = s.remain.toNat := by
  have : s.remain.toNat ≠ 0 := fun e => h0 (BitVec.eq_of_toNat_eq e)
  simp only [State.takeChunk_remain]
  rw [BitVec.toNat_sub_of_le (by rw [BitVec.le_def]; simp; omega)]
  simp; omega

/-- A chunk taken and written keeps the held file's length in step with REMAIN (43_transfer_session.md R196, R197). -/
theorem LoopInv.chunk (h : SinkInv s) (hp : s.phase = .receivingBody) (h8 : s.remain.toNat % 8 = 0) (h0 : s.remain ≠ 0#64)
    (hf : s.sinkFailed = false) (hh : s.sinkHeld = true) (c : Bytes) : LoopInv (s.takeChunk.decryptAndWrite c) := by
  have hr := takeChunk_remain s h8 h0
  obtain ⟨hc, hw⟩ := h.held hh
  unfold State.decryptAndWrite
  dsimp only
  split
  · rename_i ha
    have e := State.sinkOp_sink_of_ok _ (.swrite (crypt s.sbox s.ks .decrypt c)) ha
    refine ⟨by simp [hp], fun _ => ?_, by simp [hp], State.sinkOp_wf _ _ h.canonical, fun _ => ?_⟩
    · simp only [State.sinkOp_remain, State.releaseDatapath_remain, State.sinkOp_sinkHeld,
        State.releaseDatapath_sinkHeld, State.takeChunk_sinkHeld, hh, State.sinkOp_sinkFailed,
        State.releaseDatapath_sinkFailed, State.takeChunk_sinkFailed, hf]
      exact ⟨by omega, rfl⟩
    · refine ⟨by simp [e, RefSink.apply, hc], fun hn => ?_⟩
      have hn : s.sink.disturbed = false := by simpa [e, RefSink.apply] using hn
      obtain ⟨data, hd, hl⟩ := hw hn
      refine ⟨data ++ crypt s.sbox s.ks .decrypt c, ?_, ?_⟩
      · simp [e, RefSink.apply, s.sink.updateCur_own _ _ _ _ hc hn hd]
      · simp only [List.length_append, crypt_length, State.sinkOp_remain, State.releaseDatapath_remain,
          State.sinkOp_padSize, State.releaseDatapath_padSize, State.takeChunk_padSize]
        omega
  · refine ⟨by simp [hp], fun _ => ?_, by simp [hp], ?_, by simp⟩
    · simp only [State.ioAbort_remain, State.sinkOp_remain, State.releaseDatapath_remain, State.ioAbort_sinkHeld,
        State.ioAbort_sinkFailed]
      exact ⟨by omega, rfl⟩
    · exact State.ioAbort_wf _ _ (State.sinkOp_wf _ _ h.canonical)

theorem LoopInv.closed (h : filesWf s.sink.fs = true) : LoopInv s.closeTransfer :=
  ⟨fun _ => ⟨by simp, by simp, by simp, by simp, by simp, by simp⟩, by simp, by simp, by simpa using h, by simp⟩

theorem State.finishFile_wf (h : filesWf s.sink.fs = true) : filesWf s.finishFile.sink.fs = true := by
  unfold State.finishFile State.closeAndDeliver
  dsimp only
  repeat' split
  · exact State.sinkOp_wf _ _ (State.sinkOp_wf _ _ h)
  · exact State.ioAbort_wf _ _ (State.sinkOp_wf _ _ (State.sinkOp_wf _ _ h))
  · exact State.ioAbort_wf _ _ (State.sinkOp_wf _ _ h)

theorem LoopInv.complete (h : SinkInv s) : LoopInv s.complete := by
  unfold State.complete
  split
  · exact LoopInv.closed _ h.canonical
  · exact LoopInv.closed _ (State.finishFile_wf _ h.canonical)

theorem LoopInv.pass (h : LoopInv s) : LoopInv s.pass.state := by
  unfold State.pass
  cases hp : s.phase with
  | desynchronized => exact h
  | receivingBody =>
    obtain ⟨h8, hx⟩ := h.receiving hp
    rcases s.bodyStep_cases with ⟨-, e⟩ | ⟨-, -, e⟩ | ⟨h0, -, hf, e⟩ | ⟨h0, -, hf, e⟩ <;>
      (dsimp only; rw [e]; dsimp only [Pass.state])
    · exact LoopInv.complete s h.sink
    · exact h
    · have hr := takeChunk_remain s h8 h0
      have hh : s.sinkHeld = false := by simpa [hf] using hx
      exact ⟨by simp [hp], fun _ => ⟨by omega, by simp [hf, hh]⟩, by simp [hp], h.sink.canonical, by simp [hh]⟩
    · exact LoopInv.chunk s h.sink hp h8 h0 hf (by simpa [hf] using hx) _
  | awaitingHeader =>
    have hc := h.awaiting hp
    rcases s.headerStep_cases with ⟨-, -, e⟩ | ⟨-, -, e⟩ | ⟨line, rest, -, -, e⟩ <;> (dsimp only; rw [e])
    · exact LoopInv.protocolError s hc h.sink _
    · exact h
    · have hc' : TransferClear (s.setBuf rest) := ⟨hc.1, hc.2, hc.3, hc.4, hc.5, hc.6⟩
      have hs' : SinkInv (s.setBuf rest) := h.sink.of_eq (by simp) (by simp) (by simp) (by simp) (by simp)
      rcases (s.setBuf rest).headerLine_cases line with ⟨r, e⟩ | ⟨b, -, e⟩ | ⟨n, o, p, hp', e⟩ <;> rw [e]
      · exact LoopInv.protocolError _ hc' hs' r
      · exact ⟨fun _ => ⟨hc.1, hc.2, hc.3, hc.4, hc.5, hc.6⟩, by simp [Pass.state, hp], by simp [Pass.state, hp],
          hs'.of_eq (by simp [Pass.state]) (by simp [Pass.state]) (by simp [Pass.state]) (by simp [Pass.state])
              (by simp [Pass.state])⟩
      · exact LoopInv.fileFrame _ hs' n o p (parseHeader_file_pad _ _ _ _ hp')

theorem LoopInv.receiveLoop (h : LoopInv s) : LoopInv s.receiveLoop :=
  State.loop_induction s LoopInv (fun u => LoopInv.pass u) _ h

/-! ## The files that the loop leaves alone -/

/-- File `name` holds `v`, and is not the held one, unless the trace opens it. -/
def Untouched (name : Bytes) (v : Option Bytes) (s : State) : Prop :=
  TraceItem.sink (.sopen name) ∉ s.trace →
    lookupFile s.sink.fs name = v ∧ (s.sinkHeld = true → s.sink.cur ≠ some name)

variable {name : Bytes} {v : Option Bytes}

theorem Untouched.of_eq {s t : State} (h : Untouched name v s)
    (ht : TraceItem.sink (.sopen name) ∉ t.trace → TraceItem.sink (.sopen name) ∉ s.trace)
    (h0 : t.sinkHeld = true → s.sinkHeld = true) (h1 : t.sink = s.sink) : Untouched name v t := fun hn => by
  rw [h1]
  exact ⟨(h (ht hn)).1, fun e => (h (ht hn)).2 (h0 e)⟩

theorem Untouched.fileFrame (h : Untouched name v s) (hc : s.sinkHeld = false) (n : Bytes) (o p : U64) :
    Untouched name v (s.fileFrame n o p) := by
  intro hn
  unfold State.fileFrame at hn ⊢
  dsimp only at hn ⊢
  split at hn <;> rename_i ha
  · rw [if_pos ha]
    simp only [List.mem_append, not_or, State.sinkOp_trace, State.openTransfer_trace, List.mem_singleton,
      TraceItem.sink.injEq, SinkOp.sopen.injEq] at hn
    simp [State.sinkOp_sink_of_ok _ _ ha, RefSink.apply, lookupFile_putFile_of_ne _ _ _ _ hn.2, (h hn.1).1, Ne.symm hn.2]
  · rw [if_neg ha]
    simp only [List.mem_append, not_or, State.ioAbort_trace, State.sinkOp_trace, State.openTransfer_trace] at hn
    simp [State.ioAbort_eq, hc, State.sinkOp_sink_of_fail _ _ (Bool.eq_false_iff.2 ha), (h hn.1.1).1]

/-- While the sink is held, an operation leaves every other file alone. -/
theorem Untouched.sinkOp (h : Untouched name v s) (hh : s.sinkHeld = true) (op : SinkOp) : Untouched name v (s.sinkOp op) := by
  intro hn
  simp only [State.sinkOp_trace, List.mem_append, not_or, List.mem_singleton, TraceItem.sink.injEq] at hn
  obtain ⟨h1, h2⟩ := h hn.1
  obtain ⟨h3, h4⟩ := s.sinkOp_other op name (h2 hh) (Ne.symm hn.2)
  exact ⟨h3.trans h1, fun _ => h4⟩

theorem Untouched.ioAbort (h : Untouched name v s) (hh : s.sinkHeld = true) (op : SinkKind) :
    Untouched name v (s.ioAbort op) := by
  intro hn
  simp only [State.ioAbort_trace, List.mem_append, not_or] at hn
  obtain ⟨h1, h2⟩ := h hn.1
  exact ⟨(s.ioAbort_other op name (h2 hh)).trans h1, by simp⟩

theorem Untouched.decryptAndWrite (h : Untouched name v s) (hh : s.sinkHeld = true) (c : Bytes) :
    Untouched name v (s.decryptAndWrite c) := by
  have hd : Untouched name v s.releaseDatapath := h.of_eq (by simp) (by simp) (by simp)
  unfold State.decryptAndWrite
  dsimp only
  split
  · exact hd.sinkOp _ (by simpa using hh) _
  · exact (hd.sinkOp _ (by simpa using hh) _).ioAbort _ (by simpa using hh) _

theorem Untouched.complete (h : Untouched name v s) (hh : s.sinkFailed = false → s.sinkHeld = true) :
    Untouched name v s.complete := by
  have hf : Untouched name v (if s.sinkFailed then s else s.finishFile) := by
    split
    · exact h
    · have hh := hh (by simpa using ‹¬s.sinkFailed = true›)
      have h1 := h.sinkOp _ hh (.strunc s.origSize)
      unfold State.finishFile State.closeAndDeliver
      dsimp only
      repeat' split
      · exact (h1.sinkOp _ (by simpa using hh) .sclose).of_eq (by simp) (by simp) (by simp)
      · exact (h1.sinkOp _ (by simpa using hh) .sclose).ioAbort _ (by simpa using hh) _
      · exact h1.ioAbort _ (by simpa using hh) _
  unfold State.complete
  exact hf.of_eq (by simp) (by simp) (by simp)

theorem Untouched.pass (h : Untouched name v s) (hi : LoopInv s) : Untouched name v s.pass.state := by
  unfold State.pass
  cases hp : s.phase with
  | desynchronized => exact h
  | receivingBody =>
    have hx := (hi.receiving hp).2
    rcases s.bodyStep_cases with ⟨-, e⟩ | ⟨-, -, e⟩ | ⟨-, -, -, e⟩ | ⟨-, -, hf, e⟩ <;>
      (dsimp only; rw [e]; dsimp only [Pass.state])
    · exact h.complete _ fun hf => by simpa [hf] using hx
    · exact h
    · exact h.of_eq (by simp) (by simp) (by simp)
    · exact (h.of_eq (t := s.takeChunk) (by simp) (by simp) (by simp)).decryptAndWrite _ (by simpa [hf] using hx) _
  | awaitingHeader =>
    have hc := hi.awaiting hp
    rcases s.headerStep_cases with ⟨-, -, e⟩ | ⟨-, -, e⟩ | ⟨line, rest, -, -, e⟩ <;> (dsimp only; rw [e])
    · exact h.of_eq (by simp [Pass.state]) (by simp [Pass.state]) (by simp [Pass.state])
    · exact h
    · have h' : Untouched name v (s.setBuf rest) := h.of_eq (by simp) (by simp) (by simp)
      rcases (s.setBuf rest).headerLine_cases line with ⟨r, e⟩ | ⟨b, -, e⟩ | ⟨n, o, p, -, e⟩ <;> rw [e]
      · exact h'.of_eq (by simp [Pass.state]) (by simp [Pass.state]) (by simp [Pass.state])
      · exact h'.of_eq (by simp [Pass.state]) (by simp [Pass.state]) (by simp [Pass.state])
      · exact h'.fileFrame _ (by simpa using hc.held) n o p

/-- With no sink held, the loop changes no file but those it opens, the one CUR still names included (20_memory.md R76, R80). -/
theorem State.receiveLoop_untouched (hi : LoopInv s) (hh : s.sinkHeld = false)
    (hn : TraceItem.sink (.sopen name) ∉ s.receiveLoop.trace) :
    lookupFile s.receiveLoop.sink.fs name = lookupFile s.sink.fs name := by
  have h : Untouched name (lookupFile s.sink.fs name) s := fun _ => ⟨rfl, by simp [hh]⟩
  exact ((State.loop_induction s (fun u => LoopInv u ∧ Untouched name (lookupFile s.sink.fs name) u)
    (fun u hu => ⟨hu.1.pass, hu.2.pass u hu.1⟩) _ ⟨hi, h⟩).2 hn).1

/-! ## From the loop to the invariant between commands -/

theorem SessionInv.loopInv (h : SessionInv s) (hs : SinkInv s) : LoopInv s :=
  ⟨fun e => (h.awaiting e).clear, fun e => ⟨(h.receiving e).remainMult, (h.receiving e).oneFlag⟩, h.desync, hs⟩

/-- At a suspension point, the invariant of the loop is the invariant between commands (43_transfer_session.md R203). -/
theorem LoopInv.sessionInv (h : LoopInv s) (hr : s.atRest) (hk : s.keyValid = true)
    (ht : s.trace = []) : SessionInv s where
  awaiting := fun e => by
    rcases hr with ⟨-, h1, h2⟩ | ⟨h1, -⟩ | h1
    · exact ⟨h1, h.awaiting e, (tooLong_eq_false _ _).1 h2⟩
    · simp [e] at h1
    · simp [e] at h1
  receiving := fun e => by
    obtain ⟨h8, hx⟩ := h.receiving e
    rcases hr with ⟨h1, -⟩ | ⟨-, h1, h2⟩ | h1 <;> simp only [e, reduceCtorEq] at *
    have : s.remain.toNat ≠ 0 := fun e => h1 (BitVec.eq_of_toNat_eq e)
    exact ⟨by omega, h8, h2, hx⟩
  desync := h.desync
  unkeyed := by simp [hk]
  noTrace := ht

/-! ## States that agree on what the invariant reads -/

theorem SinkInv.copy {s t : State} (h : SinkInv s) (h0 : t.sinkHeld = s.sinkHeld) (h1 : t.sink = s.sink)
    (h2 : t.fname = s.fname) (h3 : t.remain = s.remain)
    (h4 : t.padSize = s.padSize) : SinkInv t := h.of_eq (by simp [h0]) h1 h2 h3 h4

theorem SessionInv.copy {s t : State} (h : SessionInv s) (h0 : t.phase = s.phase) (h1 : t.buf = s.buf)
    (h2 : t.fname = s.fname) (h3 : t.remain = s.remain)
    (h4 : t.padSize = s.padSize) (h5 : t.origSize = s.origSize) (h6 : t.sinkHeld = s.sinkHeld)
        (h7 : t.sinkFailed = s.sinkFailed)
    (h8 : s.sticky.getLsbD protocolBit = true → t.sticky.getLsbD protocolBit = true)
        (h9 : t.keyValid = s.keyValid ∨ t.keyValid = true) (h10 : t.trace = [])
    (h11 : t.lineMax = s.lineMax) : SessionInv t where
  awaiting := fun e => by
    obtain ⟨a, b, c⟩ := h.awaiting (h0 ▸ e)
    exact ⟨h1 ▸ a, ⟨h6 ▸ b.1, h7 ▸ b.2, h2 ▸ b.3, h5 ▸ b.4, h4 ▸ b.5, h3 ▸ b.6⟩, by unfold BufFits; rw [h11, h1]; exact c⟩
  receiving := fun e => by
    obtain ⟨a, b, c, d⟩ := h.receiving (h0 ▸ e)
    exact ⟨h3 ▸ a, h3 ▸ b, h1 ▸ c, by rw [h6, h7, d]⟩
  desync := fun e => by
    obtain ⟨a, b, c⟩ := h.desync (h0 ▸ e)
    exact ⟨h1 ▸ a, ⟨h6 ▸ b.1, h7 ▸ b.2, h2 ▸ b.3, h5 ▸ b.4, h4 ▸ b.5, h3 ▸ b.6⟩, h8 c⟩
  unkeyed := fun e => by
    rcases h9 with g | g
    · have := h.unkeyed (g ▸ e); rw [h0, h1]; exact this
    · simp [g] at e
  noTrace := h10

/-! ## Other writers (70_reset_and_hazards.md R311) -/

/-- Another writer's act on the sink keeps the invariant, where the handle stays, FS stays canonical and the held file is marked
or left alone. -/
theorem Inv.of_sink {s t : State} (h : Inv s) (k : RefSink) (d : Nat) (ht : t = { s with sink := k, draws := d })
    (hw : filesWf k.fs = true) (hc : k.cur = s.sink.cur)
    (hf : s.sinkHeld = true → k.disturbed = false →
      s.sink.disturbed = false ∧ ∀ n, s.sink.cur = some n → lookupFile k.fs n = lookupFile s.sink.fs n) : Inv t := by
  subst ht
  refine ⟨h.session.copy rfl rfl rfl rfl rfl rfl rfl rfl (fun e => e) (.inl rfl) h.session.noTrace rfl, h.key, hw, fun e => ?_⟩
  obtain ⟨c, w⟩ := h.sink.held e
  exact ⟨hc.trans c, fun e' => by simpa [(hf e e').2 _ c] using w (hf e e').1⟩

theorem Inv.disturbHeld {s : State} (h : Inv s) (name : Bytes) : Inv (s.disturbHeld name) :=
  h.of_sink _ _ rfl (s.sink.anyContents_wf name _ h.sink.canonical) (s.sink.anyContents_cur name _)
    (by simp [RefSink.disturb])

theorem Inv.outsideWrite {s : State} (h : Inv s) (name data : Bytes) : Inv (outsideWrite name data s) := by
  unfold Machine.outsideWrite
  split
  · exact h.disturbHeld name
  · rename_i hn
    refine h.of_sink _ s.draws rfl (putFile_wf _ _ _ h.sink.canonical) rfl fun hh hd => ⟨hd, fun n hc => ?_⟩
    exact lookupFile_putFile_of_ne _ _ _ _ fun e => hn (by simp [State.holds, hh, hc, e])

theorem Inv.outsideDelete {s : State} (h : Inv s) (name : Bytes) : Inv (outsideDelete name s) := by
  unfold Machine.outsideDelete
  split
  · exact h.disturbHeld name
  · rename_i hn
    refine h.of_sink _ s.draws rfl (dropFile_wf _ _ h.sink.canonical) rfl fun hh hd => ⟨hd, fun n hc => ?_⟩
    exact lookupFile_dropFile_of_ne _ _ _ fun e => hn (by simp [State.holds, hh, hc, e])

end Sys2Proof.Machine
end

