-- ==== Sys2Proof/Laws/PerInstr.lean ====
section
/-! SUPPORT. Statements made of every command, one lemma per constructor. -/

/-- A command takes `4 + LEN` bytes (30_encoding.md R91). -/
def Sys2Proof.Laws.EncodedLength.Statement (i : Sys2Proof.Instr) : Prop :=
  (Sys2Proof.encode i).length = 4 + i.payload.length

namespace Sys2Proof.Laws.EncodedLength

theorem encodeRaw_length (op flg : Byte) (p : Bytes) : (encodeRaw op flg p).length = 4 + p.length := by
  simp [encodeRaw, be16bytes]; omega

theorem setKey (p : Bytes) : Statement (.setKey p) := encodeRaw_length _ _ p
theorem encrypt (p : Bytes) : Statement (.encrypt p) := encodeRaw_length _ _ p
theorem decrypt (p : Bytes) : Statement (.decrypt p) := encodeRaw_length _ _ p
theorem ingest (p : Bytes) : Statement (.ingest p) := encodeRaw_length _ _ p
theorem disconnect (p : Bytes) : Statement (.disconnect p) := encodeRaw_length _ _ p
theorem getStatus (p : Bytes) : Statement (.getStatus p) := encodeRaw_length _ _ p
theorem illegal (op : Byte) (p : Bytes) : Statement (.illegal op p) := encodeRaw_length _ _ p
theorem illegalFlg (op flg : Byte) (p : Bytes) : Statement (.illegalFlg op flg p) := encodeRaw_length _ _ p

end Sys2Proof.Laws.EncodedLength
end

