-- ==== Sys2Proof/Tests/Slice0.lean ====
section
/-! SUPPORT. Tests against the worked values of spec/95_test_vectors.md and the encodings of spec/30_encoding.md, the
WellFormed smoke test, and for every obligation with hypotheses a witness that meets them. -/

namespace Sys2Proof.Tests

open Sys2Proof Sys2Proof.Machine

/-! ## Helpers -/

/-- `n` bytes written as one hex number, first byte first. -/
def hex (n w : Nat) : Bytes :=
  (List.range n).map fun i => BitVec.ofNat 8 (w >>> (8 * (n - 1 - i)))

/-- Profile SBOX_ID (92_eei_decisions.md D12). -/
def sboxId : SBox :=
  Vector.ofFn fun _ => Vector.ofFn fun x : Fin 16 => BitVec.ofNat 4 x.val

/-- Profile SBOX_ZERO (92_eei_decisions.md D12). -/
def sboxZero : SBox :=
  Vector.ofFn fun _ => Vector.ofFn fun _ => 0#4

/-- The rows of profile SBOX_TC26Z, the value for input 0 in the highest nibble (93_implementation_defined.md G2). -/
def tcRow (r : Nat) : Nat :=
  match r with
  | 0 => 0x17ED05834FA69CB2
  | 1 => 0x8E25691CF4B0DA37
  | 2 => 0x5DF692CAB78143E0
  | 3 => 0x7F5A816D093EB42C
  | 4 => 0xC821D4F670A53E9B
  | 5 => 0xB3582FADE174C960
  | 6 => 0x68239A5C1E47BD0F
  | _ => 0xC462A5B9E8D703F1

/-- Profile SBOX_TC26Z (92_eei_decisions.md D12). -/
def sboxTc : SBox :=
  Vector.ofFn fun r => Vector.ofFn fun x : Fin 16 => BitVec.ofNat 4 (tcRow r.val >>> (4 * (15 - x.val)))

/-- K_RFC, K_SEQ and K_ZERO (95_test_vectors.md). -/
def keyRfc : Bytes := hex 32 0xffeeddccbbaa99887766554433221100f0f1f2f3f4f5f6f7f8f9fafbfcfdfeff

def keySeq : Bytes := hex 32 0x000102030405060708090a0b0c0d0e0f101112131415161718191a1b1c1d1e1f

def keyZero : Bytes := List.replicate 32 0#8

/-- The machine after reset, with a profile's S-box and LINE_MAX = none. -/
def fresh (sbox : SBox) : State :=
  { State.reset with sbox := sbox, lineMax := none }

/-- The machine with a key loaded and the given answers to come. -/
def keyed (sbox : SBox) (key answers : Bytes) : State :=
  { (fresh sbox).loadKey (keyOperand key) with answers := answers }

/-- The machine in the middle of a body of one chunk: BUF, and the sink's answers to come. -/
def receiving (buf answers : Bytes) : State :=
  { keyed sboxId keyZero answers with
    phase := .receivingBody, buf := buf, fname := [0x61#8], origSize := 3#64, padSize := 8#64, remain := 8#64, sinkHeld := true,
    sink := { fs := [(Config.sinkName [0x61#8], [])], cur := some (Config.sinkName [0x61#8]), disturbed := false } }

/-- The machine after a protocol error. -/
def lost : State :=
  (keyed sboxId keyZero []).protocolError .fieldCount

/-- The state a step answers. -/
def after (o : Host.Outcome State Fault Refusal) : State :=
  match o with
  | .next t => t
  | .fault _ => fresh sboxId
  | .refused _ => fresh sboxId

/-- What the host received last. -/
def received (o : Host.Outcome State Fault Refusal) : Option CommandResult :=
  (after o).done.getLast?

/-- A failed command's result. -/
def failedResult (f : Failure) : CommandResult :=
  { response := { status := .failed f, rdata := [] }, trace := [] }

/-! ## The WellFormed smoke test: one ill-formed term per check -/

theorem test_payload_length_check (n : Nat) : (Instr.ingest (List.replicate n 0#8)).wf = decide (n < 65536) := by
  simp [Instr.wf, payloadFits]

theorem test_payload_65536_is_ill_formed : (Instr.ingest (List.replicate 65536 0#8)).wf = false :=
  (test_payload_length_check 65536).trans (by decide)

theorem test_payload_65535_is_well_formed : (Instr.ingest (List.replicate 65535 0#8)).wf = true :=
  (test_payload_length_check 65535).trans (by decide)

theorem test_illegal_with_defined_op_is_ill_formed :
    (Instr.illegal 0x01#8 []).wf = false ∧ (Instr.illegal 0x06#8 []).wf = false := by decide

theorem test_illegalFlg_with_zero_flg_is_ill_formed : (Instr.illegalFlg 0x06#8 0x00#8 []).wf = false := by decide

/-! ## Decoding: words written out from 30_encoding.md R90, R100 and R101 -/

theorem test_decode_setKey : decode (hex 4 0x01000020 ++ keyRfc) = .ok (.setKey keyRfc, []) := by decide

theorem test_decode_encrypt :
    decode (hex 12 0x02000008fedcba9876543210) = .ok (.encrypt (hex 8 0xfedcba9876543210), []) := by decide

theorem test_decode_decrypt :
    decode (hex 12 0x030000084ee901e5c2d8ca3d) = .ok (.decrypt (hex 8 0x4ee901e5c2d8ca3d), []) := by decide

theorem test_decode_ingest :
    decode (hex 11 0x04000007544558543a780a) = .ok (.ingest (hex 7 0x544558543a780a), []) := by decide

theorem test_decode_disconnect : decode (hex 8 0x0500000006000000) = .ok (.disconnect [], hex 4 0x06000000) := by decide

theorem test_decode_getStatus : decode (hex 4 0x06000000) = .ok (.getStatus [], []) := by decide

/-- Every row of the table that is an ILLEGAL row, at the lowest and the highest opcode it matches. -/
theorem test_decode_illegal :
    [0x00, 0x07, 0x08, 0x0F, 0x10, 0x1F, 0x20, 0x3F, 0x40, 0x7F, 0x80, 0xFF].map (fun op => decodeTableWord 32 (op * 2 ^ 24)) =
      [0x00#8, 0x07#8, 0x08#8, 0x0F#8, 0x10#8, 0x1F#8, 0x20#8, 0x3F#8, 0x40#8, 0x7F#8, 0x80#8, 0xFF#8].map
        (fun op => some (Instr.illegal op [])) := by decide

theorem test_decode_illegalFlg :
    decode (hex 4 0x06010000) = .ok (.illegalFlg 0x06#8 0x01#8 [], []) ∧
    decode (hex 6 0x01FF0002AABB) = .ok (.illegalFlg 0x01#8 0xFF#8 [0xAA#8, 0xBB#8], []) := by decide

/-- Table words are numbered as the table numbers them, and a table word is the first command after reset. -/
theorem test_decodeTableWord :
    decodeTableWord 32 0x06000000 = some (.getStatus []) ∧ decodeTableWord 32 0x04000002 = some (.ingest [0#8, 0#8]) ∧
    decodeTableWord 40 0xAA04000001 = some (.ingest [0xAA#8]) := by decide

theorem test_withFetchWord_runs_first :
    step (State.reset.withFetchWord 32 0x06000000) = exec (.getStatus []) State.reset := rfl

theorem test_encode : encode (.encrypt (hex 8 0xfedcba9876543210)) = hex 12 0x02000008fedcba9876543210 := by decide

/-! ## SET_KEY (95_test_vectors.md 2.1) -/

theorem test_setKey_schedule :
    ((after (exec (.setKey keyRfc) (fresh sboxTc))).ks.toList.map be32bytes).flatten =
      keyRfc ++ keyRfc ++ keyRfc ++ hex 32 0xfcfdfefff8f9fafbf4f5f6f7f0f1f2f33322110077665544bbaa9988ffeeddcc := by decide

theorem test_setKey_checks_length_first :
    received (exec (.setKey (List.replicate 31 0#8)) (keyed sboxTc keyRfc [])) = some (failedResult .keyLen) ∧
    status (after (exec (.setKey keyZero) (keyed sboxTc keyRfc []))) = 0x00001001#32 := by decide

/-! ## The round function and the cipher (95_test_vectors.md 2.2, 2.3) -/

theorem test_substitute :
    substitute sboxTc 0x00000000#32 = 0x1857cb6c#32 ∧ substitute sboxTc 0xfdb97531#32 = 0x2a196f34#32 ∧
    substitute sboxTc 0xffffffff#32 = 0x270cb0f1#32 := by decide

theorem test_roundG :
    roundG sboxId 0x12345678#32 0x00000000#32 = 0xa2b3c091#32 ∧ roundG sboxId 0xffffffff#32 0x00000001#32 = 0x00000000#32 ∧
    roundG sboxTc 0xfedcba98#32 0x87654321#32 = 0xfdcbc20c#32 := by decide

theorem test_encrypt :
    received (exec (.encrypt (hex 8 0xfedcba9876543210)) (keyed sboxTc keyRfc [])) =
      some (okResult (hex 8 0x4ee901e5c2d8ca3d) []) := by decide

theorem test_encrypt_sbox_id :
    received (exec (.encrypt (hex 8 0xffffffffffffffff)) (keyed sboxId keySeq [])) =
      some (okResult (hex 8 0x6bea679df164bef7) []) := by decide

theorem test_decrypt :
    received (exec (.decrypt (hex 8 0xfedcba9876543210)) (keyed sboxTc keyRfc [])) =
      some (okResult (hex 8 0xd4b031eb50814b26) []) := by decide

theorem test_decrypt_checks_length_first :
    received (exec (.decrypt (hex 7 0)) (fresh sboxTc)) = some (failedResult .blockLen) ∧
    received (exec (.decrypt (hex 8 0)) (fresh sboxTc)) = some (failedResult .noKey) := by decide

/-! ## Headers (95_test_vectors.md 2.4): the lines in ASCII -/

/-- `FILE:a.txt:5:8`, `FILE::5:8`, `FILE:x:007:008`. -/
theorem test_parse_file :
    parseHeader (hex 14 0x46494c453a612e7478743a353a38) = .file (hex 5 0x612e747874) 5#64 8#64 ∧
    parseHeader (hex 9 0x46494c453a3a353a38) = .file [] 5#64 8#64 ∧
    parseHeader (hex 14 0x46494c453a783a3030373a303038) = .file [0x78#8] 7#64 8#64 := by decide

/-- `FILE:x:8:7`, `FILE:x:5:8:9`, `FILE:x::8`, `FILE:x:5:`, `FILE`, and `file:x:5:8`. -/
theorem test_parse_errors :
    parseHeader (hex 10 0x46494c453a783a383a37) = .error .padNotMult8 ∧
    parseHeader (hex 12 0x46494c453a783a353a383a39) = .error .fieldCount ∧
    parseHeader (hex 9 0x46494c453a783a3a38) = .error .origNotNumeric ∧
    parseHeader (hex 9 0x46494c453a783a353a) = .error .padNotNumeric ∧
    parseHeader (hex 4 0x46494c45) = .error .unrecognizedPrefix ∧
    parseHeader (hex 10 0x66696c653a783a353a38) = .error .unrecognizedPrefix := by decide

/-- `FILE:x:99999999999999999999:7` and `FILE:x:18446744073709551615:8`. -/
theorem test_parse_sizes :
    parseHeader (hex 29 0x46494c453a783a39393939393939393939393939393939393939393a37) = .error .sizeRange ∧
    parseHeader (hex 29 0x46494c453a783a31383434363734343037333730393535313631353a38) =
      .file [0x78#8] 0xFFFFFFFFFFFFFFFF#64 8#64 := by decide

/-! ## INGEST (95_test_vectors.md 3) -/

/-- Program B's first fragment: a text, a header, and 3 bytes of the body. -/
theorem test_ingest_fragment :
    let t := after (exec (.ingest (hex 26 0x544558543a68690a46494c453a612e7478743a353a380a1f6ce8)) (keyed sboxTc keyZero [0#8]))
    t.done = [okResult [] [.event (.text (hex 2 0x6869)), .sink (.sopen (Config.sinkName (hex 5 0x612e747874)))]] ∧
    status t = 0x0000000b#32 ∧ t.buf = hex 3 0x1f6ce8 ∧ t.remain = 8#64 := ⟨rfl, by decide, by decide, by decide⟩

/-- Program E: a write that fails; the body is dropped and the text behind it delivered. -/
theorem test_ingest_write_failure :
    let t := after (exec (.ingest (hex 36 0x46494c453a663a383a31360a759e134fa3c0be8f3537fabad5ca4262544558543a6f6b0a))
      (keyed sboxTc keyZero [0#8, 1#8, 0#8, 0#8]))
    (t.done.map fun r => r.trace.map TraceItem.code) = [[0x20#8, 0x21#8, 0x14#8, 0x23#8, 0x24#8, 0x10#8]] ∧
    status t = 0x00008001#32 ∧ t.answers = [] := by decide

/-! ## DISCONNECT, GET_STATUS and the reserved encodings (95_test_vectors.md 2.7, programs C and D) -/

theorem test_disconnect_abandons_file :
    let t := after (exec (.disconnect []) (receiving [] [0#8, 0#8]))
    t.done = [okResult [] [.sink .sclose, .sink .sdelete, .event .connLost]] ∧ status t = 0x00000001#32 := by decide

theorem test_disconnect_needs_no_key :
    received (exec (.disconnect []) (fresh sboxTc)) = some (okResult [] [.event .connLost]) ∧
    received (exec (.disconnect [0#8]) (fresh sboxTc)) = some (failedResult .illegalCmd) := by decide

theorem test_getStatus :
    received (exec (.getStatus []) (receiving [] [])) = some (okResult (hex 4 0x0000000b) []) ∧
    received (exec (.getStatus []) lost) = some (okResult (hex 4 0x00004005) []) := by decide

theorem test_illegal :
    received (exec (.illegal 0xFF#8 (hex 3 0x010203)) lost) = some (failedResult .illegalCmd) ∧
    status (after (exec (.illegal 0x07#8 []) (fresh sboxTc))) = 0x00000100#32 := by decide

theorem test_illegalFlg :
    received (exec (.illegalFlg 0x06#8 0x01#8 []) (fresh sboxTc)) = some (failedResult .illegalCmd) := by decide

/-! ## The send path and the ports (95_test_vectors.md 2.5, 2.6; 30_encoding.md R95) -/

theorem test_pad :
    (pad (hex 5 0x68656c6c6f) = hex 8 0x68656c6c6f030303) ∧ (pad (hex 13 0)).drop 13 = hex 3 0x030303 ∧ pad [] = [] := by decide

theorem test_serializeFile :
    serializeFile sboxTc (schedule (keyOperand keyZero)) (hex 5 0x612e747874) (hex 5 0x68656c6c6f) =
      some (hex 23 0x46494c453a612e7478743a353a380a1f6ce845038ec8c3) := by decide

theorem test_response_bytes :
    Response.bytes { status := .ok, rdata := hex 4 0x0000000b } = hex 8 0x000000040000000b := by decide

theorem test_trace_item_bytes :
    TraceItem.bytes (.sink (.strunc 5#64)) = hex 13 0x22000000080000000000000005 := by decide

/-- `INGEST_FILE "a.txt", 0x68656c6c6f` and after it `SET_KEY_ZERO`: the frame is encrypted with the key of the program's last
SET_KEY, wherever it stands (30_encoding.md R107; the frame is the one of 95_test_vectors.md 2.6). -/
theorem test_assemble_ingestFile :
    let chars (n w : Nat) : List Char := (hex n w).map fun b => Char.ofNat b.toNat
    assemble sboxTc [chars 33 0x494e474553545f46494c452022612e747874222c20307836383635366336633666,
        chars 12 0x5345545f4b45595f5a45524f] =
      some (hex 27 0x0400001746494c453a612e7478743a353a380a1f6ce845038ec8c3 ++ hex 4 0x01000020 ++ keyZero) := by decide

/-- A reset with a sink held leaves the sink (70_reset_and_hazards.md R301). -/
theorem test_reset_keeps_sink :
    let s := hostReset (receiving [] [0#8])
    (after (step s)).sink = s.sink ∧ status (after (step s)) = 0x00000000#32 := ⟨rfl, by decide⟩

/-- Another writer's write marks the held file, and not another; the next SOPEN opens a file of the engine's own
(70_reset_and_hazards.md R311, 20_memory.md R80). -/
theorem test_outsideWrite_disturbs_held_file :
    (outsideWrite (Config.sinkName [0x61#8]) [0x01#8] (receiving [] [])).sink.disturbed = true ∧
    (outsideWrite [0x61#8] [0x01#8] (keyed sboxId keyZero [])).sink = { fs := [([0x61#8], [0x01#8])], cur := none, disturbed := false } ∧
    (RefSink.apply (RefSink.disturb State.reset.sink [0x61#8] 5) 6 (.sopen [0x61#8])).disturbed = false := by
  refine ⟨?_, rfl, rfl⟩
  simp [outsideWrite, State.holds, receiving, State.disturbHeld, RefSink.disturb]

/-! ## Witnesses: states and operands that meet the obligations' hypotheses, clause by clause -/

theorem witness_DecodeUndoesEncode :
    (Instr.ingest (List.replicate 65535 0#8)).wf = true ∧ (Instr.illegal 0x00#8 []).wf = true ∧
    (Instr.illegal 0x07#8 []).wf = true ∧ (Instr.illegal 0xFF#8 []).wf = true ∧ (Instr.illegalFlg 0x06#8 0x01#8 []).wf = true ∧
    (Instr.setKey []).wf = true :=
  ⟨test_payload_65535_is_well_formed, by decide, by decide, by decide, by decide, by decide⟩

theorem witness_DecodedCommandEncodesBack : decode (hex 5 0x0700000000) = .ok (.illegal 0x07#8 [], [0x00#8]) := by decide

theorem witness_PartialCommandWaits :
    (hex 3 0x060000).length < 4 ∧ (List.replicate 255 (0#8 : Byte)).length < 256 * (0x01#8).toNat + (0x00#8).toNat ∧
    256 * (0x01#8).toNat + (0x00#8).toNat ≤ (List.replicate 256 (0#8 : Byte)).length ∧
    ∃ s : State, s.resetReq = false ∧ ∃ e, decode s.cmdIn = .error e :=
  ⟨by decide, by rw [List.length_replicate]; decide, by rw [List.length_replicate]; decide, { fresh sboxId with cmdIn := hex 3 0x060000 }, rfl, .headerIncomplete, rfl⟩

theorem witness_HeaderSelectsCommand :
    (hex 0 0).length = 256 * (0x00#8).toNat + (0x00#8).toNat ∧ (List.replicate 256 (0#8 : Byte)).length = 256 * (0x01#8).toNat + (0x00#8).toNat ∧
    (0x01#8 : Byte) ≠ 0x00#8 ∧ (0x00#8 : Byte).toNat = 0 ∧ 7 ≤ (0x07#8 : Byte).toNat :=
  ⟨by decide, by rw [List.length_replicate]; decide, by decide, by decide, by decide⟩

theorem witness_StepRunsDecodedCommand :
    let s := { fresh sboxId with cmdIn := hex 5 0x0600000005 }
    s.resetReq = false ∧ decode s.cmdIn = .ok (.getStatus [], [0x05#8]) := ⟨rfl, rfl⟩

theorem witness_ResetStepClearsEngineOnly : (hostReset (receiving [] [])).resetReq = true := rfl

theorem witness_SetKeyLoadsKeyOnce :
    (hex 31 0).length ≠ 32 ∧ (hex 33 0).length ≠ 32 ∧ (hex 32 0).length = 32 ∧ (keyed sboxId keyRfc []).keyValid = true ∧
    (fresh sboxId).keyValid = false := ⟨by decide, by decide, by decide, rfl, rfl⟩

theorem witness_PalindromicKeyEqualsDirections :
    ∀ j < 8, keyWord (keyOperand keyZero) j = keyWord (keyOperand keyZero) (7 - j) := by decide

theorem witness_KeyIsFixedOnceLoaded :
    (∃ t, exec (.setKey keyZero) (keyed sboxId keyRfc []) = .next t) ∧ (keyed sboxId keyRfc []).keyValid = true ∧
    (∃ t, exec (.ingest []) (keyed sboxId keyRfc []) = .next t) ∧ ∀ p, Instr.ingest [] ≠ .setKey p :=
  ⟨exec_total _ _, rfl, exec_total _ _, fun _ h => by cases h⟩

theorem witness_RotationMovesEveryBit : 0 < 32 ∧ 31 < 32 := by decide

theorem witness_RoundFunctionAddsSubstitutesRotates :
    (0#32 : Word).toNat = ((0xffffffff#32 : Word).toNat + (1#32 : Word).toNat) % 2 ^ 32 ∧
    (0xffffffff#32 : Word).toNat = ((0xffffffff#32 : Word).toNat + (0#32 : Word).toNat) % 2 ^ 32 := by decide

theorem witness_CryptIsThirtyTwoFeistelRounds :
    let ks := schedule (keyOperand keyZero)
    let l : Nat → Word := fun _ => 0#32
    let r : Nat → Word := fun _ => 0#32
    l 0 = 0#8 ++ 0#8 ++ 0#8 ++ 0#8 ∧ r 0 = 0#8 ++ 0#8 ++ 0#8 ++ 0#8 ∧
    ∀ i : Fin 32, l (i.val + 1) = r i.val ∧
      r (i.val + 1) = l i.val ^^^ roundG sboxZero (r i.val) (ks.get (if Dir.decrypt = .encrypt then i else 31 - i)) := by decide

theorem witness_DecryptUndoesEncrypt : (hex 8 0xfedcba9876543210).length = 8 := by decide

theorem witness_CipherIntegerLaws :
    2 ^ 32 ≤ (0xffffffff#32 : Word).toNat + (1#32 : Word).toNat ∧
    (0xffffffff#32 : Word).toNat + (0#32 : Word).toNat < 2 ^ 32 := by decide

theorem witness_EncryptReturnsCiphertext :
    (hex 7 0).length ≠ 8 ∧ (hex 9 0).length ≠ 8 ∧ (hex 8 0).length = 8 ∧ (fresh sboxTc).keyValid = false ∧
    (keyed sboxTc keyRfc []).keyValid = true := ⟨by decide, by decide, by decide, rfl, rfl⟩

theorem witness_DecryptReturnsPlaintext :
    (hex 0 0).length ≠ 8 ∧ (hex 8 0).length = 8 ∧ (fresh sboxTc).keyValid = false ∧
    (keyed sboxTc keyRfc []).keyValid = true := ⟨by decide, by decide, rfl, rfl⟩

theorem witness_CipherCommandsRepeatAndInvert :
    (∃ t u, exec (.getStatus []) (keyed sboxTc keyRfc []) = .next t ∧ exec (.getStatus []) t = .next u) ∧
    ∃ t, exec (.encrypt (hex 8 0)) (keyed sboxTc keyRfc []) = .next t ∧
      t.done = [] ++ [okResult (crypt sboxTc (schedule (keyOperand keyRfc)) .encrypt (hex 8 0)) []] :=
  ⟨⟨_, _, rfl, rfl⟩, _, rfl, rfl⟩

/-- A command that fails, and what the host receives: for the obligations over one command and its result. -/
theorem witness_failed_result :
    ∃ t, exec (.illegalFlg 0x06#8 0x01#8 []) (fresh sboxId) = .next t ∧
      t.done = (fresh sboxId).done ++ [failedResult .illegalCmd] := ⟨_, rfl, rfl⟩

/-- A command that meets a protocol error: the same. -/
theorem witness_protocol_error_result :
    ∃ t, exec (.ingest [0x0A#8]) (keyed sboxId keyZero []) = .next t ∧
      t.done = (keyed sboxId keyZero []).done ++ [okResult [] [.event (.protocolError .unrecognizedPrefix)]] := ⟨_, rfl, rfl⟩

/-- A command that delivers a file: the same. -/
theorem witness_delivered_result :
    let s := { receiving [] [0#8, 0#8] with remain := 0#64 }
    ∃ t, exec (.ingest []) s = .next t ∧
      t.done = s.done ++ [okResult [] ([.sink (.strunc 3#64), .sink .sclose] ++ .event (.file (Config.sinkName [0x61#8])) :: [])] :=
  ⟨_, rfl, rfl⟩

theorem witness_StickyBitsRecordEveryError :
    ∃ (t : State) (res : CommandResult), exec (.ingest [0x0A#8]) (keyed sboxId keyZero []) = .next t ∧
      t.done = (keyed sboxId keyZero []).done ++ [res] ∧ 6 < 8 ∧ RaisesBit res 6 :=
  ⟨_, _, rfl, rfl, by decide, .inr (.inl ⟨rfl, .unrecognizedPrefix, by decide⟩)⟩

theorem witness_FirstFailureIsReported :
    (Instr.illegalFlg 0x06#8 0x01#8 []).wf = true ∧
    ∃ (t : State) (res : CommandResult), exec (.illegalFlg 0x06#8 0x01#8 []) (fresh sboxId) = .next t ∧
      t.done = (fresh sboxId).done ++ [res] := ⟨by decide, _, _, rfl, rfl⟩

theorem witness_FailedCommandChangesOnlyItsBit :
    ∃ (t : State) (res : CommandResult), exec (.illegal 0x07#8 []) (fresh sboxId) = .next t ∧
      t.done = (fresh sboxId).done ++ [res] ∧ res.response.status = .failed .illegalCmd := ⟨_, _, rfl, rfl, rfl⟩

theorem witness_OtherCommandsLeaveSessionAlone :
    isSessionCommand (.getStatus []) = false ∧ ∃ t, exec (.getStatus []) (receiving [] []) = .next t := ⟨rfl, exec_total _ _⟩

theorem witness_HeaderFormByPrefix :
    let line := hex 5 0x66696c653a
    line.take 5 ≠ [0x54#8, 0x45#8, 0x58#8, 0x54#8, 0x3A#8] ∧ line.take 5 ≠ [0x46#8, 0x49#8, 0x4C#8, 0x45#8, 0x3A#8] := by decide

theorem witness_FileHeaderChecksInOrder :
    (fileTag.take 5 = fileTag ∧ fileTag.count 0x3A#8 ≠ 3) ∧ ((0x3A#8 : Byte) ∉ [0x78#8] ∧ (0x3A#8 : Byte) ∉ hex 20 0) ∧
    parseDec [] = .notNumeric ∧ parseDec (hex 20 0x3138343436373434303733373039353531363136) = .outOfRange ∧
    parseDec (hex 20 0x3138343436373434303733373039353531363135) = .value 0xFFFFFFFFFFFFFFFF#64 ∧
    parseDec [0x37#8] = .value 7#64 ∧ parseDec [0x38#8] = .value 8#64 ∧ (7#64 : U64).toNat % 8 ≠ 0 ∧
    (8#64 : U64).toNat % 8 = 0 := by decide

theorem witness_DecimalSizeParses :
    (∃ b ∈ [(0x2F#8 : Byte)], b.toNat < 0x30 ∨ 0x39 < b.toNat) ∧ (∃ b ∈ [(0x3A#8 : Byte)], b.toNat < 0x30 ∨ 0x39 < b.toNat) ∧
    ([0, 9] ≠ ([] : List Nat) ∧ ∀ d ∈ [0, 9], d < 10) ∧
    Nat.ofDigits 10 [1, 8, 4, 4, 6, 7, 4, 4, 0, 7, 3, 7, 0, 9, 5, 5, 1, 6, 1, 5].reverse < 2 ^ 64 ∧
    2 ^ 64 ≤ Nat.ofDigits 10 [1, 8, 4, 4, 6, 7, 4, 4, 0, 7, 3, 7, 0, 9, 5, 5, 1, 6, 1, 6].reverse := by decide

theorem witness_HeaderRoundTrip :
    (0x3A#8 : Byte) ∉ hex 5 0x612e747874 ∧ (0x0A#8 : Byte) ∉ hex 5 0x612e747874 ∧ (8#64 : U64).toNat % 8 = 0 := by decide

theorem keyed_inv : Inv (keyed sboxId keyZero []) :=
  ⟨⟨fun _ => ⟨by decide, ⟨rfl, rfl, rfl, rfl, rfl, rfl⟩, by simp [BufFits, keyed, fresh]⟩, by simp [keyed, fresh, State.reset],
    by simp [keyed, fresh, State.reset], by simp [keyed], rfl⟩, fun _ => rfl, ⟨rfl, by simp [keyed, fresh, State.reset]⟩⟩

theorem witness_IngestAppendsAndRunsLoop :
    (fresh sboxId).keyValid = false ∧ (lost.keyValid = true ∧ lost.phase = .desynchronized) ∧
    Inv (keyed sboxId keyZero []) ∧ (keyed sboxId keyZero []).keyValid = true ∧
    (keyed sboxId keyZero []).phase ≠ .desynchronized := ⟨rfl, ⟨rfl, rfl⟩, keyed_inv, rfl, by decide⟩

theorem witness_ReceiveLoopRunsToSuspension :
    (fresh sboxId).phase = .awaitingHeader ∧ (receiving [] []).phase = .receivingBody ∧ lost.phase = .desynchronized :=
  ⟨rfl, rfl, rfl⟩

/-- At LINE_MAX = 8: a buffer of 8 and of 9 bytes without a line, and a line of 8 and of 9 bytes. -/
theorem witness_HeaderStepByLine :
    let s (b : Bytes) := { keyed sboxId keyZero [] with buf := b, lineMax := some 8 }
    (s []).phase = .awaitingHeader ∧ ((0x0A#8 : Byte) ∉ (s (hex 8 0)).buf ∧ (s (hex 8 0)).buf.length ≤ 8) ∧
    ((0x0A#8 : Byte) ∉ (s (hex 9 0)).buf ∧ 8 < (s (hex 9 0)).buf.length) ∧
    ((s (hex 9 0 ++ [0x0A#8])).buf = hex 9 0 ++ 0x0A#8 :: [] ∧ 8 < (hex 9 0).length) ∧
    ((s (hex 9 0x544558543a6162630a)).buf = hex 8 0x544558543a616263 ++ 0x0A#8 :: [] ∧
      parseHeader (hex 8 0x544558543a616263) = .text (hex 3 0x616263)) ∧
    parseHeader (hex 8 0x46494c453a3a303a) = .error .padNotNumeric ∧ parseHeader [] = .error .unrecognizedPrefix ∧
    parseHeader (hex 10 0x46494c453a783a303a30) = .file [0x78#8] 0#64 0#64 := by decide

theorem witness_FileFrameOpensSink :
    (keyed sboxId keyZero [0#8]).sinkHeld = false ∧ (keyed sboxId keyZero [0#8]).answers = 0#8 :: [] ∧
    (keyed sboxId keyZero [1#8]).sinkHeld = false ∧ (keyed sboxId keyZero [1#8]).answers = 1#8 :: [] := ⟨rfl, rfl, rfl, rfl⟩

theorem witness_BodyStepByChunk :
    (receiving [] []).phase = .receivingBody ∧ ({ receiving [] [] with remain := 0#64 } : State).remain = 0#64 ∧
    ((receiving (hex 7 0) []).remain ≠ 0#64 ∧ (receiving (hex 7 0) []).buf.length < 8) ∧
    (8 ≤ (receiving (hex 8 0) []).buf.length ∧ (receiving (hex 8 0) []).sinkFailed = false ∧
      ({ receiving (hex 8 0) [] with sinkFailed := true } : State).sinkFailed = true) := by decide

theorem witness_ChunkIsDecryptedAndWritten :
    (receiving [] [0#8]).sinkHeld = true ∧ (receiving [] [0#8]).answers = 0#8 :: [] ∧
    (receiving [] [1#8, 0#8, 0#8]).answers = 1#8 :: [0#8, 0#8] := ⟨rfl, rfl, rfl⟩

theorem witness_CompletionTruncatesClosesDelivers :
    (receiving [] [0#8, 0#8]).sinkHeld = !(receiving [] [0#8, 0#8]).sinkFailed ∧
    (receiving [] [0#8, 0#8]).sinkFailed = false ∧ (receiving [] [0#8, 0#8]).answers = 0#8 :: 0#8 :: [] ∧
    (receiving [] [0#8, 1#8]).answers = 0#8 :: 1#8 :: [] ∧ (receiving [] [1#8, 0#8]).answers = 1#8 :: 0#8 :: [] ∧
    (receiving [] [1#8]).answers = 1#8 :: [] ∧
    (let s := { receiving [] [] with sinkHeld := false, sinkFailed := true }
     s.sinkHeld = !s.sinkFailed ∧ s.sinkFailed = true) := ⟨rfl, rfl, rfl, rfl, rfl, rfl, rfl, rfl⟩

/-- A sink held in RECEIVING_BODY, with SDELETE to be answered `ok` and `fail`; SCLOSE failed, so SDELETE's answer is next;
and another file. -/
theorem witness_ErrorsInsideTheLoop :
    (receiving [] []).sinkHeld = true ∧
    (receiving [] [1#8, 0#8]).answers = (if SinkKind.swrite = .sclose then [0#8] else [1#8, 0#8]) ++ [] ∧
    (receiving [] [0#8, 1#8]).answers = (if SinkKind.strunc = .sclose then [1#8] else [0#8, 1#8]) ++ [] ∧
    (receiving [] [0#8]).answers = (if SinkKind.sclose = .sclose then [0#8] else [1#8, 0#8]) ++ [] ∧
    (receiving [] [0xFF#8]).answers = (if SinkKind.sclose = .sclose then [0xFF#8] else [0#8, 0xFF#8]) ++ [] ∧
    (0xFF#8 : Byte) ≠ 0x00#8 ∧ (receiving [] []).sink.cur = some (Config.sinkName [0x61#8]) ∧
    (receiving [] []).sink.cur ≠ some (0x00#8 :: Config.sinkName [0x61#8]) ∧ (fresh sboxId).sink.cur ≠ some [] :=
  ⟨rfl, rfl, rfl, rfl, rfl, by decide, rfl, by simp [receiving], by simp [fresh, State.reset]⟩

theorem witness_DisconnectResetsSession :
    [0#8].length ≠ 0 ∧ ([] : Bytes).length = 0 ∧ ¬(lost.phase = .receivingBody ∧ lost.sinkHeld = true) ∧
    (receiving [] []).phase = .receivingBody ∧ (receiving [] []).sinkHeld = true ∧
    (receiving [] [1#8, 0#8]).answers = 1#8 :: 0x00#8 :: [] ∧ (receiving [] [0#8, 1#8]).answers = 0#8 :: 1#8 :: [] ∧
    (1#8 : Byte) ≠ 0x00#8 ∧ (receiving [] []).sink.cur = some (Config.sinkName [0x61#8]) ∧
    (receiving [] []).sink.cur ≠ some (0x00#8 :: Config.sinkName [0x61#8]) :=
  ⟨by decide, rfl, by decide, rfl, rfl, rfl, rfl, by decide, rfl, by simp [receiving]⟩

theorem witness_OnlyDisconnectEndsDesync :
    (∃ t, exec (.disconnect []) lost = .next t ∧ lost.phase = .desynchronized ∧ t.phase ≠ .desynchronized) ∧
    ∃ t, exec (.ingest [0x0A#8]) (keyed sboxId keyZero []) = .next t ∧
      (keyed sboxId keyZero []).phase ≠ .desynchronized ∧ t.phase = .desynchronized :=
  ⟨⟨_, rfl, rfl, by decide⟩, _, rfl, by decide, rfl⟩

theorem witness_TextFramesDeliveredInOrder :
    let s := { keyed sboxId keyZero [] with lineMax := some 7 }
    s.keyValid = true ∧ s.phase = .awaitingHeader ∧ s.buf = [] ∧ (∀ m ∈ [hex 2 0x6869, []], (0x0A#8 : Byte) ∉ m) ∧
    (∀ m ∈ [hex 2 0x6869, []], m.length + 5 ≤ 7) ∧
    ∃ t, exec (.ingest ([hex 2 0x6869, []].flatMap fun m => textTag ++ m ++ [0x0A#8])) s = .next t :=
  ⟨rfl, rfl, rfl, by decide, by decide, exec_total _ _⟩

theorem witness_FragmentationInvariance :
    let s := keyed sboxId keyZero []
    let ps := [hex 6 0x544558543a68, hex 2 0x690a]
    let qs := [hex 8 0x544558543a68690a]
    s.keyValid = true ∧ s.phase = .awaitingHeader ∧ s.buf = [] ∧ ps.flatten = qs.flatten ∧
    (∃ t, runCommands (ps.map .ingest) s = .next t) ∧ ∃ u, runCommands (qs.map .ingest) s = .next u :=
  ⟨rfl, rfl, rfl, by decide, runCommands_total _ _, runCommands_total _ _⟩

theorem witness_FileRoundTrip :
    let s := { keyed sboxTc keyZero [0#8, 0#8, 0#8, 0#8] with lineMax := some 14 }
    let ps := [hex 20 0x46494c453a612e7478743a353a380a1f6ce84503, hex 3 0x8ec8c3]
    s.keyValid = true ∧ s.phase = .awaitingHeader ∧ s.buf = [] ∧
    serializeFile s.sbox s.ks (hex 5 0x612e747874) (hex 5 0x68656c6c6f) = some ps.flatten ∧
    (fileHeaderLine (hex 5 0x612e747874) (BitVec.ofNat 64 (hex 5 0).length) (BitVec.ofNat 64 (pad (hex 5 0)).length)).length ≤ 14 ∧
    NextAnswersOk (3 + (pad (hex 5 0)).length / 8) s ∧ ∃ t, runCommands (ps.map .ingest) s = .next t :=
  ⟨rfl, rfl, rfl, by decide, by decide, ⟨[], rfl⟩, runCommands_total _ _⟩

theorem witness_ReferenceSinkOperations :
    let k : RefSink := { fs := [([0x61#8], hex 8 0)], cur := some [0x61#8], disturbed := false }
    k.cur = some [0x61#8] ∧ k.disturbed = false ∧ lookupFile k.fs [0x61#8] = some (hex 8 0) ∧ ([0x62#8] : Bytes) ≠ [0x61#8] ∧
    (8#64 : U64).toNat ≤ (hex 8 0).length ∧ (hex 8 0).length < (9#64 : U64).toNat ∧
    (receiving [] [1#8]).answers = 1#8 :: [] ∧ (1#8 : Byte) ≠ 0x00#8 ∧ (receiving [] [0#8]).answers = 0x00#8 :: [] := by decide

theorem witness_OnlyTheHeldFileIsTouched :
    ∃ (t : State) (res : CommandResult), exec (.ingest [0x0A#8]) (keyed sboxId keyZero []) = .next t ∧
      t.done = (keyed sboxId keyZero []).done ++ [res] ∧ (keyed sboxId keyZero []).sink.cur ≠ some [] ∧
      TraceItem.sink (.sopen []) ∉ res.trace ∧ ∀ op, TraceItem.sink op ∉ res.trace := by
  refine ⟨_, okResult [] [.event (.protocolError .unrecognizedPrefix)], rfl, rfl, by simp [keyed, fresh, State.reset],
    by simp [okResult], by simp [okResult]⟩

/-- Between commands, with no sink held: CUR still names a file delivered before, and the command opens none. -/
theorem witness_OnlyTheHeldFileIsTouched_delivered :
    let s := { keyed sboxId keyZero [] with sink := { fs := [([0x61#8], [0x01#8])], cur := some [0x61#8], disturbed := false } }
    Inv s ∧ s.sinkHeld = false ∧ s.sink.cur = some [0x61#8] ∧
    ∃ (t : State) (res : CommandResult), exec (.ingest [0x0A#8]) s = .next t ∧ t.done = s.done ++ [res] ∧
      TraceItem.sink (.sopen [0x61#8]) ∉ res.trace :=
  ⟨⟨keyed_inv.session.copy rfl rfl rfl rfl rfl rfl rfl rfl (fun e => e) (.inl rfl) rfl rfl, fun _ => rfl, ⟨rfl, by simp [keyed, fresh, State.reset]⟩⟩,
    rfl, rfl, _, okResult [] [.event (.protocolError .unrecognizedPrefix)], rfl, rfl, by simp [okResult]⟩

theorem witness_ResponseWireForm : (List.replicate 65535 (0#8 : Byte)).length < 65536 := by
  rw [List.length_replicate]; decide

theorem witness_TraceItemWireForm :
    (hex 8 5).length < 2 ^ 32 ∧ hex 8 5 = [0x00#8, 0x00#8, 0x00#8, 0x00#8, 0x00#8, 0x00#8, 0x00#8, 0x05#8] ∧ ([] : Bytes).length < 2 ^ 32 := by decide

theorem witness_PaddingLaws :
    (hex 8 0 ≠ [] ∧ (hex 8 0).length % 8 = 0) ∧ (hex 1 0 ≠ [] ∧ (hex 1 0).length % 8 ≠ 0) ∧ (hex 7 0).length % 8 ≠ 0 := by decide

theorem witness_EveryStepKeepsInvariant :
    ∃ t, Inv (keyed sboxId keyZero []) ∧ step (keyed sboxId keyZero []) = .next t := ⟨_, keyed_inv, rfl⟩

theorem witness_KeyAndDatapathAreHidden : ∃ t, step (hostReset (receiving [] [])) = .next t := ⟨_, rfl⟩

end Sys2Proof.Tests
end

/-! PROOFS of the family 00_scope.md: what a step does, the wire form of a trace item, and that KEY and the datapath
registers stay hidden. -/

namespace Sys2Proof.Machine

/-! ## What a step does (00_scope.md R11, 70_reset_and_hazards.md R300, 30_encoding.md R91) -/

section
variable {s : State}

theorem step_of_reset (h : s.resetReq = true) : step s = .next s.resetFrom := by
  simp [step, h]

theorem step_of_decode_error {e : DecodeError} (hr : s.resetReq = false) (hd : decode s.cmdIn = .error e) :
    step s = .next s := by
  simp [step, State.fetch, hr, hd]

theorem step_of_decode_ok {i : Instr} {rest : Bytes} (hr : s.resetReq = false) (hd : decode s.cmdIn = .ok (i, rest)) :
    step s = exec i { s with cmdIn := rest } := by
  simp [step, State.fetch, hr, hd]

end

/-- Settles O6, by `step_of_decode_ok`: with no reset asked for and a whole command read, `step` is `exec`. -/
theorem stepRunsDecodedCommand : Obligations.StepRunsDecodedCommand :=
  fun _ _ _ => step_of_decode_ok

/-- Settles O7: a reset and a wait answer a state outright, and no command stops the machine (`exec_total`). -/
theorem everyStepAnswersNext : Obligations.EveryStepAnswersNext := by
  intro s
  cases hr : s.resetReq with
  | true => exact ⟨_, step_of_reset hr⟩
  | false =>
    cases hd : decode s.cmdIn with
    | error e => exact ⟨s, step_of_decode_error hr hd⟩
    | ok p =>
      rw [step_of_decode_ok hr hd]
      exact exec_total _ _

/-! ## The bytes of a trace item (30_encoding.md R95 to R97, R99) -/

theorem traceLen_toNat {n : Nat} (h : n < 2 ^ 32) : (traceLen n).toNat = n := by
  rw [traceLen, if_pos h, BitVec.toNat_ofNat, Nat.mod_eq_of_lt h]

/-- TYPE, LEN and DATA, where LEN can say how long the data is (30_encoding.md R95). -/
theorem TraceItem.bytes_of_length_lt (t : TraceItem) (h : t.data.length < 2 ^ 32) :
    ∃ len : Word, len.toNat = t.data.length ∧ t.bytes = t.code :: be32bytes len ++ t.data :=
  ⟨traceLen t.data.length, traceLen_toNat h, rfl⟩

/-- Settles O55: the TYPE and DATA that the statement lists are the item's `code` and `data`, constructor by constructor. -/
theorem traceItemWireForm : Obligations.TraceItemWireForm := by
  intro t code data hlen ht
  have ⟨hcode, hdata⟩ : code = t.code ∧ data = t.data := by
    cases t with
    | event e =>
      cases e with
      | protocolError r => cases r <;> exact ht
      | ioError op => cases op <;> exact ht
      | _ => exact ht
    | sink op => cases op <;> exact ht
  subst hcode hdata
  exact t.bytes_of_length_lt hlen

/-! ## KEY and the datapath registers are hidden (00_scope.md R2, 10_state.md R22, R26)

`State.withHidden` replaces the two hidden parts. Every operation commutes with it, so a run never reads them; only SET_KEY,
the cipher and a reset write them, and what they write is the same whatever stood there. -/

section
variable (s : State) (key : Key) (dp : Datapath)

@[simp] theorem State.withHidden_keyValid : (s.withHidden key dp).keyValid = s.keyValid := rfl
@[simp] theorem State.withHidden_phase : (s.withHidden key dp).phase = s.phase := rfl
@[simp] theorem State.withHidden_buf : (s.withHidden key dp).buf = s.buf := rfl
@[simp] theorem State.withHidden_origSize : (s.withHidden key dp).origSize = s.origSize := rfl
@[simp] theorem State.withHidden_remain : (s.withHidden key dp).remain = s.remain := rfl
@[simp] theorem State.withHidden_sinkHeld : (s.withHidden key dp).sinkHeld = s.sinkHeld := rfl
@[simp] theorem State.withHidden_sinkFailed : (s.withHidden key dp).sinkFailed = s.sinkFailed := rfl
@[simp] theorem State.withHidden_lineMax : (s.withHidden key dp).lineMax = s.lineMax := rfl
@[simp] theorem State.withHidden_answers : (s.withHidden key dp).answers = s.answers := rfl
@[simp] theorem State.withHidden_answersOk : (s.withHidden key dp).answersOk = s.answersOk := rfl
@[simp] theorem State.withHidden_observe : (s.withHidden key dp).observe = s.observe := rfl

/-! ### The sink and the abort paths -/

theorem State.tookAnswer_withHidden : (s.withHidden key dp).tookAnswer = s.tookAnswer.withHidden key dp := by
  unfold State.tookAnswer
  rw [State.withHidden_answers]
  split <;> rfl

theorem State.sinkOp_withHidden (op : SinkOp) :
    (s.withHidden key dp).sinkOp op = (s.sinkOp op).withHidden key dp := by
  unfold State.sinkOp
  rw [State.withHidden_answersOk, State.tookAnswer_withHidden]
  cases s.answersOk <;> rfl

theorem State.abandonFile_withHidden (c : Bool) :
    (s.withHidden key dp).abandonFile c = (s.abandonFile c).withHidden key dp := by
  cases c <;> simp [State.abandonFile, State.sinkOp_withHidden]

theorem State.ioAbort_withHidden (op : SinkKind) :
    (s.withHidden key dp).ioAbort op = (s.ioAbort op).withHidden key dp := by
  have e := State.ioAbort_eq (s.withHidden key dp) op
  rw [State.withHidden_sinkHeld, State.abandonFile_withHidden] at e
  rw [e, State.ioAbort_eq s op]
  cases s.sinkHeld <;> rfl

/-! ### The parts of the receive loop -/

theorem State.fileFrame_withHidden (name : Bytes) (o p : U64) :
    (s.withHidden key dp).fileFrame name o p = (s.fileFrame name o p).withHidden key dp := by
  have e : (s.withHidden key dp).openTransfer name o p = (s.openTransfer name o p).withHidden key dp := rfl
  unfold State.fileFrame
  dsimp only
  rw [e, State.withHidden_answersOk, State.sinkOp_withHidden, State.ioAbort_withHidden]
  cases (s.openTransfer name o p).answersOk <;> rfl

/-- The cipher leaves the datapath with free values, numbered by the draws and not by what it held (log 2). -/
theorem State.releaseDatapath_withHidden :
    (s.withHidden key dp).releaseDatapath = s.releaseDatapath.withHidden key (idleDatapath s.draws) := rfl

theorem State.decryptAndWrite_withHidden (c : Bytes) :
    (s.withHidden key dp).decryptAndWrite c = (s.decryptAndWrite c).withHidden key (idleDatapath s.draws) := by
  unfold State.decryptAndWrite
  dsimp only
  rw [State.releaseDatapath_withHidden, State.withHidden_answersOk, State.sinkOp_withHidden, State.ioAbort_withHidden]
  cases s.releaseDatapath.answersOk <;> rfl

theorem State.closeAndDeliver_withHidden :
    (s.withHidden key dp).closeAndDeliver = s.closeAndDeliver.withHidden key dp := by
  unfold State.closeAndDeliver
  dsimp only
  rw [State.withHidden_answersOk, State.sinkOp_withHidden, State.ioAbort_withHidden]
  cases s.answersOk <;> rfl

theorem State.finishFile_withHidden : (s.withHidden key dp).finishFile = s.finishFile.withHidden key dp := by
  unfold State.finishFile
  dsimp only
  rw [State.withHidden_answersOk, State.withHidden_origSize, State.sinkOp_withHidden, State.ioAbort_withHidden,
    State.closeAndDeliver_withHidden]
  cases s.answersOk <;> rfl

theorem State.complete_withHidden : (s.withHidden key dp).complete = s.complete.withHidden key dp := by
  unfold State.complete
  rw [State.withHidden_sinkFailed, State.finishFile_withHidden]
  cases s.sinkFailed <;> rfl

theorem State.headerLine_withHidden (line : Bytes) :
    (s.withHidden key dp).headerLine line = (s.headerLine line).map (State.withHidden key dp) := by
  unfold State.headerLine
  rw [State.withHidden_lineMax]
  cases tooLong s.lineMax line.length with
  | true => rfl
  | false =>
    cases parseHeader line with
    | file name o p => exact congrArg Pass.again (s.fileFrame_withHidden key dp name o p)
    | _ => rfl

theorem State.headerStep_withHidden :
    (s.withHidden key dp).headerStep = s.headerStep.map (State.withHidden key dp) := by
  unfold State.headerStep
  rw [State.withHidden_buf, State.withHidden_lineMax]
  cases takeLine s.buf with
  | none => cases tooLong s.lineMax s.buf.length <;> rfl
  | some p => exact (s.setBuf p.2).headerLine_withHidden key dp p.1

/-- A body pass may run the cipher, so only some datapath stands after it. -/
theorem State.bodyStep_withHidden :
    ∃ dp', (s.withHidden key dp).bodyStep = s.bodyStep.map (State.withHidden key dp') := by
  unfold State.bodyStep
  rw [State.withHidden_remain, State.withHidden_buf, State.withHidden_sinkFailed]
  split_ifs
  · exact ⟨dp, congrArg Pass.again (s.complete_withHidden key dp)⟩
  · exact ⟨dp, rfl⟩
  · exact ⟨dp, rfl⟩
  · exact ⟨_, congrArg Pass.again (s.takeChunk.decryptAndWrite_withHidden key dp _)⟩

theorem State.pass_withHidden : ∃ dp', (s.withHidden key dp).pass = s.pass.map (State.withHidden key dp') := by
  unfold State.pass
  rw [State.withHidden_phase]
  cases s.phase with
  | awaitingHeader => exact ⟨dp, s.headerStep_withHidden key dp⟩
  | receivingBody => exact s.bodyStep_withHidden key dp
  | desynchronized => exact ⟨dp, rfl⟩

theorem State.receiveLoop_withHidden :
    ∃ dp', (s.withHidden key dp).receiveLoop = s.receiveLoop.withHidden key dp' := by
  refine State.receiveLoop_induction (motive := fun s v =>
    ∀ dp, ∃ dp', (s.withHidden key dp).receiveLoop = v.withHidden key dp') s ?stop ?again dp
  case stop =>
    intro u v h dp
    obtain ⟨dp', hp⟩ := u.pass_withHidden key dp
    rw [h] at hp
    exact ⟨dp', State.receiveLoop_of_stop _ _ hp⟩
  case again =>
    intro u v h ih dp
    obtain ⟨dp₁, hp⟩ := u.pass_withHidden key dp
    rw [h] at hp
    rw [State.receiveLoop_of_again _ _ hp]
    exact ih dp₁

theorem State.loseConnection_withHidden :
    (s.withHidden key dp).loseConnection = s.loseConnection.withHidden key dp := by
  unfold State.loseConnection
  dsimp only
  rw [State.withHidden_phase, State.withHidden_sinkHeld, State.abandonFile_withHidden]
  split <;> rfl

/-! ### A command and a step -/

/-- Both outcomes are a next state, and the two states differ only in KEY and the datapath registers. -/
def NextButHidden (o o' : Host.Outcome State Fault Refusal) : Prop :=
  ∃ t key dp, o = .next t ∧ o' = .next (t.withHidden key dp)

theorem nextButHidden_setKey (p : Bytes) :
    NextButHidden (execSetKey p s) (execSetKey p (s.withHidden key dp)) := by
  unfold execSetKey
  rw [State.withHidden_keyValid]
  split_ifs
  · exact ⟨_, key, dp, rfl, rfl⟩
  · exact ⟨_, key, dp, rfl, rfl⟩
  · exact ⟨_, keyOperand p, dp, rfl, rfl⟩

theorem nextButHidden_cipherCommand (dir : Dir) (p : Bytes) :
    NextButHidden (.next (cipherCommand dir p s)) (.next (cipherCommand dir p (s.withHidden key dp))) := by
  unfold cipherCommand
  rw [State.withHidden_keyValid]
  split_ifs
  · exact ⟨_, key, dp, rfl, rfl⟩
  · exact ⟨_, key, dp, rfl, rfl⟩
  · exact ⟨_, key, idleDatapath s.draws, rfl, rfl⟩

theorem nextButHidden_ingest (p : Bytes) :
    NextButHidden (execIngest p s) (execIngest p (s.withHidden key dp)) := by
  obtain ⟨dp', hl⟩ := (s.begin.receive p).receiveLoop_withHidden key dp
  unfold execIngest
  rw [State.withHidden_keyValid, State.withHidden_phase]
  split_ifs
  · exact ⟨_, key, dp, rfl, rfl⟩
  · exact ⟨_, key, dp, rfl, rfl⟩
  · exact ⟨_, key, dp', rfl, congrArg (fun u : State => Host.Outcome.next (u.respond [])) hl⟩

theorem nextButHidden_disconnect (p : Bytes) :
    NextButHidden (execDisconnect p s) (execDisconnect p (s.withHidden key dp)) := by
  have hl := s.begin.loseConnection_withHidden key dp
  unfold execDisconnect
  split_ifs
  · exact ⟨_, key, dp, rfl, rfl⟩
  · exact ⟨_, key, dp, rfl, congrArg (fun u : State => Host.Outcome.next (u.respond [])) hl⟩

theorem nextButHidden_getStatus (p : Bytes) :
    NextButHidden (execGetStatus p s) (execGetStatus p (s.withHidden key dp)) := by
  unfold execGetStatus
  split_ifs <;> exact ⟨_, key, dp, rfl, rfl⟩

theorem nextButHidden_exec (i : Instr) : NextButHidden (exec i s) (exec i (s.withHidden key dp)) := by
  cases i with
  | setKey p => exact nextButHidden_setKey s key dp p
  | encrypt p => exact nextButHidden_cipherCommand s key dp .encrypt p
  | decrypt p => exact nextButHidden_cipherCommand s key dp .decrypt p
  | ingest p => exact nextButHidden_ingest s key dp p
  | disconnect p => exact nextButHidden_disconnect s key dp p
  | getStatus p => exact nextButHidden_getStatus s key dp p
  | illegal op p => exact ⟨_, key, dp, rfl, rfl⟩
  | illegalFlg op flg p => exact ⟨_, key, dp, rfl, rfl⟩

/-- A reset gives KEY and the datapath free values numbered by the draws (logs 1 and 2); a wait changes nothing. -/
theorem nextButHidden_step : NextButHidden (step s) (step (s.withHidden key dp)) := by
  cases hr : s.resetReq with
  | true => exact ⟨_, s.resetFrom.key, s.resetFrom.dp, step_of_reset hr, step_of_reset (s := s.withHidden key dp) hr⟩
  | false =>
    cases hd : decode s.cmdIn with
    | error e =>
      exact ⟨s, key, dp, step_of_decode_error hr hd, step_of_decode_error (s := s.withHidden key dp) hr hd⟩
    | ok p =>
      rw [step_of_decode_ok hr hd, step_of_decode_ok (s := s.withHidden key dp) hr hd]
      exact nextButHidden_exec _ key dp p.1

end

/-- Settles O60: a step of the one state and of the other end alike but for KEY and the datapath registers, which an
observation does not hold. -/
theorem keyAndDatapathAreHidden : Obligations.KeyAndDatapathAreHidden := by
  intro s t key dp h
  obtain ⟨t', key', dp', ht, ht'⟩ := nextButHidden_step s key dp
  obtain rfl : t = t' := Host.Outcome.next.inj (h.symm.trans ht)
  exact ⟨key', dp', ht', t.withHidden_observe key' dp'⟩

end Sys2Proof.Machine

/-! PROOFS of the family 10_state.md: STATUS and its sticky bits, reset, what each command leaves alone, and the invariant
between commands. -/

namespace Sys2Proof.Machine

/-! ## STATUS (10_state.md R31 to R34) -/

section
variable (s : State)

theorem flagWord_getLsbD (b : Bool) (i : Nat) : (flagWord b).getLsbD i = (decide (i = 0) && b) := by
  cases b with
  | false => simp [flagWord]
  | true => simp [flagWord, BitVec.getLsbD_one]

/-- Every bit of STATUS, by the field it stands in (10_state.md R33). -/
theorem status_getLsbD {i : Nat} (hi : i < 32) :
    (status s).getLsbD i =
      (decide (i = 0) && s.keyValid || decide (1 ≤ i) && s.phase.code.getLsbD (i - 1) || decide (i = 3) && s.sinkHeld ||
        decide (i = 4) && s.sinkFailed || decide (8 ≤ i) && s.sticky.getLsbD (i - 8)) := by
  have place (x : Word) (k : Nat) : (x <<< k).getLsbD i = (decide (k ≤ i) && x.getLsbD (i - k)) := by
    rw [BitVec.getLsbD_shiftLeft, decide_eq_true hi, Bool.true_and, ← decide_not, decide_eq_decide.2 Nat.not_lt]
  have flag (b : Bool) (k : Nat) : (flagWord b <<< k).getLsbD i = (decide (i = k) && b) := by
    have at_k : (k ≤ i ∧ i - k = 0) ↔ i = k := by omega
    rw [place, flagWord_getLsbD, ← Bool.and_assoc, ← Bool.decide_and, decide_eq_decide.2 at_k]
  have narrow {w : Nat} (x : BitVec w) (k : Nat) : (x.setWidth 32).getLsbD (i - k) = x.getLsbD (i - k) := by
    simp [show i - k < 32 by omega]
  simp only [status, BitVec.getLsbD_or, flag, place, narrow, flagWord_getLsbD]

/-- A field of STATUS as wide as what it copies, bit by bit. -/
theorem status_extract {w : Nat} (a : Nat) (x : BitVec w)
    (h : ∀ j < w, (status s).getLsbD (a + j) = x.getLsbD j) : (status s).extractLsb' a w = x := by
  refine BitVec.eq_of_getLsbD_eq fun j hj => ?_
  rw [BitVec.getLsbD_extractLsb', h j hj]
  simp [hj]

end

/-- Settles O24, field by field, from the bits of STATUS (`status_getLsbD`). -/
theorem statusFieldPlaces : Obligations.StatusFieldPlaces := by
  intro s
  have phaseHigh (k : Nat) (hk : 2 ≤ k) : s.phase.code.getLsbD k = false := BitVec.getLsbD_of_ge _ _ hk
  refine ⟨?keyValid, ?phase, ?sinkHeld, ?sinkFailed, ?low, ?sticky, ?high⟩
  case keyValid => rw [status_getLsbD s (by omega)]; simp
  case phase =>
    have field : (status s).extractLsb' 1 2 = s.phase.code :=
      status_extract s 1 _ fun j hj => by
        rw [status_getLsbD s (by omega)]
        simp [show 1 + j ≠ 3 ∧ 1 + j ≠ 4 ∧ ¬ 8 ≤ 1 + j by omega]
    rw [field]
    cases s.phase <;> rfl
  case sinkHeld => rw [status_getLsbD s (by omega), phaseHigh _ (by omega)]; simp
  case sinkFailed => rw [status_getLsbD s (by omega), phaseHigh _ (by omega)]; simp
  case low =>
    refine status_extract s 5 _ fun j hj => ?_
    rw [status_getLsbD s (by omega), phaseHigh _ (by omega)]
    simp [show 5 + j ≠ 3 ∧ 5 + j ≠ 4 ∧ ¬ 8 ≤ 5 + j by omega]
  case sticky =>
    refine status_extract s 8 _ fun j hj => ?_
    rw [status_getLsbD s (by omega), phaseHigh _ (by omega)]
    simp [show 8 + j ≠ 3 ∧ 8 + j ≠ 4 by omega]
  case high =>
    refine status_extract s 16 _ fun j hj => ?_
    rw [status_getLsbD s (by omega), phaseHigh _ (by omega), BitVec.getLsbD_of_ge s.sticky _ (by omega)]
    simp [show 16 + j ≠ 3 ∧ 16 + j ≠ 4 by omega]

/-- STATUS reads 0 where every element it copies is clear (10_state.md R33, R45). -/
theorem status_of_clear {s : State} (hk : s.keyValid = false) (hp : s.phase = .awaitingHeader) (hh : s.sinkHeld = false)
    (hf : s.sinkFailed = false) (hs : s.sticky = 0#8) : status s = 0x00000000#32 := by
  rw [status, hk, hp, hh, hf, hs]
  rfl

/-! ## Reset (10_state.md R45, 70_reset_and_hazards.md R300, R301) -/

/-- Settles O8: the step is `State.resetFrom`, which gives these fields outright. -/
theorem resetStepClearsEngineOnly : Obligations.ResetStepClearsEngineOnly := fun s h =>
  ⟨s.resetFrom, step_of_reset h, rfl, rfl, rfl, rfl, rfl, rfl, rfl, rfl, rfl, rfl, status_of_clear rfl rfl rfl rfl rfl,
    rfl, rfl, rfl, rfl, rfl⟩

/-- Settles O9: `State.reset` gives these fields outright. -/
theorem resetStateHoldsSpecValues : Obligations.ResetStateHoldsSpecValues :=
  ⟨rfl, rfl, rfl, rfl, rfl, rfl, rfl, rfl, rfl, rfl, rfl, status_of_clear rfl rfl rfl rfl rfl⟩

/-! ## What each command leaves alone (10_state.md R23 to R30) -/

/-- The session, the sink and its answers, which INGEST and DISCONNECT alone may change (10_state.md R27 to R30). -/
structure SameSession (s t : State) : Prop where
  phase : t.phase = s.phase
  buf : t.buf = s.buf
  fname : t.fname = s.fname
  origSize : t.origSize = s.origSize
  padSize : t.padSize = s.padSize
  remain : t.remain = s.remain
  sinkHeld : t.sinkHeld = s.sinkHeld
  sinkFailed : t.sinkFailed = s.sinkFailed
  sink : t.sink = s.sink
  answers : t.answers = s.answers

theorem sameSession_fail (s : State) (f : Failure) : SameSession s (s.fail f) := by constructor <;> simp

section
variable {s u : State} {i : Instr} {d : Bytes}

theorem OwnEffect.sameSession (h : OwnEffect s i d u) (hi : isSessionCommand i = false) : SameSession s (u.respond d) := by
  cases h with
  | ingest p => simp [isSessionCommand] at hi
  | disconnect => simp [isSessionCommand] at hi
  | _ => constructor <;> simp

/-- A command's own effect before its response: SET_KEY loads a key where none is loaded, and every other command leaves the
key, the ROM, the parameters and the host port alone. -/
theorem OwnEffect.loadKey_or_sameOutside (h : OwnEffect s i d u) :
    (∃ p, i = .setKey p ∧ s.keyValid = false ∧ u = s.begin.loadKey (keyOperand p)) ∨ SameOutside s u := by
  cases h with
  | setKey p len unlocked => exact .inl ⟨p, rfl, unlocked, rfl⟩
  | ingest p =>
    exact .inr (SameOutside.trans (t := s.begin.receive p) (by constructor <;> rfl) (sameOutside_receiveLoop _))
  | disconnect =>
    exact .inr (SameOutside.trans (t := s.begin) (by constructor <;> rfl) (sameOutside_loseConnection _))
  | _ => exact .inr (by constructor <;> rfl)

end

/-- Settles O31: a failure changes nothing of the session, and nor does the own effect of a command outside it. -/
theorem otherCommandsLeaveSessionAlone : Obligations.OtherCommandsLeaveSessionAlone := by
  intro i s t hi h
  have same : SameSession s t := by
    rcases exec_cases i s t h with ⟨f, rfl⟩ | ⟨d, u, ho, rfl⟩
    · exact sameSession_fail s f
    · exact ho.sameSession hi
  obtain ⟨hphase, hbuf, hfname, horig, hpad, hremain, hheld, hfailed, hsink, hanswers⟩ := same
  exact ⟨hphase, hbuf, hfname, horig, hpad, hremain, hheld, hfailed, hsink, hanswers⟩

/-- Settles O14: a failure and every command but SET_KEY leave the key alone, and SET_KEY takes effect only where no key is
loaded (`OwnEffect.loadKey_or_sameOutside`). -/
theorem keyIsFixedOnceLoaded : Obligations.KeyIsFixedOnceLoaded := by
  intro i s t h
  rcases exec_cases i s t h with ⟨f, rfl⟩ | ⟨d, u, ho, rfl⟩
  · simp
  · rcases ho.loadKey_or_sameOutside with ⟨p, rfl, unlocked, rfl⟩ | same
    · simp [unlocked]
    · simp +contextual [same.key, same.keyValid, same.ks, same.sbox, same.lineMax, same.cmdIn, same.resetReq]

/-! ## The sticky bits (10_state.md R35, R36) -/

theorem setSticky_getLsbD_iff (st : BitVec 8) (k : Nat) {j : Nat} (hj : j < 8) :
    (setSticky st k).getLsbD j = true ↔ st.getLsbD j = true ∨ j = k := by
  rw [setSticky_getLsbD st k j hj, Bool.or_eq_true, decide_eq_true_iff]

/-- The sticky bits once an item of the trace has been noted: the two error events set one each (10_state.md R36). -/
def noteItem (st : BitVec 8) : TraceItem → BitVec 8
  | .event (.protocolError _) => setSticky st protocolBit
  | .event (.ioError _) => setSticky st ioBit
  | _ => st

/-- The trace so far and the sticky bits agree, where `st` stood when the trace was empty. -/
def Noted (st : BitVec 8) (s : State) : Prop :=
  s.sticky = s.trace.foldl noteItem st

/-- An item raises bit `j` (the trace's part of `RaisesBit`). -/
def TraceItem.Raises (item : TraceItem) (j : Nat) : Prop :=
  (j = protocolBit ∧ ∃ reason, item = .event (.protocolError reason)) ∨ (j = ioBit ∧ ∃ op, item = .event (.ioError op))

theorem noteItem_getLsbD (st : BitVec 8) (item : TraceItem) {j : Nat} (hj : j < 8) :
    (noteItem st item).getLsbD j = true ↔ st.getLsbD j = true ∨ item.Raises j := by
  unfold noteItem
  split
  · rw [setSticky_getLsbD_iff _ _ hj]; simp [TraceItem.Raises]
  · rw [setSticky_getLsbD_iff _ _ hj]; simp [TraceItem.Raises]
  · simp_all [TraceItem.Raises]

theorem foldl_noteItem_getLsbD (st : BitVec 8) (items : List TraceItem) {j : Nat} (hj : j < 8) :
    (items.foldl noteItem st).getLsbD j = true ↔ st.getLsbD j = true ∨ ∃ item ∈ items, item.Raises j := by
  induction items generalizing st with
  | nil => simp
  | cons item items ih => rw [List.foldl_cons, ih, noteItem_getLsbD st item hj]; simp [or_assoc]

/-- The items of an I/O abort raise ERR_IO, and nothing else (43_transfer_session.md R200). -/
theorem foldl_noteItem_abortItems (st : BitVec 8) (op : SinkKind) (held : Bool) :
    (abortItems op held).foldl noteItem st = setSticky st ioBit := by
  unfold abortItems
  split_ifs <;> rfl

section
variable {st : BitVec 8} {s : State}

theorem Noted.of_eq {t : State} (h : Noted st s) (hs : t.sticky = s.sticky) (ht : t.trace = s.trace) : Noted st t :=
  hs.trans (by rw [ht]; exact h)

theorem Noted.of_empty (hs : s.sticky = st) (ht : s.trace = []) : Noted st s := by
  rw [Noted, hs, ht, List.foldl_nil]

theorem Noted.record (h : Noted st s) (item : TraceItem) (hi : ∀ b, noteItem b item = b) : Noted st (s.record item) := by
  simpa [Noted, hi] using h

theorem Noted.sinkOp (h : Noted st s) (op : SinkOp) : Noted st (s.sinkOp op) :=
  (h.record (.sink op) fun _ => rfl).of_eq (by simp) (by simp)

theorem Noted.protocolError (h : Noted st s) (r : Reason) : Noted st (s.protocolError r) := by
  have h : s.sticky = s.trace.foldl noteItem st := h
  simp [Noted, noteItem, h]

theorem Noted.ioAbort (h : Noted st s) (op : SinkKind) : Noted st (s.ioAbort op) := by
  have h : s.sticky = s.trace.foldl noteItem st := h
  simp [Noted, foldl_noteItem_abortItems, h]

theorem Noted.textFrame (h : Noted st s) (body : Bytes) : Noted st (s.textFrame body) := h.record _ fun _ => rfl

theorem Noted.fileFrame (h : Noted st s) (n : Bytes) (o p : U64) : Noted st (s.fileFrame n o p) := by
  have opened := (h.of_eq (t := s.openTransfer n o p) rfl rfl).sinkOp (.sopen (Config.sinkName n))
  unfold State.fileFrame
  dsimp only
  split
  · exact opened.of_eq rfl rfl
  · exact (opened.ioAbort .sopen).of_eq rfl rfl

theorem Noted.decryptAndWrite (h : Noted st s) (c : Bytes) : Noted st (s.decryptAndWrite c) := by
  have written := (h.of_eq (t := s.releaseDatapath) rfl rfl).sinkOp (.swrite (crypt s.sbox s.ks .decrypt c))
  unfold State.decryptAndWrite
  dsimp only
  split
  · exact written
  · exact written.ioAbort .swrite

theorem Noted.closeAndDeliver (h : Noted st s) : Noted st s.closeAndDeliver := by
  have closed := h.sinkOp .sclose
  unfold State.closeAndDeliver
  dsimp only
  split
  · exact (closed.of_eq rfl rfl).record _ fun _ => rfl
  · exact closed.ioAbort .sclose

theorem Noted.finishFile (h : Noted st s) : Noted st s.finishFile := by
  have cut := h.sinkOp (.strunc s.origSize)
  unfold State.finishFile
  dsimp only
  split
  · exact cut.closeAndDeliver
  · exact cut.ioAbort .strunc

theorem Noted.complete (h : Noted st s) : Noted st s.complete := by
  unfold State.complete
  split
  · exact h.of_eq rfl rfl
  · exact h.finishFile.of_eq rfl rfl

theorem Noted.pass (h : Noted st s) : Noted st s.pass.state := by
  unfold State.pass
  cases s.phase with
  | desynchronized => exact h
  | receivingBody =>
    rcases s.bodyStep_cases with ⟨-, e⟩ | ⟨-, -, e⟩ | ⟨-, -, -, e⟩ | ⟨-, -, -, e⟩ <;> (dsimp only; rw [e])
    · exact h.complete
    · exact h
    · exact h.of_eq rfl rfl
    · exact (h.of_eq (t := s.takeChunk) rfl rfl).decryptAndWrite _
  | awaitingHeader =>
    rcases s.headerStep_cases with ⟨-, -, e⟩ | ⟨-, -, e⟩ | ⟨line, rest, -, -, e⟩ <;> (dsimp only; rw [e])
    · exact h.protocolError _
    · exact h
    · have h' : Noted st (s.setBuf rest) := h.of_eq rfl rfl
      rcases (s.setBuf rest).headerLine_cases line with ⟨r, e⟩ | ⟨b, -, e⟩ | ⟨n, o, p, -, e⟩ <;> rw [e]
      · exact h'.protocolError r
      · exact h'.textFrame b
      · exact h'.fileFrame n o p

theorem Noted.receiveLoop (h : Noted st s) : Noted st s.receiveLoop :=
  State.loop_induction s (Noted st) (fun _ => Noted.pass) _ h

theorem Noted.loseConnection (h : Noted st s) : Noted st s.loseConnection := by
  have lost (t : State) (ht : Noted st t) : Noted st { t.emit .connLost with buf := [] }.closeTransfer :=
    (ht.record (.event .connLost) fun _ => rfl).of_eq rfl rfl
  unfold State.loseConnection
  dsimp only
  split
  · exact lost _ ((h.sinkOp .sclose).sinkOp .sdelete)
  · exact lost _ h

/-- A command's own effect sets the sticky bits of the errors in its trace, and no others. -/
theorem OwnEffect.noted {i : Instr} {d : Bytes} {u : State} (h : OwnEffect s i d u) : Noted s.sticky u := by
  cases h with
  | ingest p => exact (Noted.of_empty (s := s.begin.receive p) rfl rfl).receiveLoop
  | disconnect => exact (Noted.of_empty (s := s.begin) rfl rfl).loseConnection
  | _ => exact .of_empty (by simp) (by simp)

end

/-- A failure raises its own bit, and no other (10_state.md R35). -/
theorem raisesBit_failed_iff (f : Failure) (j : Nat) :
    RaisesBit { response := { status := .failed f, rdata := [] }, trace := [] } j ↔ j = f.stickyBit := by
  have code_pos : 1 ≤ f.code.toNat := by cases f <;> decide
  simp only [RaisesBit, Status.failed.injEq, exists_eq_left', List.not_mem_nil, exists_false, and_false, or_false,
    Failure.stickyBit]
  omega

/-- A command that succeeds raises the bits its trace raises. -/
theorem raisesBit_okResult_iff (d : Bytes) (items : List TraceItem) (j : Nat) :
    RaisesBit (okResult d items) j ↔ ∃ item ∈ items, item.Raises j := by
  simp only [RaisesBit, okResult, TraceItem.Raises, reduceCtorEq, false_and, exists_false, false_or]
  constructor
  · rintro (⟨hj, r, hr⟩ | ⟨hj, op, hop⟩)
    · exact ⟨_, hr, .inl ⟨hj, r, rfl⟩⟩
    · exact ⟨_, hop, .inr ⟨hj, op, rfl⟩⟩
  · rintro ⟨item, hm, ⟨hj, r, rfl⟩ | ⟨hj, op, rfl⟩⟩
    · exact .inl ⟨hj, r, hm⟩
    · exact .inr ⟨hj, op, hm⟩

/-- Settles O26: a failure sets its bit; a command's own effect keeps its trace and the sticky bits in step, pass by pass
(`Noted.pass`); a reset clears the bits outright. -/
theorem stickyBitsRecordEveryError : Obligations.StickyBitsRecordEveryError := by
  refine ⟨fun i s t res h hd j hj => ?command, fun s t hr h => ?reset⟩
  case command =>
    rcases result_cases h hd with ⟨f, rfl, rfl⟩ | ⟨d, u, ho, rfl, rfl⟩
    · rw [State.fail_sticky, setSticky_getLsbD_iff _ _ hj, raisesBit_failed_iff]
    · have noted : u.sticky = u.trace.foldl noteItem s.sticky := ho.noted
      rw [State.respond_sticky, noted, foldl_noteItem_getLsbD _ _ hj, raisesBit_okResult_iff]
  case reset =>
    obtain rfl : s.resetFrom = t := Host.Outcome.next.inj ((step_of_reset hr).symm.trans h)
    rfl

/-! ## The invariant between commands (10_state.md R37 to R40) -/

section
variable {s t : State}

/-- In AWAITING_HEADER with BUF empty and no transfer active, the invariant asks only for KS and the sink's files. -/
theorem Inv.of_idle (hphase : s.phase = .awaitingHeader) (hbuf : s.buf = []) (hclear : TransferClear s) (htrace : s.trace = [])
    (hkey : KeyInv s) (hfiles : filesWf s.sink.fs = true) : Inv s where
  session := {
    awaiting := fun _ => ⟨by simp [hbuf], hclear, fun m _ => by simp [hbuf]⟩
    receiving := by simp [hphase]
    desync := by simp [hphase]
    unkeyed := fun _ => ⟨hphase, hbuf⟩
    noTrace := htrace }
  key := hkey
  sink := ⟨hfiles, by simp [hclear.held]⟩

theorem KeyInv.of_unkeyed (h : s.keyValid = false) : KeyInv s := by
  simp [KeyInv, h]

/-- A reset meets the invariant, whatever stood before, where FS is in its canonical form. -/
theorem Inv.resetFrom (h : filesWf s.sink.fs = true) : Inv s.resetFrom :=
  Inv.of_idle rfl rfl ⟨rfl, rfl, rfl, rfl, rfl, rfl⟩ rfl (.of_unkeyed rfl) h

/-- A command that leaves the session alone keeps the invariant, where it keeps KS the schedule of a loaded key. -/
theorem Inv.of_sameSession (h : Inv s) (same : SameSession s t)
    (hsticky : s.sticky.getLsbD protocolBit = true → t.sticky.getLsbD protocolBit = true)
    (hvalid : t.keyValid = s.keyValid ∨ t.keyValid = true) (htrace : t.trace = []) (hline : t.lineMax = s.lineMax)
    (hkey : KeyInv t) : Inv t where
  session := h.session.copy same.phase same.buf same.fname same.remain same.padSize same.origSize same.sinkHeld
    same.sinkFailed hsticky hvalid htrace hline
  key := hkey
  sink := h.sink.copy same.sinkHeld same.sink same.fname same.remain same.padSize

theorem KeyInv.of_sameOutside (h : KeyInv s) (same : SameOutside s t) : KeyInv t := fun hk => by
  rw [same.ks, same.key]
  exact h (same.keyValid ▸ hk)

theorem Inv.fail (h : Inv s) (f : Failure) : Inv (s.fail f) := by
  refine h.of_sameSession (sameSession_fail s f) (fun hs => ?_) (.inl rfl) rfl rfl h.key
  rw [State.fail_sticky, setSticky_getLsbD_iff _ _ (by decide)]
  exact .inl hs

theorem TransferClear.copy (h : TransferClear s) (hheld : t.sinkHeld = s.sinkHeld) (hfailed : t.sinkFailed = s.sinkFailed)
    (hfname : t.fname = s.fname) (horig : t.origSize = s.origSize) (hpad : t.padSize = s.padSize)
    (hremain : t.remain = s.remain) : TransferClear t :=
  ⟨hheld.trans h.held, hfailed.trans h.failed, hfname.trans h.fname, horig.trans h.orig, hpad.trans h.padded,
    hremain.trans h.remain⟩

/-- INGEST's bytes join BUF, which only DESYNCHRONIZED holds empty. -/
theorem LoopInv.receive (h : LoopInv s) (hphase : s.phase ≠ .desynchronized) (p : Bytes) : LoopInv (s.begin.receive p) where
  awaiting := fun e => (h.awaiting e).copy rfl rfl rfl rfl rfl rfl
  receiving := h.receiving
  desync := fun e => absurd e hphase
  sink := h.sink.copy rfl rfl rfl rfl rfl

theorem LoopInv.respond (h : LoopInv s) (d : Bytes) : LoopInv (s.respond d) where
  awaiting := fun e => (h.awaiting e).copy rfl rfl rfl rfl rfl rfl
  receiving := h.receiving
  desync := fun e => by
    obtain ⟨hbuf, hclear, hbit⟩ := h.desync e
    exact ⟨hbuf, hclear.copy rfl rfl rfl rfl rfl rfl, hbit⟩
  sink := h.sink.copy rfl rfl rfl rfl rfl

theorem State.atRest.respond (h : s.atRest) (d : Bytes) : (s.respond d).atRest := h

theorem State.loseConnection_wf (h : filesWf s.sink.fs = true) : filesWf s.loseConnection.sink.fs = true := by
  unfold State.loseConnection
  dsimp only
  split
  · exact s.abandonFile_wf true h
  · exact h

section
variable {i : Instr} {d : Bytes} {u : State}

theorem OwnEffect.keyInv (ho : OwnEffect s i d u) (h : KeyInv s) : KeyInv u := by
  rcases ho.loadKey_or_sameOutside with ⟨p, -, -, rfl⟩ | same
  · exact fun _ => rfl
  · exact h.of_sameOutside same

/-- A command's own effect keeps the invariant: INGEST ends where the receive loop rests, DISCONNECT with no transfer active,
and the others leave the session alone. -/
theorem OwnEffect.inv (ho : OwnEffect s i d u) (h : Inv s) : Inv (u.respond d) := by
  have hkey : KeyInv (u.respond d) := ho.keyInv h.key
  have other (hi : isSessionCommand i = false) := h.of_sameSession (ho.sameSession hi)
  cases ho with
  | ingest p keyed inStep =>
    have loop := ((h.session.loopInv s h.sink).receive inStep p).receiveLoop.respond []
    have keyed : (s.begin.receive p).receiveLoop.keyValid = true := (sameOutside_receiveLoop _).keyValid.trans keyed
    exact ⟨loop.sessionInv _ ((s.begin.receive p).receiveLoop_atRest.respond []) keyed rfl, hkey, loop.sink⟩
  | disconnect =>
    exact Inv.of_idle rfl rfl ⟨rfl, rfl, rfl, rfl, rfl, rfl⟩ rfl hkey (State.loseConnection_wf h.sink.canonical)
  | setKey p => exact other rfl (by simp) (.inr (by simp)) (by simp) (by simp) hkey
  | _ => exact other rfl (by simp) (.inl (by simp)) (by simp) (by simp) hkey

end

/-- Every command keeps the invariant. -/
theorem Inv.exec {i : Instr} (h : Inv s) (he : exec i s = .next t) : Inv t := by
  rcases exec_cases i s t he with ⟨f, rfl⟩ | ⟨d, u, ho, rfl⟩
  · exact h.fail f
  · exact ho.inv h

/-- Taking a command off the stream touches nothing that the invariant reads. -/
theorem Inv.setCmdIn (h : Inv s) (rest : Bytes) : Inv { s with cmdIn := rest } :=
  h.of_sameSession (by constructor <;> rfl) id (.inl rfl) h.session.noTrace rfl h.key

end

/-- Settles O58: nothing is loaded, received or held after reset, and the sink is empty. -/
theorem resetMeetsInvariant : Obligations.ResetMeetsInvariant :=
  Inv.of_idle rfl rfl ⟨rfl, rfl, rfl, rfl, rfl, rfl⟩ rfl (.of_unkeyed rfl) reset_files_wf

/-- Settles O59: a reset, a wait and a command each keep the invariant. -/
theorem everyStepKeepsInvariant : Obligations.EveryStepKeepsInvariant := by
  intro s t h hstep
  rcases step_cases s t hstep with ⟨-, rfl⟩ | ⟨-, -, rfl⟩ | ⟨-, i, rest, -, he⟩
  · exact Inv.resetFrom h.sink.canonical
  · exact h
  · exact (h.setCmdIn rest).exec he

end Sys2Proof.Machine

/-! PROOFS of the family 20_memory.md: what a sink operation does, which files a command can touch, and that the cipher
commands repeat and invert. -/

namespace Sys2Proof.Machine

/-! ## A sink operation on the reference sink (20_memory.md R80) -/

section
variable (data : Bytes) (size draw : Nat)

/-- STRUNC leaves exactly the size it is given, whether it cuts or extends. -/
theorem truncated_length : (truncated data size draw).length = size := by
  unfold truncated
  split_ifs with h
  · rw [List.length_take, Nat.min_eq_left h]
  · rw [List.length_append, List.length_map, List.length_range]
    omega

theorem truncated_of_le (h : size ≤ data.length) : truncated data size draw = data.take size :=
  if_pos h

/-- An extended file begins with what it held. -/
theorem take_truncated_of_lt (h : data.length < size) : (truncated data size draw).take data.length = data := by
  rw [truncated, if_neg (Nat.not_le.2 h), List.take_left]

end

section
variable (k : RefSink) (draw : Nat)

theorem RefSink.apply_swrite_current (w : Bytes) {name data : Bytes} (hc : k.cur = some name) (hd : k.disturbed = false)
    (hl : lookupFile k.fs name = some data) : lookupFile (k.apply draw (.swrite w)).fs name = some (data ++ w) := by
  simp [RefSink.apply, k.updateCur_own draw (· ++ w) name data hc hd hl]

theorem RefSink.apply_strunc_current (n : U64) {name data : Bytes} (hc : k.cur = some name) (hd : k.disturbed = false)
    (hl : lookupFile k.fs name = some data) :
    lookupFile (k.apply draw (.strunc n)).fs name = some (truncated data n.toNat draw) := by
  simp [RefSink.apply, k.updateCur_own draw (truncated · n.toNat draw) name data hc hd hl]

/-- With a handle, an operation that opens no file leaves every file alone but the one CUR names. -/
theorem RefSink.apply_not_current {op : SinkOp} {name other : Bytes} (hc : k.cur = some name) (hne : other ≠ name)
    (hop : op ≠ .sopen other) : lookupFile (k.apply draw op).fs other = lookupFile k.fs other :=
  (k.apply_other draw op other (fun e => hne (Option.some.inj (e.symm.trans hc))) hop).1

end

/-- With an answer scripted, `ok` carries the operation out at the draw counter as it stands (20_memory.md R80). -/
theorem State.sinkOp_sink_of_cons_ok (s : State) (op : SinkOp) (rest : Bytes) (h : s.answers = 0x00#8 :: rest) :
    (s.sinkOp op).sink = s.sink.apply s.draws op := by
  rw [s.sinkOp_sink_of_ok op (by simp [s.answersOk_of_cons _ rest h]), s.tookAnswer_draws_of_cons _ rest h]

/-- Settles O52, operation by operation: what each does to the file CUR names, and that it leaves every other alone
(`RefSink.apply_not_current`); then that the answer decides whether it is carried out. -/
theorem referenceSinkOperations : Obligations.ReferenceSinkOperations := by
  refine ⟨fun k d name => ?sopen, fun k d name w hc => ?swrite, fun k d name n hc => ?strunc, fun k d => rfl,
    fun k d name hc => ?sdelete, fun s op a rest h => ?answer⟩
  case sopen =>
    exact ⟨rfl, lookupFile_putFile_self _ _ _, rfl, fun other hne => lookupFile_putFile_of_ne _ _ _ _ hne⟩
  case swrite =>
    exact ⟨k.updateCur_cur d _, k.updateCur_disturbed d _, fun hd data hl => k.apply_swrite_current d w hc hd hl,
      fun other hne => k.apply_not_current d hc hne (by simp)⟩
  case strunc =>
    refine ⟨k.updateCur_cur d _, k.updateCur_disturbed d _, fun hd data hl => ?_,
      fun other hne => k.apply_not_current d hc hne (by simp)⟩
    exact ⟨_, k.apply_strunc_current d n hc hd hl, truncated_length _ _ _, truncated_of_le _ _ _,
      take_truncated_of_lt _ _ _⟩
  case sdelete =>
    exact ⟨k.apply_sdelete_current d name hc, fun other hne => k.apply_not_current d hc hne (by simp)⟩
  case answer =>
    refine ⟨s.sinkOp_answers_of_cons op a rest h, s.sinkOp_trace op, fun ha => ?_, ?_⟩
    · exact s.sinkOp_sink_of_fail op (by simpa [s.answersOk_of_cons a rest h] using ha)
    · rintro rfl
      exact s.sinkOp_sink_of_cons_ok op rest h

/-! ## The files a command can touch (20_memory.md R76, R80; 30_encoding.md R95)

All that a command does to the sink and its answers is sink operations, each of which its trace holds. So what a command can
do to the sink follows from what one operation can do. -/

/-- From `s`, sink operations lead to `t`, with steps between them that leave the sink, its answers and the operations noted
in the trace as they were. -/
inductive SinkSteps (s : State) : State → Prop where
  | refl : SinkSteps s s
  | op {u : State} (h : SinkSteps s u) (o : SinkOp) : SinkSteps s (u.sinkOp o)
  | quiet {u t : State} (h : SinkSteps s u) (sink : t.sink = u.sink) (answers : t.answers = u.answers)
    (trace : ∀ o, TraceItem.sink o ∈ u.trace → TraceItem.sink o ∈ t.trace) : SinkSteps s t

namespace SinkSteps

section
variable {s t u : State}

/-! ### What follows -/

/-- A file that CUR does not name at the start, and that no operation opens, reads as before. -/
theorem other {name : Bytes} (h : SinkSteps s t) (hc : s.sink.cur ≠ some name)
    (hn : TraceItem.sink (.sopen name) ∉ t.trace) :
    lookupFile t.sink.fs name = lookupFile s.sink.fs name ∧ t.sink.cur ≠ some name := by
  induction h with
  | refl => exact ⟨rfl, hc⟩
  | @op u _ o ih =>
    simp only [State.sinkOp_trace, List.mem_append, not_or, List.mem_singleton, TraceItem.sink.injEq] at hn
    obtain ⟨hfile, hcur⟩ := ih hn.1
    obtain ⟨hfile', hcur'⟩ := u.sinkOp_other o name hcur (Ne.symm hn.2)
    exact ⟨hfile'.trans hfile, hcur'⟩
  | quiet _ sink _ trace ih =>
    rw [sink]
    exact ih fun hu => hn (trace _ hu)

/-- Where the trace holds no sink operation, there was none. -/
theorem unchanged (h : SinkSteps s t) (hn : ∀ o, TraceItem.sink o ∉ t.trace) :
    t.sink = s.sink ∧ t.answers = s.answers := by
  induction h with
  | refl => exact ⟨rfl, rfl⟩
  | op _ o => exact absurd (by simp) (hn o)
  | quiet _ sink answers trace ih =>
    rw [sink, answers]
    exact ih fun o hu => hn o (trace o hu)

/-! ### The parts of the receive loop and DISCONNECT -/

/-- A step that leaves the sink, its answers and the trace alone. -/
theorem of_eq (h : SinkSteps s u) (sink : t.sink = u.sink) (answers : t.answers = u.answers) (trace : t.trace = u.trace) :
    SinkSteps s t :=
  h.quiet sink answers fun _ hu => trace ▸ hu

/-- An event joins the trace. -/
theorem emit (h : SinkSteps s u) (e : Event) : SinkSteps s (u.emit e) :=
  h.quiet rfl rfl fun _ hu => List.mem_append_left _ hu

theorem protocolError (h : SinkSteps s u) (r : Reason) : SinkSteps s (u.protocolError r) :=
  (h.emit (.protocolError r)).of_eq rfl rfl rfl

theorem abandonFile (h : SinkSteps s u) (c : Bool) : SinkSteps s (u.abandonFile c) := by
  cases c with
  | false => exact h.op .sdelete
  | true => exact (h.op .sclose).op .sdelete

theorem ioAbort (h : SinkSteps s u) (k : SinkKind) : SinkSteps s (u.ioAbort k) := by
  have noted : SinkSteps s { u.emit (.ioError k) with sticky := setSticky u.sticky ioBit } :=
    (h.emit (.ioError k)).of_eq rfl rfl rfl
  unfold State.ioAbort
  dsimp only
  split
  · exact (noted.abandonFile _).of_eq rfl rfl rfl
  · exact noted.of_eq rfl rfl rfl

theorem fileFrame (h : SinkSteps s u) (n : Bytes) (o p : U64) : SinkSteps s (u.fileFrame n o p) := by
  have opened := (h.of_eq (t := u.openTransfer n o p) rfl rfl rfl).op (.sopen (Config.sinkName n))
  unfold State.fileFrame
  dsimp only
  split
  · exact opened.of_eq rfl rfl rfl
  · exact (opened.ioAbort .sopen).of_eq rfl rfl rfl

theorem decryptAndWrite (h : SinkSteps s u) (c : Bytes) : SinkSteps s (u.decryptAndWrite c) := by
  have written := (h.of_eq (t := u.releaseDatapath) rfl rfl rfl).op (.swrite (crypt u.sbox u.ks .decrypt c))
  unfold State.decryptAndWrite
  dsimp only
  split
  · exact written
  · exact written.ioAbort .swrite

theorem closeAndDeliver (h : SinkSteps s u) : SinkSteps s u.closeAndDeliver := by
  have closed := h.op .sclose
  unfold State.closeAndDeliver
  dsimp only
  split
  · exact (closed.emit (.file (Config.sinkName u.fname))).of_eq rfl rfl rfl
  · exact closed.ioAbort .sclose

theorem finishFile (h : SinkSteps s u) : SinkSteps s u.finishFile := by
  have cut := h.op (.strunc u.origSize)
  unfold State.finishFile
  dsimp only
  split
  · exact cut.closeAndDeliver
  · exact cut.ioAbort .strunc

theorem complete (h : SinkSteps s u) : SinkSteps s u.complete := by
  unfold State.complete
  split
  · exact h.of_eq rfl rfl rfl
  · exact h.finishFile.of_eq rfl rfl rfl

theorem pass (h : SinkSteps s u) : SinkSteps s u.pass.state := by
  unfold State.pass
  cases u.phase with
  | desynchronized => exact h
  | receivingBody =>
    rcases u.bodyStep_cases with ⟨-, e⟩ | ⟨-, -, e⟩ | ⟨-, -, -, e⟩ | ⟨-, -, -, e⟩ <;> (dsimp only; rw [e])
    · exact h.complete
    · exact h
    · exact h.of_eq rfl rfl rfl
    · exact (h.of_eq (t := u.takeChunk) rfl rfl rfl).decryptAndWrite _
  | awaitingHeader =>
    rcases u.headerStep_cases with ⟨-, -, e⟩ | ⟨-, -, e⟩ | ⟨line, rest, -, -, e⟩ <;> (dsimp only; rw [e])
    · exact h.protocolError _
    · exact h
    · have h' : SinkSteps s (u.setBuf rest) := h.of_eq rfl rfl rfl
      rcases (u.setBuf rest).headerLine_cases line with ⟨r, e⟩ | ⟨b, -, e⟩ | ⟨n, o, p, -, e⟩ <;> rw [e]
      · exact h'.protocolError r
      · exact h'.emit (.text b)
      · exact h'.fileFrame n o p

theorem receiveLoop (h : SinkSteps s u) : SinkSteps s u.receiveLoop :=
  State.loop_induction u (SinkSteps s) (fun _ => pass) _ h

theorem loseConnection (h : SinkSteps s u) : SinkSteps s u.loseConnection := by
  unfold State.loseConnection
  dsimp only
  split
  · exact ((h.abandonFile true).emit .connLost).of_eq rfl rfl rfl
  · exact (h.emit .connLost).of_eq rfl rfl rfl

end

end SinkSteps

section
variable {s u : State} {i : Instr} {d : Bytes}

/-- A command's own effect on the sink is the sink operations of its trace. -/
theorem OwnEffect.sinkSteps (h : OwnEffect s i d u) : SinkSteps s.begin u := by
  cases h with
  | ingest p =>
    have received : SinkSteps s.begin (s.begin.receive p) := SinkSteps.refl.of_eq rfl rfl rfl
    exact received.receiveLoop
  | disconnect => exact SinkSteps.refl.loseConnection
  | _ => exact SinkSteps.refl.of_eq rfl rfl rfl

/-- DISCONNECT issues no sink operation where no sink is held (43_transfer_session.md R205). -/
theorem State.loseConnection_sink_of_not_held (h : s.sinkHeld = false) : s.loseConnection.sink = s.sink := by
  simp [State.loseConnection, h]

/-- Under the invariant and with no sink held, a command's own effect changes no file but those it opens. -/
theorem OwnEffect.lookupFile_of_not_held (h : OwnEffect s i d u) (hi : Inv s) (hh : s.sinkHeld = false) {name : Bytes}
    (hn : TraceItem.sink (.sopen name) ∉ u.trace) : lookupFile u.sink.fs name = lookupFile s.sink.fs name := by
  cases h with
  | ingest p keyed inStep =>
    exact State.receiveLoop_untouched _ ((hi.session.loopInv s hi.sink).receive inStep p) hh hn
  | disconnect => rw [State.loseConnection_sink_of_not_held (s := s.begin) hh, State.begin_sink]
  | _ => rfl

end

/-- Settles O53: a failure changes nothing of the sink; a command's own effect on it is the sink operations of its trace
(`OwnEffect.sinkSteps`), and with no sink held only the receive loop has any (`OwnEffect.lookupFile_of_not_held`). -/
theorem onlyTheHeldFileIsTouched : Obligations.OnlyTheHeldFileIsTouched := by
  intro i s t res h hd
  rcases result_cases h hd with ⟨f, rfl, rfl⟩ | ⟨d, u, ho, rfl, rfl⟩
  · exact ⟨fun _ _ _ => rfl, fun _ _ _ _ => rfl, fun _ => ⟨rfl, rfl⟩⟩
  · have steps := ho.sinkSteps
    exact ⟨fun name hc hn => (steps.other hc hn).1, fun hi hh name hn => ho.lookupFile_of_not_held hi hh hn,
      steps.unchanged⟩

/-! ## The cipher undone (41_block_cipher.md R139) -/

/-- A direction whose round keys are another's reversed undoes it, on every 8-byte block. -/
theorem crypt_crypt_of_reverse {ks : Subkeys} {dir dir' : Dir} (h : roundKeys ks dir' = (roundKeys ks dir).reverse)
    (sbox : SBox) {b : Bytes} (hb : b.length = 8) : crypt sbox ks dir' (crypt sbox ks dir b) = b := by
  have undone := feistelRounds_undo sbox (roundKeys ks dir) (leftHalf b, rightHalf b)
  rw [Prod.swap] at undone
  rw [crypt_eq_rounds sbox ks dir, crypt_eq_rounds sbox ks dir']
  simp only [leftHalf_be32bytes, rightHalf_be32bytes, h, undone]
  exact halves_append b hb

theorem crypt_decrypt_encrypt (sbox : SBox) (ks : Subkeys) {b : Bytes} (hb : b.length = 8) :
    crypt sbox ks .decrypt (crypt sbox ks .encrypt b) = b :=
  crypt_crypt_of_reverse (roundKeys_decrypt ks) sbox hb

/-! ## ENCRYPT, DECRYPT and GET_STATUS repeated (20_memory.md R72, 41_block_cipher.md R140) -/

/-- What ENCRYPT and DECRYPT answer: a function of the payload, KEY_VALID, SBOX and KS (41_block_cipher.md R137, R138). -/
def cipherResponse (dir : Dir) (p : Bytes) (s : State) : Response :=
  if p.length ≠ 8 then { status := .failed .blockLen, rdata := [] }
  else if s.keyValid = false then { status := .failed .noKey, rdata := [] }
  else { status := .ok, rdata := crypt s.sbox s.ks dir p }

section
variable (dir : Dir) (p : Bytes) (s : State)

theorem cipherCommand_done :
    (cipherCommand dir p s).done = s.done ++ [{ response := cipherResponse dir p s, trace := [] }] := by
  unfold cipherCommand cipherResponse
  split_ifs <;> rfl

/-- ENCRYPT and DECRYPT change nothing that they answer from. -/
theorem cipherResponse_cipherCommand (dir' : Dir) (p' : Bytes) :
    cipherResponse dir' p' (cipherCommand dir p s) = cipherResponse dir' p' s := by
  unfold cipherCommand
  split_ifs <;> rfl

theorem cipherResponse_of_keyed (hp : p.length = 8) (hk : s.keyValid = true) :
    cipherResponse dir p s = { status := .ok, rdata := crypt s.sbox s.ks dir p } := by
  simp [cipherResponse, hp, hk]

/-- A cipher command and its repetition give the host one result. -/
theorem cipherCommand_repeats :
    ∃ res, (cipherCommand dir p s).done = s.done ++ [res] ∧
      (cipherCommand dir p (cipherCommand dir p s)).done = (cipherCommand dir p s).done ++ [res] :=
  ⟨_, cipherCommand_done dir p s, by rw [cipherCommand_done dir p (cipherCommand dir p s), cipherResponse_cipherCommand]⟩

end

/-- Settles O23: the cipher commands answer from what they leave alone (`cipherCommand_repeats`), GET_STATUS likewise from what
STATUS copies; and the answer to a DECRYPT of an ENCRYPT's answer is the block (`crypt_decrypt_encrypt`). -/
theorem cipherCommandsRepeatAndInvert : Obligations.CipherCommandsRepeatAndInvert := by
  refine ⟨fun i p hi s t u ht hu => ?repeats, fun p c s t hk hp ht hd => ?inverts⟩
  case repeats =>
    rcases hi with rfl | rfl | rfl <;> obtain rfl := Host.Outcome.next.inj ht <;> obtain rfl := Host.Outcome.next.inj hu
    · exact cipherCommand_repeats .encrypt p s
    · exact cipherCommand_repeats .decrypt p s
    · exact ⟨okResult (be32bytes (status s)) [], rfl, rfl⟩
  case inverts =>
    obtain rfl : cipherCommand .encrypt p s = t := Host.Outcome.next.inj ht
    obtain rfl : crypt s.sbox s.ks .encrypt p = c := by
      simpa [cipherCommand_done, cipherResponse_of_keyed _ _ _ hp hk, okResult] using hd
    refine ⟨_, rfl, ?_⟩
    rw [cipherCommand_done, cipherResponse_cipherCommand, cipherResponse_of_keyed _ _ _ (crypt_length _ _ _ _) hk,
      crypt_decrypt_encrypt _ _ hp]
    rfl

end Sys2Proof.Machine

/-! PROOFS of the family 30_encoding.md: what the decoder reads, that it and the encoder undo each other, the response that
ends every command, and the bytes of a response and of a program. -/

namespace Sys2Proof

/-! ## The LEN field (00_scope.md R14, 30_encoding.md R90) -/

theorem be16_toNat (hi lo : Byte) : (be16 hi lo).toNat = 256 * hi.toNat + lo.toNat := by
  have hlo : lo.toNat < 2 ^ 8 := lo.isLt
  rw [be16, BitVec.toNat_append, ← Nat.shiftLeft_add_eq_or_of_lt hlo, Nat.shiftLeft_eq]
  omega

/-- BE16bytes undoes BE16. -/
theorem be16bytes_be16 (hi lo : Byte) : be16bytes (be16 hi lo) = [hi, lo] := by
  simp only [be16bytes, List.cons.injEq, and_true]
  constructor <;>
  · apply BitVec.eq_of_toNat_eq
    simp only [BitVec.extractLsb'_toNat, be16_toNat, Nat.shiftRight_eq_div_pow]
    omega

/-- A length that LEN admits, as the two bytes of the field. -/
theorem be16bytes_ofNat {n : Nat} (h : n < 65536) :
    ∃ hi lo : Byte, be16bytes (BitVec.ofNat 16 n) = [hi, lo] ∧ 256 * hi.toNat + lo.toNat = n :=
  ⟨_, _, rfl, by rw [← be16_toNat, be16_be16bytes, BitVec.toNat_ofNat, Nat.mod_eq_of_lt h]⟩

theorem lenField_lt (hi lo : Byte) : 256 * hi.toNat + lo.toNat < 65536 := by
  rw [← be16_toNat]
  exact BitVec.isLt _

theorem payloadFits_iff (p : Bytes) : payloadFits p = true ↔ p.length < 65536 := decide_eq_true_iff

/-! ## The command a header selects (30_encoding.md R92, R100, R101) -/

theorem reservedOp_iff (op : Byte) : reservedOp op = true ↔ op.toNat = 0 ∨ 7 ≤ op.toNat := by
  simp [reservedOp, BitVec.le_def, ← BitVec.toNat_inj]

theorem reservedOp_of_ne {op : Byte} (h1 : op ≠ 0x01#8) (h2 : op ≠ 0x02#8) (h3 : op ≠ 0x03#8) (h4 : op ≠ 0x04#8)
    (h5 : op ≠ 0x05#8) (h6 : op ≠ 0x06#8) : reservedOp op = true := by
  rw [reservedOp_iff]
  bv_omega

section
variable (op flg : Byte) (p : Bytes)

@[simp] theorem selectCommand_op : (selectCommand op flg p).op = op := by
  unfold selectCommand
  split_ifs <;> simp_all [Instr.op]

@[simp] theorem selectCommand_flg : (selectCommand op flg p).flg = flg := by
  unfold selectCommand
  split_ifs <;> simp_all [Instr.flg]

@[simp] theorem selectCommand_payload : (selectCommand op flg p).payload = p := by
  unfold selectCommand
  split_ifs <;> rfl

theorem encode_selectCommand : encode (selectCommand op flg p) = encodeRaw op flg p := by
  simp [encode]

/-- The converse of `selectCommand_of_wf`: whatever OP and FLG select is well formed once LEN can say the payload's length. -/
theorem selectCommand_wf : (selectCommand op flg p).wf = payloadFits p := by
  unfold selectCommand
  split_ifs with hflg h1 h2 h3 h4 h5 h6
  · simp [Instr.wf, hflg]
  iterate 6 · rfl
  · simp [Instr.wf, reservedOp_of_ne h1 h2 h3 h4 h5 h6]

end

/-! ## What the decoder reads (30_encoding.md R91) -/

theorem decode_of_length_lt {b : Bytes} (h : b.length < 4) : decode b = .error .headerIncomplete := by
  match b, h with
  | [], _ | [_], _ | [_, _], _ | [_, _, _], _ => rfl
  | _ :: _ :: _ :: _ :: _, h => simp at h; omega

section
variable (op flg hi lo : Byte)

theorem decode_header_of_lt {b : Bytes} (h : b.length < 256 * hi.toNat + lo.toNat) :
    decode (op :: flg :: hi :: lo :: b) = .error .payloadIncomplete := by
  simp [decode, be16_toNat, h]

theorem decode_header_of_le {b : Bytes} (h : 256 * hi.toNat + lo.toNat ≤ b.length) :
    decode (op :: flg :: hi :: lo :: b) =
      .ok (selectCommand op flg (b.take (256 * hi.toNat + lo.toNat)), b.drop (256 * hi.toNat + lo.toNat)) := by
  simp [decode, be16_toNat, h]

/-- A header and exactly LEN payload bytes are a whole command, whatever follows. -/
theorem decode_header_append {p : Bytes} (h : p.length = 256 * hi.toNat + lo.toNat) (rest : Bytes) :
    decode (op :: flg :: hi :: lo :: (p ++ rest)) = .ok (selectCommand op flg p, rest) := by
  rw [decode_header_of_le op flg hi lo (by rw [List.length_append]; omega), ← h, List.take_left', List.drop_left'] <;> rfl

end

/-- A well-formed command's header and payload decode to it. -/
theorem decode_header_of_wf {i : Instr} (hi lo : Byte) (hwf : i.wf = true)
    (hlen : i.payload.length = 256 * hi.toNat + lo.toNat) (rest : Bytes) :
    decode (i.op :: i.flg :: hi :: lo :: (i.payload ++ rest)) = .ok (i, rest) := by
  rw [decode_header_append _ _ _ _ hlen, selectCommand_of_wf i hwf]

/-- Whatever decodes is a header with a payload of LEN bytes, and then the rest. -/
theorem decode_ok_cases {bytes rest : Bytes} {i : Instr} (h : decode bytes = .ok (i, rest)) :
    ∃ op flg p, p.length < 65536 ∧ i = selectCommand op flg p ∧ bytes = encodeRaw op flg p ++ rest := by
  match bytes with
  | [] | [_] | [_, _] | [_, _, _] => simp [decode] at h
  | op :: flg :: hi :: lo :: b =>
    rcases Nat.lt_or_ge b.length (256 * hi.toNat + lo.toNat) with hlt | hle
    · simp [decode_header_of_lt op flg hi lo hlt] at h
    · simp only [decode_header_of_le op flg hi lo hle, Except.ok.injEq, Prod.mk.injEq] at h
      obtain ⟨rfl, rfl⟩ := h
      have hlen : (b.take (256 * hi.toNat + lo.toNat)).length = 256 * hi.toNat + lo.toNat := by simpa using hle
      refine ⟨op, flg, _, hlen.trans_lt (lenField_lt hi lo), rfl, ?_⟩
      rw [encodeRaw, hlen, ← be16_toNat, BitVec.ofNat_toNat, BitVec.setWidth_eq, be16bytes_be16]
      simp

/-- Settles O2: LEN's two bytes say the payload's length, and OP and FLG select the command (`decode_header_of_wf`). -/
theorem decodeUndoesEncode : Obligations.DecodeUndoesEncode := by
  intro i rest hwf
  obtain ⟨hi, lo, hbytes, hlen⟩ := be16bytes_ofNat (payload_lt_of_wf i hwf)
  have hencode : encode i ++ rest = i.op :: i.flg :: hi :: lo :: (i.payload ++ rest) := by
    simp [encode, encodeRaw, hbytes]
  rw [hencode, decode_header_of_wf hi lo hwf hlen.symm]

/-- Settles O3: what decodes is a header with LEN payload bytes (`decode_ok_cases`), and the command selected by it is well
formed and keeps it. -/
theorem decodedCommandEncodesBack : Obligations.DecodedCommandEncodesBack := by
  intro bytes rest i h
  obtain ⟨op, flg, p, hp, rfl, rfl⟩ := decode_ok_cases h
  exact ⟨(selectCommand_wf op flg p).trans ((payloadFits_iff p).mpr hp), by rw [encode_selectCommand]⟩

/-- Settles O4: the three things that can stand on the stream, and the step that waits (`step_of_decode_error`). -/
theorem partialCommandWaits : Obligations.PartialCommandWaits :=
  ⟨fun _ h => ⟨_, decode_of_length_lt h⟩,
   fun op flg hi lo _ h => ⟨_, decode_header_of_lt op flg hi lo h⟩,
   fun op flg hi lo _ h => ⟨_, decode_header_of_le op flg hi lo h, selectCommand_payload _ _ _⟩,
   fun _ hr ⟨_, he⟩ => Machine.step_of_decode_error hr he⟩

/-- Settles O5: each header is that of the well-formed command it is to select (`decode_header_of_wf`). -/
theorem headerSelectsCommand : Obligations.HeaderSelectsCommand := by
  intro op flg hi lo p rest hlen
  have fits : payloadFits p = true := (payloadFits_iff p).mpr (hlen.trans_lt (lenField_lt hi lo))
  have header (i : Instr) (hwf : i.wf = true) (hp : i.payload = p) :
      decode (i.op :: i.flg :: hi :: lo :: (p ++ rest)) = .ok (i, rest) := by
    rw [← hp] at hlen ⊢
    exact decode_header_of_wf hi lo hwf hlen rest
  refine ⟨fun hflg => header (.illegalFlg op flg p) (by simp [Instr.wf, hflg, fits]) rfl, ?_⟩
  rintro rfl
  refine ⟨?_, ?_, ?_, ?_, ?_, ?_, fun hop => ?_⟩
  · rintro rfl; exact header (.setKey p) fits rfl
  · rintro rfl; exact header (.encrypt p) fits rfl
  · rintro rfl; exact header (.decrypt p) fits rfl
  · rintro rfl; exact header (.ingest p) fits rfl
  · rintro rfl; exact header (.disconnect p) fits rfl
  · rintro rfl; exact header (.getStatus p) fits rfl
  · exact header (.illegal op p) (by simp [Instr.wf, (reservedOp_iff op).mpr hop, fits]) rfl

/-- Settles O1: nine closed byte strings, decoded by evaluation. -/
theorem decodeReadsSpecWords : Obligations.DecodeReadsSpecWords :=
  ⟨rfl, rfl, rfl, rfl, rfl, rfl, rfl, rfl, rfl⟩

end Sys2Proof

namespace Sys2Proof.Machine

/-! ## The response that ends a command, and its bytes (30_encoding.md R93 to R95, R100) -/

section
variable {s u : State} {i : Instr} {d : Bytes}

/-- RDATA is as long as the command's rule says. -/
theorem OwnEffect.rdata_length (h : OwnEffect s i d u) : d.length = rdataLength i := by
  cases h with
  | encrypt p | decrypt p => exact crypt_length _ _ _ _
  | getStatus => exact be32bytes_length _
  | _ => rfl

/-- Only INGEST and DISCONNECT put items on the output trace. -/
theorem OwnEffect.trace_eq_nil (h : OwnEffect s i d u) (hi : isSessionCommand i = false) : u.trace = [] := by
  cases h with
  | ingest p | disconnect => simp [isSessionCommand] at hi
  | _ => rfl

end

/-- Settles O30: a failure responds with no data and no trace, and a success with those of the command's own effect. -/
theorem everyCommandGetsOneResponse : Obligations.EveryCommandGetsOneResponse := by
  intro i s
  obtain ⟨t, ht⟩ := exec_total i s
  rcases exec_cases i s t ht with ⟨f, rfl⟩ | ⟨d, u, ho, rfl⟩
  · exact ⟨_, _, ht, s.fail_done_eq f, rfl, rfl, fun _ => rfl⟩
  · exact ⟨_, okResult d u.trace, ht, by simp [ho.done_eq, okResult], rfl, ho.rdata_length, ho.trace_eq_nil⟩

/-- Settles O54: RLEN's two bytes say the length of the data (`be16bytes_ofNat`), and each failure's bytes are its code's. -/
theorem responseWireForm : Obligations.ResponseWireForm := by
  refine ⟨fun d hd => ?_, fun f => by cases f <;> rfl⟩
  obtain ⟨hi, lo, hbytes, hlen⟩ := be16bytes_ofNat hd
  exact ⟨hi, lo, hlen, by simp [Response.bytes, Status.code, hbytes]⟩

/-! ## The assembler (30_encoding.md R106, R107) -/

/-- A program whose lines read is assembled from the lines read. -/
theorem assemble_of_parse {lines : List (List Char)} {program : List AsmLine} (sbox : SBox)
    (h : lines.mapM parseLine = some program) : assemble sbox lines = assembleProgram sbox program := by
  rw [assemble, h, Option.bind_some]

/-- Settles O57: the lines of each program read as the commands named here, whose bytes no S-box enters. -/
theorem assemblerWritesCommands : Obligations.AssemblerWritesCommands := fun sbox =>
  ⟨(assemble_of_parse (program := [.command (.getStatus []), .command (.disconnect [])]) sbox rfl).trans rfl,
   (assemble_of_parse (program := [.ingestText [0x68#8, 0x69#8]]) sbox rfl).trans rfl,
   (assemble_of_parse (program := [.raw 0x06#8 0x01#8 []]) sbox rfl).trans rfl⟩

end Sys2Proof.Machine

/-! PROOFS of the family 40_key_schedule.md: SET_KEY, the key word at each entry of the schedule, and the words that each
direction takes in each round. -/

namespace Sys2Proof.Machine

/-! ## The key word at each entry of the schedule (40_key_schedule.md R121) -/

theorem be32_slice (b : Bytes) (a : Nat) :
    be32 (slice b a (a + 4)) = b.getD a 0#8 ++ b.getD (a + 1) 0#8 ++ b.getD (a + 2) 0#8 ++ b.getD (a + 3) 0#8 := by
  simp [be32, slice]

/-- Which of the key's eight words stands at entry `i` of the schedule. -/
def scheduleIndex (i : Nat) : Nat :=
  if i < 24 then i % 8 else 31 - i

theorem schedule_get_index (key : Key) (i : Fin 32) : (schedule key).get i = keyWord key (scheduleIndex i) := by
  rw [schedule_get, scheduleIndex]
  split <;> rfl

theorem schedule_getElem? (key : Key) {i : Nat} (h : i < 32) :
    (schedule key)[i]? = some (keyWord key (scheduleIndex i)) := by
  rw [Vector.getElem?_eq_getElem h, ← schedule_get_index key ⟨i, h⟩, Vector.get_eq_getElem]

/-- The words stand in order three times. -/
theorem scheduleIndex_forward {j m : Nat} (hj : j < 8) (hm : m < 3) : scheduleIndex (8 * m + j) = j := by
  unfold scheduleIndex
  split <;> omega

theorem scheduleIndex_of_lt {i : Nat} (h : i < 8) : scheduleIndex i = i := by
  simpa using scheduleIndex_forward h (m := 0) (by omega)

/-- Then they stand reversed. -/
theorem scheduleIndex_reversed {j : Nat} (hj : j < 8) : scheduleIndex (24 + j) = 7 - j := by
  unfold scheduleIndex
  split <;> omega

/-- From the far end, the outer entries mirror each other for every key, and the inner ones have the words mirrored. -/
theorem scheduleIndex_mirror {i : Nat} (h : i < 32) :
    scheduleIndex (31 - i) = scheduleIndex i ∨ scheduleIndex i < 8 ∧ scheduleIndex (31 - i) = 7 - scheduleIndex i := by
  unfold scheduleIndex
  split <;> split <;> omega

/-- Settles O11: the entry is a key word (`schedule_get_index`), and a key word is four key bytes (`be32_slice`). -/
theorem scheduleRepeatsThenReverses : Obligations.ScheduleRepeatsThenReverses := by
  intro key i
  rw [schedule_get_index, keyWord, be32_slice]
  rfl

/-! ## The key word of each round (40_key_schedule.md R122, R123) -/

/-- Decryption's order is encryption's reversed in every subkey file, not in a schedule alone. -/
theorem roundKey_decrypt_ofNat (ks : Subkeys) {i : Nat} (h : i < 32) :
    roundKey ks .decrypt (BitVec.ofNat 5 i) = roundKey ks .encrypt (BitVec.ofNat 5 (31 - i)) := by
  have mirror : 31#5 - BitVec.ofNat 5 i = BitVec.ofNat 5 (31 - i) := by bv_omega
  rw [roundKey, roundKey, mirror]

section
variable (key : Key) {i : Nat} (h : i < 32)
include h

theorem roundKey_encrypt_schedule :
    roundKey (schedule key) .encrypt (BitVec.ofNat 5 i) = keyWord key (scheduleIndex i) := by
  rw [roundKey, schedule_get_index, BitVec.toFin_ofNat, Fin.val_ofNat, Nat.mod_eq_of_lt h]

theorem roundKey_decrypt_schedule :
    roundKey (schedule key) .decrypt (BitVec.ofNat 5 i) = keyWord key (scheduleIndex (31 - i)) := by
  rw [roundKey_decrypt_ofNat _ h, roundKey_encrypt_schedule key (by omega)]

end

/-- Settles O12: every clause reads the key word at an entry of the schedule, counted from the far end for decryption. -/
theorem scheduleLaws : Obligations.ScheduleLaws := by
  intro key
  refine ⟨fun j hj => ?entries, fun j hj m hm => ?encryptForward, fun j hj => ?encryptReversed, fun j hj => ?decryptForward,
    fun j hj m hm => ?decryptReversed, fun i hi => roundKey_decrypt_ofNat _ hi⟩
  case entries =>
    rw [schedule_getElem? key (i := 8 + j) (by omega), schedule_getElem? key (i := 16 + j) (by omega),
      schedule_getElem? key (i := 24 + j) (by omega), schedule_getElem? key (i := j) (by omega),
      schedule_getElem? key (i := 7 - j) (by omega), scheduleIndex_forward hj (m := 1) (by omega),
      scheduleIndex_forward hj (m := 2) (by omega), scheduleIndex_reversed hj, scheduleIndex_of_lt hj,
      scheduleIndex_of_lt (i := 7 - j) (by omega)]
    exact ⟨rfl, rfl, rfl⟩
  case encryptForward =>
    rw [roundKey_encrypt_schedule key (by omega), scheduleIndex_forward hj hm]
  case encryptReversed =>
    rw [roundKey_encrypt_schedule key (by omega), scheduleIndex_reversed hj]
  case decryptForward =>
    have fromEnd : 31 - j = 24 + (7 - j) := by omega
    rw [roundKey_decrypt_schedule key (by omega), fromEnd, scheduleIndex_reversed (by omega), Nat.sub_sub_self (by omega)]
  case decryptReversed =>
    have fromEnd : 31 - (8 + 8 * m + j) = 8 * (2 - m) + (7 - j) := by omega
    rw [roundKey_decrypt_schedule key (by omega), fromEnd, scheduleIndex_forward (by omega) (by omega)]

/-! ## A key whose words read the same backwards (40_key_schedule.md R124) -/

section
variable {key : Key} (palindrome : ∀ j < 8, keyWord key j = keyWord key (7 - j))
include palindrome

theorem keyWord_mirror_of_palindrome {i : Nat} (h : i < 32) :
    keyWord key (scheduleIndex i) = keyWord key (scheduleIndex (31 - i)) := by
  rcases scheduleIndex_mirror h with outer | ⟨lt, inner⟩
  · rw [outer]
  · rw [inner, palindrome _ lt]

theorem roundKeys_encrypt_eq_decrypt_of_palindrome :
    roundKeys (schedule key) .encrypt = roundKeys (schedule key) .decrypt := by
  refine List.map_congr_left fun i hi => ?_
  have h : i < 32 := List.mem_range.mp hi
  rw [roundKey_encrypt_schedule key h, roundKey_decrypt_schedule key h, keyWord_mirror_of_palindrome palindrome h]

end

/-- Settles O13: the schedule mirrors itself (`keyWord_mirror_of_palindrome`), so both directions have one list of round keys,
and the list is all of the direction that the cipher uses (`crypt_eq_rounds`). -/
theorem palindromicKeyEqualsDirections : Obligations.PalindromicKeyEqualsDirections := by
  refine fun key palindrome => ⟨fun i hi => ?schedule, fun sbox blk => ?directions⟩
  case schedule =>
    rw [schedule_getElem? key hi, schedule_getElem? key (by omega), keyWord_mirror_of_palindrome palindrome hi]
  case directions =>
    rw [crypt_eq_rounds, crypt_eq_rounds, roundKeys_encrypt_eq_decrypt_of_palindrome palindrome]

/-! ## SET_KEY (40_key_schedule.md R120) -/

theorem keyOperand_toList {p : Bytes} (h : p.length = 32) : (keyOperand p).toList = p := by
  refine List.ext_getElem (by simp [h]) fun i _ hi => ?_
  rw [Vector.getElem_toList, keyOperand_getElem p i (by omega), List.getD_eq_getElem p 0 hi]

section
variable {p : Bytes} (s : State)

/-- The next state of a SET_KEY that loads `key`: the key's three fields, and the response. -/
theorem State.loadKey_respond (key : Key) :
    (s.begin.loadKey key).respond [] =
      { s with key := key, ks := schedule key, keyValid := true, trace := [], done := s.done ++ [okResult [] []] } := rfl

theorem exec_setKey_of_length_ne (h : p.length ≠ 32) : exec (.setKey p) s = .next (s.fail .keyLen) :=
  if_pos h

theorem exec_setKey_of_locked (h : p.length = 32) (locked : s.keyValid = true) :
    exec (.setKey p) s = .next (s.fail .keyLocked) := by
  simp [exec, execSetKey, h, locked]

theorem exec_setKey_of_unlocked (h : p.length = 32) (unlocked : s.keyValid = false) :
    exec (.setKey p) s = .next ((s.begin.loadKey (keyOperand p)).respond []) := by
  simp [exec, execSetKey, h, unlocked]

end

/-- Settles O10: the three ways through SET_KEY, and the payload as the key that it loads (`keyOperand_toList`). -/
theorem setKeyLoadsKeyOnce : Obligations.SetKeyLoadsKeyOnce := fun p s =>
  ⟨rfl, exec_setKey_of_length_ne s, exec_setKey_of_locked s,
   fun h unlocked => ⟨keyOperand p, keyOperand_toList h, by
    rw [exec_setKey_of_unlocked s h unlocked, State.loadKey_respond]⟩⟩

end Sys2Proof.Machine

/-! PROOFS of the family 41_block_cipher.md: Substitute lane by lane, the rotation, the 32 rounds and their inverse, the integer
laws, and ENCRYPT and DECRYPT. -/

namespace Sys2Proof.Machine

/-! ## The lanes of a word (00_scope.md R12) -/

/-- The word with `x` in lane `i` and zero in the others. -/
def laneWord (i : Fin 8) (x : Nibble) : Word :=
  x.setWidth 32 <<< (4 * i.val)

theorem nibble_getLsbD (w : Word) (i : Nat) {b : Nat} (hb : b < 4) : (nibble w i).getLsbD b = w.getLsbD (4 * i + b) := by
  rw [nibble, BitVec.getLsbD_extractLsb', decide_eq_true hb, Bool.true_and]

theorem nibble_or (v w : Word) (i : Nat) : nibble (v ||| w) i = nibble v i ||| nibble w i :=
  BitVec.extractLsb'_or

theorem nibble_laneWord (i j : Fin 8) (x : Nibble) : nibble (laneWord i x) j = if j = i then x else 0#4 := by
  refine BitVec.eq_of_getLsbD_eq fun b hb => ?_
  have inWord : 4 * j.val + b < 32 := by omega
  rw [nibble_getLsbD _ _ hb, laneWord, BitVec.getLsbD_shiftLeft, BitVec.getLsbD_setWidth, decide_eq_true inWord]
  split
  case isTrue same =>
    subst same
    have inX : b < 32 := by omega
    simp [inX]
  case isFalse other =>
    have outside : 4 * j.val + b < 4 * i.val ∨ 4 ≤ 4 * j.val + b - 4 * i.val := by omega
    rcases outside with below | above
    · simp [below]
    · simp [BitVec.getLsbD_of_ge x _ above]

theorem eq_of_nibble_eq {v w : Word} (h : ∀ i : Fin 8, nibble v i = nibble w i) : v = w := by
  refine BitVec.eq_of_getLsbD_eq fun j hj => ?_
  have lane : j / 4 < 8 := by omega
  have bit : j % 4 < 4 := by omega
  rw [← Nat.div_add_mod j 4, ← nibble_getLsbD v _ bit, ← nibble_getLsbD w _ bit, h ⟨j / 4, lane⟩]

/-! ## Substitute (41_block_cipher.md R130, R131) -/

/-- The entry of row `r` that `x` selects. -/
def sboxEntry (sbox : SBox) (r : Fin 8) (x : Nibble) : Nibble :=
  (sbox.get r).get x.toFin

theorem substituteLane_eq_laneWord (sbox : SBox) (t : Word) (i : Fin 8) :
    substituteLane sbox t i = laneWord i (sboxEntry sbox (7 - i) (nibble t i)) := rfl

theorem nibble_substitute (sbox : SBox) (t : Word) (i : Fin 8) :
    nibble (substitute sbox t) i = sboxEntry sbox (7 - i) (nibble t i) := by
  simp only [substitute, nibble_or, substituteLane_eq_laneWord, nibble_laneWord]
  fin_cases i <;> simp

/-- Settles O15: `nibble_substitute`. -/
theorem substituteActsLaneByLane : Obligations.SubstituteActsLaneByLane := nibble_substitute

/-- Rows that are injective take words that differ in a lane to words that differ in that lane. -/
theorem substitute_injective {sbox : SBox} (rows : ∀ r, Function.Injective (sboxEntry sbox r)) :
    Function.Injective (substitute sbox) := fun v w h => by
  refine eq_of_nibble_eq fun i => rows (7 - i) ?_
  rw [← nibble_substitute, ← nibble_substitute, h]

/-- Two nibbles that one row takes to one entry, each alone in the row's lane, make two words that Substitute takes to one. -/
theorem sboxEntry_injective {sbox : SBox} (h : Function.Injective (substitute sbox)) (r : Fin 8) :
    Function.Injective (sboxEntry sbox r) := fun x y entry => by
  have words : laneWord (7 - r) x = laneWord (7 - r) y := by
    refine h (eq_of_nibble_eq fun i => ?_)
    rw [nibble_substitute, nibble_substitute, nibble_laneWord, nibble_laneWord]
    split
    case isTrue lane => rw [lane, sub_sub_cancel, entry]
    case isFalse => rfl
  have lanes := congrArg (fun w => nibble w (7 - r : Fin 8)) words
  simpa only [nibble_laneWord, if_true] using lanes

/-- Both sides are maps of a finite set to itself, where bijective is injective. -/
theorem substitute_bijective_iff (sbox : SBox) :
    Function.Bijective (substitute sbox) ↔ ∀ r, Function.Bijective (sboxEntry sbox r) := by
  simp only [← Finite.injective_iff_bijective]
  exact ⟨sboxEntry_injective, substitute_injective⟩

/-! ## The rotation and G (41_block_cipher.md R132, R133) -/

theorem rotl32_eleven (w : Word) : rotl32 w 11 = w.rotateLeft 11 := rfl

/-- Settles O16: the rotation is the library's. -/
theorem rotationMovesEveryBit : Obligations.RotationMovesEveryBit := by
  intro w j hj
  rw [rotl32_eleven, BitVec.getLsbD_rotateLeft, Bool.cond_decide]
  split
  case isTrue low =>
    congr 1
    omega
  case isFalse high =>
    rw [decide_eq_true hj, Bool.true_and]
    congr 1
    omega

theorem rotl32_eleven_injective : Function.Injective fun w : Word => rotl32 w 11 := fun v w h => by
  refine BitVec.eq_of_getLsbD_eq fun j hj => ?_
  have source : ((j + 11) % 32 + 32 - 11) % 32 = j := by omega
  have bit (x : Word) : (rotl32 x 11).getLsbD ((j + 11) % 32) = x.getLsbD j := by
    rw [rotationMovesEveryBit x _ (Nat.mod_lt _ (by omega)), source]
  rw [← bit v, ← bit w]
  exact congrArg (BitVec.getLsbD · _) h

/-- Settles O17: `t` is the sum as a word. -/
theorem roundFunctionAddsSubstitutesRotates : Obligations.RoundFunctionAddsSubstitutesRotates := by
  intro sbox a k t ht
  have sum : t = a + k := BitVec.eq_of_toNat_eq (by rw [ht, BitVec.toNat_add])
  rw [sum, roundG]

/-! ## The integer laws (41_block_cipher.md R141) -/

/-- Settles O20: the last two laws from `rotl32_eleven_injective` and `substitute_bijective_iff`. -/
theorem cipherIntegerLaws : Obligations.CipherIntegerLaws := by
  refine ⟨fun a k => ⟨fun wraps => ?wraps, fun fits => ?fits⟩, fun x y => ?cancels,
    Finite.injective_iff_bijective.mp rotl32_eleven_injective, substitute_bijective_iff⟩
  case wraps => rw [BitVec.toNat_add]; omega
  case fits => rw [BitVec.toNat_add, Nat.mod_eq_of_lt fits]
  case cancels => rw [BitVec.xor_assoc, BitVec.xor_self, BitVec.xor_zero]

/-! ## The 32 rounds (41_block_cipher.md R134 to R136) -/

/-- The fold over the rounds follows any two sequences of halves that take the rounds' steps. -/
theorem feistelRounds_eq_of_steps (sbox : SBox) {key l r : Nat → Word} {n : Nat}
    (step : ∀ i < n, feistel sbox (key i) (l i, r i) = (l (i + 1), r (i + 1))) :
    feistelRounds sbox ((List.range n).map key) (l 0, r 0) = (l n, r n) := by
  induction n with
  | zero => rfl
  | succ n ih =>
    rw [List.range_succ, List.map_append, feistelRounds_append, ih fun i hi => step i (by omega)]
    exact step n (by omega)

theorem roundKey_eq_get (ks : Subkeys) (dir : Dir) (i : Fin 32) :
    roundKey ks dir (BitVec.ofNat 5 i) = ks.get (if dir = .encrypt then i else 31 - i) := by
  have index : (BitVec.ofNat 5 i).toFin = i := Fin.ext (Nat.mod_eq_of_lt i.isLt)
  cases dir with
  | encrypt => rw [roundKey, index, if_pos rfl]
  | decrypt => rw [roundKey, BitVec.toFin_sub, index, if_neg (by decide)]; rfl

/-- Settles O18: the given sequences take the steps of the fold that Crypt is (`crypt_eq_rounds`). -/
theorem cryptIsThirtyTwoFeistelRounds : Obligations.CryptIsThirtyTwoFeistelRounds := by
  intro sbox ks dir b0 b1 b2 b3 b4 b5 b6 b7 l r hl hr steps
  have rounds : feistelRounds sbox (roundKeys ks dir) (l 0, r 0) = (l 32, r 32) := by
    refine feistelRounds_eq_of_steps sbox fun i hi => ?_
    obtain ⟨left, right⟩ := steps ⟨i, hi⟩
    rw [left, right, ← roundKey_eq_get, feistel]
  have left : leftHalf [b0, b1, b2, b3, b4, b5, b6, b7] = l 0 := hl.symm
  have right : rightHalf [b0, b1, b2, b3, b4, b5, b6, b7] = r 0 := hr.symm
  rw [crypt_eq_rounds, left, right, rounds]
  rfl

/-- Settles O19: each direction has the other's round keys reversed (`crypt_crypt_of_reverse`). -/
theorem decryptUndoesEncrypt : Obligations.DecryptUndoesEncrypt := by
  intro sbox ks b hb
  have reversed : roundKeys ks .encrypt = (roundKeys ks .decrypt).reverse := by
    rw [roundKeys_decrypt, List.reverse_reverse]
  exact ⟨crypt_decrypt_encrypt sbox ks hb, crypt_crypt_of_reverse reversed sbox hb⟩

/-! ## ENCRYPT and DECRYPT (41_block_cipher.md R137, R138) -/

section
variable (dir : Dir) {p : Bytes} (s : State)

theorem cipherCommand_of_length_ne (hp : p.length ≠ 8) : cipherCommand dir p s = s.failedWith .blockLen 0x04#8 :=
  if_pos hp

theorem cipherCommand_of_not_keyed (hp : p.length = 8) (hk : s.keyValid = false) :
    cipherCommand dir p s = s.failedWith .noKey 0x08#8 := by
  rw [cipherCommand, if_neg (not_not.mpr hp), if_pos hk]
  rfl

theorem cipherCommand_of_keyed (hp : p.length = 8) (hk : s.keyValid = true) :
    cipherCommand dir p s =
      { s with
        dp := idleDatapath s.draws, draws := s.draws + 1, trace := []
        done := s.done ++ [okResult (crypt s.sbox s.ks dir p) []] } := by
  rw [cipherCommand, if_neg (not_not.mpr hp), if_neg (by simp [hk])]
  rfl

end

/-- Settles O21: the three ways through the cipher command, for encryption. -/
theorem encryptReturnsCiphertext : Obligations.EncryptReturnsCiphertext := fun _ s =>
  ⟨rfl, fun hp => congrArg Host.Outcome.next (cipherCommand_of_length_ne .encrypt s hp),
   fun hp hk => congrArg Host.Outcome.next (cipherCommand_of_not_keyed .encrypt s hp hk),
   fun hp hk => ⟨_, _, congrArg Host.Outcome.next (cipherCommand_of_keyed .encrypt s hp hk)⟩⟩

/-- Settles O22: the same three ways, for decryption. -/
theorem decryptReturnsPlaintext : Obligations.DecryptReturnsPlaintext := fun _ s =>
  ⟨rfl, fun hp => congrArg Host.Outcome.next (cipherCommand_of_length_ne .decrypt s hp),
   fun hp hk => congrArg Host.Outcome.next (cipherCommand_of_not_keyed .decrypt s hp hk),
   fun hp hk => ⟨_, _, congrArg Host.Outcome.next (cipherCommand_of_keyed .decrypt s hp hk)⟩⟩

end Sys2Proof.Machine

/-! PROOFS of the family 42_frame_codec.md: the header line in a buffer, decimal sizes, the fields of a FILE line, the header a
sender writes, and what the receive loop does with a line. -/

namespace Sys2Proof.Machine

/-! ## Header lines (42_frame_codec.md R160, R162) -/

/-- Settles O32: `takeLine_some`, `takeLine_append` and `takeLine_none_iff`. -/
theorem lineEndsAtFirstNewline : Obligations.LineEndsAtFirstNewline := by
  intro b
  refine ⟨fun line rest => ⟨takeLine_some b line rest, ?_⟩, takeLine_none_iff b⟩
  rintro ⟨rfl, noEnd⟩
  exact takeLine_append line rest noEnd

/-! ## The form of a header (42_frame_codec.md R164, R165) -/

theorem parseHeader_textTag_append (m : Bytes) : parseHeader (textTag ++ m) = .text m := rfl

theorem parseHeader_of_fileTag {line : Bytes} (tag : line.take 5 = fileTag) : parseHeader line = parseFile line := by
  have notText : line.take 5 ≠ textTag := by rw [tag]; decide
  rw [parseHeader, if_neg notText, if_pos tag]

theorem parseHeader_of_no_tag {line : Bytes} (notText : line.take 5 ≠ textTag) (notFile : line.take 5 ≠ fileTag) :
    parseHeader line = .error .unrecognizedPrefix := by
  rw [parseHeader, if_neg notText, if_neg notFile]

/-- Settles O33: the three branches of ParseHeader. -/
theorem headerFormByPrefix : Obligations.HeaderFormByPrefix :=
  ⟨parseHeader_textTag_append, fun _ => parseHeader_of_fileTag rfl, fun _ => parseHeader_of_no_tag⟩

/-! ## Decimal sizes (42_frame_codec.md R168, R169; 45_send_path.md R244) -/

/-- The ASCII digit of `d`. -/
def digitByte (d : Nat) : Byte :=
  BitVec.ofNat 8 (0x30 + d)

theorem digitByte_toNat {d : Nat} (h : d < 10) : (digitByte d).toNat = 0x30 + d := by
  rw [digitByte, BitVec.toNat_ofNat, Nat.mod_eq_of_lt (by omega)]

theorem isDigit_iff (b : Byte) : isDigit b = true ↔ 0x30 ≤ b.toNat ∧ b.toNat ≤ 0x39 := by
  simp [isDigit]

theorem isDigit_digitByte {d : Nat} (h : d < 10) : isDigit (digitByte d) = true := by
  rw [isDigit_iff, digitByte_toNat h]
  omega

theorem parseDec_of_nondigit {s : Bytes} {b : Byte} (hb : b ∈ s) (nondigit : isDigit b = false) :
    parseDec s = .notNumeric := by
  have notAll : s.all isDigit = false := List.all_eq_false.mpr ⟨b, hb, by simp [nondigit]⟩
  rw [parseDec, if_pos (.inr notAll)]

theorem not_mem_of_parseDec_value {s : Bytes} {v : U64} {b : Byte} (h : parseDec s = .value v)
    (nondigit : isDigit b = false) : b ∉ s := fun hb => by
  simp [parseDec_of_nondigit hb nondigit] at h

section
variable {ds : List Nat} (digits : ∀ d ∈ ds, d < 10)
include digits

theorem decValue_map_digitByte : decValue (ds.map digitByte) = Nat.ofDigits 10 ds.reverse := by
  rw [decValue, List.foldl_map, Nat.ofDigits_eq_foldr, List.foldr_reverse]
  refine List.foldl_ext _ _ _ fun v d hd => ?_
  rw [digitByte_toNat (digits d hd), Nat.cast_id]
  omega

theorem parseDec_map_digitByte (nonempty : ds ≠ []) :
    parseDec (ds.map digitByte) =
      if 2 ^ 64 ≤ Nat.ofDigits 10 ds.reverse then .outOfRange
      else .value (BitVec.ofNat 64 (Nat.ofDigits 10 ds.reverse)) := by
  have allDigits : (ds.map digitByte).all isDigit = true := by
    rw [List.all_map, List.all_eq_true]
    exact fun d hd => isDigit_digitByte (digits d hd)
  have numeric : ¬(ds.map digitByte = [] ∨ (ds.map digitByte).all isDigit = false) := by
    simp [nonempty, allDigits]
  rw [parseDec, if_neg numeric, decValue_map_digitByte digits]

end

/-- Settles O35: `parseDec_of_nondigit`, and `parseDec_map_digitByte` on either side of 2^64. -/
theorem decimalSizeParses : Obligations.DecimalSizeParses := by
  refine ⟨rfl, ?nondigit, fun ds nonempty digits => ⟨fun fits => ?fits, fun wraps => ?wraps⟩⟩
  case nondigit =>
    rintro s ⟨b, hb, outside⟩
    refine parseDec_of_nondigit hb (Bool.eq_false_iff.mpr fun digit => ?_)
    rw [isDigit_iff] at digit
    omega
  case fits =>
    exact ⟨_, (parseDec_map_digitByte digits nonempty).trans (if_neg (Nat.not_le.mpr fits)), Nat.mod_eq_of_lt fits⟩
  case wraps => exact (parseDec_map_digitByte digits nonempty).trans (if_pos wraps)

/-- The digits Dec takes are the library's, except that zero has one. -/
theorem decDigitsRev_eq_digits {n v : Nat} (h : v < 10 ^ (n + 1)) :
    decDigitsRev (n + 1) v = (v % 10 :: Nat.digits 10 (v / 10)).map digitByte := by
  induction n generalizing v with
  | zero =>
    have single : v / 10 = 0 := by omega
    rw [decDigitsRev, if_pos single, single, Nat.digits_zero]
    rfl
  | succ n ih =>
    rw [decDigitsRev, List.map_cons, digitByte]
    congr 1
    split
    case isTrue last => rw [last, Nat.digits_zero, List.map_nil]
    case isFalse more =>
      rw [ih (by rw [Nat.pow_succ] at h; omega), ← Nat.digits_def' (by decide) (Nat.pos_of_ne_zero more)]

theorem dec_eq_digits (v : U64) : dec v = (v.toNat % 10 :: Nat.digits 10 (v.toNat / 10)).reverse.map digitByte := by
  rw [dec, decDigitsRev_eq_digits (by have := v.isLt; omega), List.map_reverse]

theorem parseDec_dec (v : U64) : parseDec (dec v) = .value v := by
  have digits : ∀ d ∈ (v.toNat % 10 :: Nat.digits 10 (v.toNat / 10)).reverse, d < 10 := by
    intro d hd
    rcases List.mem_cons.mp (List.mem_reverse.mp hd) with rfl | hd
    · omega
    · exact Nat.digits_lt_base (by decide) hd
  have spells : Nat.ofDigits 10 (v.toNat % 10 :: Nat.digits 10 (v.toNat / 10)) = v.toNat := by
    rw [Nat.ofDigits_cons, Nat.ofDigits_digits]
    exact Nat.mod_add_div v.toNat 10
  rw [dec_eq_digits, parseDec_map_digitByte digits (by simp), List.reverse_reverse, spells, if_neg (Nat.not_le.mpr v.isLt),
    BitVec.ofNat_toNat, BitVec.setWidth_eq]

/-! ## The fields of a FILE line (42_frame_codec.md R166, R170, R171) -/

theorem splitColon_ne_nil (b : Bytes) : splitColon b ≠ [] := by
  cases b with
  | nil => exact List.cons_ne_nil _ _
  | cons c b =>
    rw [splitColon]
    split
    case h_1 => exact List.cons_ne_nil _ _
    case h_2 => split <;> exact List.cons_ne_nil _ _

/-- A colon begins an empty piece before the others; another byte joins the first piece. -/
theorem splitColon_cons (c : Byte) (b : Bytes) :
    splitColon (c :: b) = if c = colon then [] :: splitColon b else (splitColon b).modifyHead (c :: ·) := by
  rw [splitColon]
  split
  case h_1 empty => exact absurd empty (splitColon_ne_nil b)
  case h_2 pieces => rw [pieces, List.modifyHead_cons]

theorem splitColon_length (b : Bytes) : (splitColon b).length = b.count colon + 1 := by
  induction b with
  | nil => rfl
  | cons c b ih =>
    rw [splitColon_cons, List.count_cons]
    by_cases hc : c = colon
    · simp [hc, ih]
    · simp [hc, ih]

section
variable {a : Bytes} (h : colon ∉ a)
include h

theorem splitColon_of_not_mem : splitColon a = [a] := by
  induction a with
  | nil => rfl
  | cons c a ih =>
    obtain ⟨hc, ha⟩ := List.ne_and_not_mem_of_not_mem_cons h
    rw [splitColon_cons, if_neg (Ne.symm hc), ih ha, List.modifyHead_cons]

theorem splitColon_append_colon (b : Bytes) : splitColon (a ++ colon :: b) = a :: splitColon b := by
  induction a with
  | nil => rw [List.nil_append, splitColon_cons, if_pos rfl]
  | cons c a ih =>
    obtain ⟨hc, ha⟩ := List.ne_and_not_mem_of_not_mem_cons h
    rw [List.cons_append, splitColon_cons, if_neg (Ne.symm hc), ih ha, List.modifyHead_cons]

end

theorem parseFile_of_count_ne {line : Bytes} (h : line.count colon ≠ 3) : parseFile line = .error .fieldCount := by
  rw [parseFile]
  split
  case h_1 fields =>
    have length := splitColon_length line
    rw [fields] at length
    exact absurd (Nat.succ.inj length).symm h
  case h_2 => rfl

/-- The tag's own colon ends the first of the four fields. -/
theorem parseHeader_of_three_fields {name o p : Bytes} (hname : colon ∉ name) (ho : colon ∉ o) (hp : colon ∉ p) :
    parseHeader (fileTag ++ name ++ [colon] ++ o ++ [colon] ++ p) = parseSizes name o p := by
  have cut : fileTag ++ name ++ [colon] ++ o ++ [colon] ++ p =
      [0x46#8, 0x49#8, 0x4C#8, 0x45#8] ++ colon :: (name ++ colon :: (o ++ colon :: p)) := by
    simp [fileTag, colon]
  rw [cut, parseHeader_of_fileTag rfl, parseFile, splitColon_append_colon (by decide), splitColon_append_colon hname,
    splitColon_append_colon ho, splitColon_of_not_mem hp]

theorem parseSizes_of_values (name : Bytes) {orig pad : Bytes} {o p : U64} (ho : parseDec orig = .value o)
    (hp : parseDec pad = .value p) :
    parseSizes name orig pad = if p.toNat % 8 ≠ 0 then .error .padNotMult8 else .file name o p := by
  simp only [parseSizes, ho, hp]

/-- Settles O34: `parseFile_of_count_ne`, and `parseSizes` check by check on the three fields. -/
theorem fileHeaderChecksInOrder : Obligations.FileHeaderChecksInOrder := by
  refine ⟨fun line tag count => (parseHeader_of_fileTag tag).trans (parseFile_of_count_ne count), ?_⟩
  intro name o p hname ho hp line hline
  have fields : parseHeader line = parseSizes name o p :=
    (congrArg parseHeader hline).trans (parseHeader_of_three_fields hname ho hp)
  rw [fields]
  refine ⟨fun orig => ?origNotNumeric, fun orig => ?origRange, fun ov orig => ⟨fun pad => ?padNotNumeric,
    fun pad => ?padRange, fun pv pad => ⟨fun rest => ?padNotMult8, fun rest => ?good⟩⟩⟩
  case origNotNumeric | origRange => rw [parseSizes, orig]
  case padNotNumeric | padRange => simp only [parseSizes, orig, pad]
  case padNotMult8 => exact (parseSizes_of_values name orig pad).trans (if_pos rest)
  case good => exact (parseSizes_of_values name orig pad).trans (if_neg (not_not.mpr rest))

/-! ## What a sender writes (42_frame_codec.md R175; 45_send_path.md R243, R244) -/

section
variable {name : Bytes} (o p : U64)

theorem parseHeader_fileHeaderLine (noColon : colon ∉ name) (hp : p.toNat % 8 = 0) :
    parseHeader (fileHeaderLine name o p) = .file name o p := by
  have sizeNoColon (v : U64) : colon ∉ dec v := not_mem_of_parseDec_value (parseDec_dec v) (by decide)
  rw [fileHeaderLine, parseHeader_of_three_fields noColon (sizeNoColon o) (sizeNoColon p),
    parseSizes_of_values name (parseDec_dec o) (parseDec_dec p), if_neg (not_not.mpr hp)]

theorem lineEnd_not_mem_fileHeaderLine (noEnd : lineEnd ∉ name) : lineEnd ∉ fileHeaderLine name o p := by
  have sizeNoEnd (v : U64) : lineEnd ∉ dec v := not_mem_of_parseDec_value (parseDec_dec v) (by decide)
  have tagNoEnd : lineEnd ∉ fileTag := by decide
  have colonNoEnd : lineEnd ∉ [colon] := by decide
  simp only [fileHeaderLine, List.mem_append, not_or]
  exact ⟨⟨⟨⟨⟨tagNoEnd, noEnd⟩, colonNoEnd⟩, sizeNoEnd o⟩, colonNoEnd⟩, sizeNoEnd p⟩

theorem serializeFileHeader_of_valid (noColon : colon ∉ name) (noEnd : lineEnd ∉ name) (hp : p.toNat % 8 = 0) :
    serializeFileHeader name o p = some (fileHeaderLine name o p ++ [lineEnd]) :=
  if_neg (by simp [noColon, noEnd, hp])

end

theorem serializeText_of_valid {m : Bytes} (noEnd : lineEnd ∉ m) : serializeText m = some (textTag ++ m ++ [lineEnd]) :=
  if_neg noEnd

theorem lineEnd_not_mem_textTag_append {m : Bytes} (noEnd : lineEnd ∉ m) : lineEnd ∉ textTag ++ m :=
  List.not_mem_append (by decide) noEnd

/-- Settles O36: the lemmas above, for a file and for a text. -/
theorem headerRoundTrip : Obligations.HeaderRoundTrip :=
  ⟨fun _ o p noColon noEnd hp =>
    ⟨_, serializeFileHeader_of_valid o p noColon noEnd hp, lineEnd_not_mem_fileHeaderLine o p noEnd,
      parseHeader_fileHeaderLine o p noColon hp⟩,
   fun m noEnd => ⟨serializeText_of_valid noEnd, lineEnd_not_mem_textTag_append noEnd, parseHeader_textTag_append m⟩⟩

/-! ## A pass of the receive loop in AWAITING_HEADER (42_frame_codec.md R163; 43_transfer_session.md R192, R193) -/

section
variable {s : State}

theorem State.pass_of_awaitingHeader (h : s.phase = .awaitingHeader) : s.pass = s.headerStep := by
  rw [State.pass, h]

theorem State.headerStep_of_no_line (h : lineEnd ∉ s.buf) :
    s.headerStep = .stop (if tooLong s.lineMax s.buf.length then s.protocolError .lineTooLong else s) := by
  rw [State.headerStep, (takeLine_none_iff s.buf).mpr h]

theorem State.headerStep_of_line {line rest : Bytes} (hbuf : s.buf = line ++ lineEnd :: rest) (h : lineEnd ∉ line) :
    s.headerStep = (s.setBuf rest).headerLine line := by
  rw [State.headerStep, hbuf, takeLine_append line rest h]

theorem State.headerLine_of_tooLong {line : Bytes} (h : tooLong s.lineMax line.length = true) :
    s.headerLine line = .stop (s.protocolError .lineTooLong) :=
  if_pos h

variable {line : Bytes} (fits : tooLong s.lineMax line.length = false)
include fits

theorem State.headerLine_of_text {body : Bytes} (h : parseHeader line = .text body) :
    s.headerLine line = .again (s.textFrame body) := by
  rw [State.headerLine, if_neg (Bool.eq_false_iff.mp fits), h]

theorem State.headerLine_of_file {name : Bytes} {o p : U64} (h : parseHeader line = .file name o p) :
    s.headerLine line = .again (s.fileFrame name o p) := by
  rw [State.headerLine, if_neg (Bool.eq_false_iff.mp fits), h]

theorem State.headerLine_of_error {reason : Reason} (h : parseHeader line = .error reason) :
    s.headerLine line = .stop (s.protocolError reason) := by
  rw [State.headerLine, if_neg (Bool.eq_false_iff.mp fits), h]

end

/-- Settles O39: the pass is HeaderStep, and the loop is that pass or goes on from it. -/
theorem headerStepByLine : Obligations.HeaderStepByLine := by
  intro s awaiting
  have pass := State.pass_of_awaitingHeader awaiting
  refine ⟨fun noLine fits => ?rests, fun noLine exceeds => ?overflows, fun line rest hbuf noEnd => ?line⟩
  case rests => exact s.receiveLoop_of_atRest (.inl ⟨awaiting, noLine, (tooLong_eq_false _ _).mpr fits⟩)
  case overflows =>
    refine s.receiveLoop_of_stop _ (pass.trans ?_)
    rw [State.headerStep_of_no_line noLine, if_pos ((tooLong_eq_true _ _).mpr exceeds)]
  case line =>
    replace pass : s.pass = (s.setBuf rest).headerLine line := pass.trans (State.headerStep_of_line hbuf noEnd)
    refine ⟨fun exceeds => ?exceeds, fun fits => ?fits⟩
    case exceeds =>
      exact s.receiveLoop_of_stop _ (pass.trans (State.headerLine_of_tooLong ((tooLong_eq_true _ _).mpr exceeds)))
    case fits =>
      have fits : tooLong (s.setBuf rest).lineMax line.length = false := (tooLong_eq_false _ _).mpr fits
      exact ⟨fun _ text => s.receiveLoop_of_again _ (pass.trans (State.headerLine_of_text fits text)),
        fun _ _ _ file => s.receiveLoop_of_again _ (pass.trans (State.headerLine_of_file fits file)),
        fun _ error => s.receiveLoop_of_stop _ (pass.trans (State.headerLine_of_error fits error))⟩

end Sys2Proof.Machine

/-! PROOFS of the family 43_transfer_session.md: the parts of the receive loop by the sink's answers, the loop,
DISCONNECT, what a trace may hold, and byte streams that come in parts. -/

namespace Sys2Proof.Machine

/-! ## The parts of the receive loop, by the sink's answers (43_transfer_session.md R194 to R198) -/

section
variable (s : State)

section
variable (name : Bytes) (o p : U64)

theorem State.fileFrame_of_ok (h : (s.openTransfer name o p).answersOk = true) :
    s.fileFrame name o p =
      { (s.openTransfer name o p).sinkOp (.sopen (Config.sinkName name)) with
        sinkHeld := true, phase := .receivingBody } := by
  simp [State.fileFrame, h]

theorem State.fileFrame_of_fail (h : (s.openTransfer name o p).answersOk = false) :
    s.fileFrame name o p =
      { ((s.openTransfer name o p).sinkOp (.sopen (Config.sinkName name))).ioAbort .sopen with
        phase := .receivingBody } := by
  simp [State.fileFrame, h]

end

theorem State.decryptAndWrite_of_ok (c : Bytes) (h : s.releaseDatapath.answersOk = true) :
    s.decryptAndWrite c = s.releaseDatapath.sinkOp (.swrite (crypt s.sbox s.ks .decrypt c)) := by
  simp [State.decryptAndWrite, h]

theorem State.decryptAndWrite_of_fail (c : Bytes) (h : s.releaseDatapath.answersOk = false) :
    s.decryptAndWrite c = (s.releaseDatapath.sinkOp (.swrite (crypt s.sbox s.ks .decrypt c))).ioAbort .swrite := by
  simp [State.decryptAndWrite, h]

theorem State.complete_of_sinkFailed (h : s.sinkFailed = true) : s.complete = s.closeTransfer := by
  simp [State.complete, h]

section
variable (clear : s.sinkFailed = false)
include clear

theorem State.complete_of_strunc_fail (h : s.answersOk = false) :
    s.complete = ((s.sinkOp (.strunc s.origSize)).ioAbort .strunc).closeTransfer := by
  simp [State.complete, State.finishFile, clear, h]

variable (cut : s.answersOk = true)
include cut

theorem State.complete_of_sclose_fail (h : (s.sinkOp (.strunc s.origSize)).answersOk = false) :
    s.complete = (((s.sinkOp (.strunc s.origSize)).sinkOp .sclose).ioAbort .sclose).closeTransfer := by
  simp [State.complete, State.finishFile, State.closeAndDeliver, clear, cut, h]

theorem State.complete_of_delivered (h : (s.sinkOp (.strunc s.origSize)).answersOk = true) :
    s.complete =
      (((s.sinkOp (.strunc s.origSize)).sinkOp .sclose).emit (.file (Config.sinkName s.fname))).closeTransfer := by
  simp only [State.complete, State.finishFile, State.closeAndDeliver, State.sinkOp_fname, clear, cut, h, if_true,
    Bool.false_eq_true, if_false]
  rfl

end

theorem transferClear_closeTransfer : TransferClear s.closeTransfer := ⟨rfl, rfl, rfl, rfl, rfl, rfl⟩

theorem setSticky_ioBit (st : BitVec 8) : setSticky st ioBit = st ||| 0x80#8 := rfl

end

/-- Settles O40: the answer to the SOPEN decides (`State.fileFrame_of_ok`, `State.fileFrame_of_fail`). -/
theorem fileFrameOpensSink : Obligations.FileFrameOpensSink := by
  intro s name o p w
  have scripted (a : Byte) (rest : Bytes) (ha : s.answers = a :: rest) :
      (s.openTransfer name o p).answersOk = (a == 0x00#8) := State.answersOk_of_cons _ a rest ha
  cases h : (s.openTransfer name o p).answersOk with
  | true =>
    refine ⟨_, true, s.fileFrame_of_ok name o p h, fun a rest ha => h ▸ scripted a rest ha, ?_⟩
    simp [w]
  | false =>
    refine ⟨_, false, s.fileFrame_of_fail name o p h, fun a rest ha => h ▸ scripted a rest ha, ?_⟩
    simp +contextual [w, abortItems, setSticky_ioBit, State.ioAbort_eq, State.sinkOp_sink_of_fail _ _ h]

/-- Settles O42: the answer to the SWRITE decides. -/
theorem chunkIsDecryptedAndWritten : Obligations.ChunkIsDecryptedAndWritten := by
  intro s c w
  have scripted (a : Byte) (rest : Bytes) (ha : s.answers = a :: rest) : s.releaseDatapath.answersOk = (a == 0x00#8) :=
    State.answersOk_of_cons _ a rest ha
  cases h : s.releaseDatapath.answersOk with
  | true =>
    refine ⟨_, true, s.decryptAndWrite_of_ok c h, fun a rest ha => h ▸ scripted a rest ha, ?_⟩
    simp [w]
  | false =>
    refine ⟨_, false, s.decryptAndWrite_of_fail c h, fun a rest ha => h ▸ scripted a rest ha, ?_⟩
    simp [w, abortItems, setSticky_ioBit]

/-- Settles O43: SINK_FAILED, and then the answers to the STRUNC and the SCLOSE, decide between four ends. -/
theorem completionTruncatesClosesDelivers : Obligations.CompletionTruncatesClosesDelivers := by
  intro s truncated closed
  have scripted (a : Byte) (rest : Bytes) (ha : s.answers = a :: rest) : s.answersOk = (a == 0x00#8) ∧
      ∀ b more, rest = b :: more → truncated.answersOk = (b == 0x00#8) := by
    refine ⟨s.answersOk_of_cons a rest ha, fun b more hb => State.answersOk_of_cons _ b more ?_⟩
    rw [s.sinkOp_answers_of_cons _ a rest ha, hb]
  refine ⟨_, s.answersOk, truncated.answersOk, rfl, fun _ => scripted, s.complete_phase, s.complete_buf,
    transferClear_closeTransfer _, fun failed => ?failed, fun clear cut shut => ?delivered,
    fun clear cut unshut => ?closeFails, fun clear uncut => ?truncFails⟩
  case failed => simp [s.complete_of_sinkFailed failed]
  case delivered => simp [s.complete_of_delivered clear cut shut, truncated, closed]
  case closeFails => simp [s.complete_of_sclose_fail clear cut unshut, truncated, closed, abortItems, setSticky_ioBit]
  case truncFails => simp [s.complete_of_strunc_fail clear uncut, truncated, abortItems, setSticky_ioBit]

/-! ## Errors inside the loop (43_transfer_session.md R199, R200) -/

theorem abortItems_eq (op : SinkKind) (held : Bool) :
    abortItems op held = .event (.ioError op) ::
      (if held = false then [] else if op = .sclose then [.sink .sdelete] else [.sink .sclose, .sink .sdelete]) := by
  cases held <;> simp [abortItems]

section
variable (s : State) (op : SinkKind) (held : s.sinkHeld = true)
include held

theorem State.ioAbort_sink_of_held : (s.ioAbort op).sink = (s.abandonFile (op != .sclose)).sink := by
  simp [State.ioAbort_eq, held]

theorem State.ioAbort_answers_of_held : (s.ioAbort op).answers = (s.abandonFile (op != .sclose)).answers := by
  simp [State.ioAbort_eq, held]

end

/-- What a cleanup with its answers scripted leaves: SDELETE's byte `b` decides over the file CUR names. -/
theorem State.abandonFile_of_scripted (s : State) (c : Bool) (a b : Byte) (rest : Bytes)
    (h : s.answers = (if c then [a, b] else [b]) ++ rest) :
    (s.abandonFile c).answers = rest ∧
    (b = 0x00#8 → ∀ name, s.sink.cur = some name → lookupFile (s.abandonFile c).sink.fs name = none) ∧
    (b ≠ 0x00#8 → (s.abandonFile c).sink = s.sink) := by
  have sink := s.abandonFile_sink_of_cons c a b rest h
  refine ⟨s.abandonFile_answers_of_cons c a b rest h, fun hb name hc => ?_, fun hb => ?_⟩
  · rw [sink, if_pos hb]
    exact s.sink.apply_sdelete_current 0 name hc
  · rw [sink, if_neg hb]

/-- Settles O44: `State.ioAbort_eq`, and what the cleanup leaves (`State.abandonFile_of_scripted`, `State.ioAbort_other`). -/
theorem errorsInsideTheLoop : Obligations.ErrorsInsideTheLoop := by
  refine ⟨fun s reason => rfl, fun s op => ?whole, fun s op a b rest held ha => ?scripted,
    fun s op other => s.ioAbort_other op other⟩
  case whole => exact (s.ioAbort_eq op).trans (by rw [abortItems_eq]; rfl)
  case scripted =>
    rw [s.ioAbort_sink_of_held op held, s.ioAbort_answers_of_held op held]
    exact s.abandonFile_of_scripted _ a b rest (by rw [ha]; cases op <;> rfl)

/-! ## The receive loop (43_transfer_session.md R190, R191, R195, R196) -/

section
variable {s : State}

/-- What the loop makes of a pass: it ends where the pass stops, and goes on elsewhere. -/
def Pass.resume : Pass → State
  | .stop t => t
  | .again t => t.receiveLoop

theorem State.receiveLoop_eq_resume (s : State) : s.receiveLoop = s.pass.resume := by
  cases h : s.pass with
  | stop t => exact s.receiveLoop_of_stop t h
  | again t => exact s.receiveLoop_of_again t h

theorem State.pass_of_receivingBody (h : s.phase = .receivingBody) : s.pass = s.bodyStep := by
  rw [State.pass, h]

/-- Between commands the loop rests. -/
theorem SessionInv.atRest (h : SessionInv s) : s.atRest := by
  cases hp : s.phase with
  | awaitingHeader =>
    obtain ⟨noLine, -, fits⟩ := h.awaiting hp
    exact .inl ⟨hp, noLine, (tooLong_eq_false _ _).mpr fits⟩
  | receivingBody =>
    obtain ⟨positive, -, partialChunk, -⟩ := h.receiving hp
    refine .inr (.inl ⟨hp, fun zero => ?_, partialChunk⟩)
    simp [zero] at positive
  | desynchronized => exact .inr (.inr hp)

theorem State.begin_of_noTrace (h : s.trace = []) : s.begin = s := by
  rw [State.begin, ← h]

variable (p : Bytes)

theorem exec_ingest_of_not_keyed (h : s.keyValid = false) : exec (.ingest p) s = .next (s.fail .noKey) := if_pos h

theorem exec_ingest_of_desync (hk : s.keyValid = true) (h : s.phase = .desynchronized) :
    exec (.ingest p) s = .next (s.fail .desync) := by
  simp [exec, execIngest, hk, h]

theorem exec_ingest_of_inStep (hk : s.keyValid = true) (h : s.phase ≠ .desynchronized) :
    exec (.ingest p) s = .next ((s.begin.receive p).receiveLoop.respond []) := by
  simp [exec, execIngest, hk, h]

end

/-- Settles O37: the three ways through INGEST, and that between commands the loop rests (`SessionInv.atRest`). -/
theorem ingestAppendsAndRunsLoop : Obligations.IngestAppendsAndRunsLoop := by
  intro p s
  refine ⟨rfl, exec_ingest_of_not_keyed p, exec_ingest_of_desync p, fun hk inStep => ⟨_, rfl, ?ran⟩,
    fun inv hk inStep => ?empty⟩
  case ran =>
    have sent : (s.begin.receive p).receiveLoop.done = s.done := (sameOutside_receiveLoop _).done
    rw [exec_ingest_of_inStep p hk inStep, State.respond, State.finish, sent]
    rfl
  case empty =>
    have session := inv.session
    rw [exec_ingest_of_inStep [] hk inStep, State.receive_nil, State.begin_of_noTrace session.noTrace,
      s.receiveLoop_of_atRest session.atRest, State.respond, State.finish, session.noTrace]
    rfl

/-- Settles O38: a pass is the step of its phase, and the loop ends where it rests. -/
theorem receiveLoopRunsToSuspension : Obligations.ReceiveLoopRunsToSuspension := by
  intro s
  refine ⟨fun hp => ?header, fun hp => ?body, fun hp => s.receiveLoop_of_atRest (.inr (.inr hp)), ?rests⟩
  case header =>
    rw [s.receiveLoop_eq_resume, State.pass_of_awaitingHeader hp]
    rfl
  case body =>
    rw [s.receiveLoop_eq_resume, State.pass_of_receivingBody hp]
    rfl
  case rests =>
    rcases s.receiveLoop_atRest with ⟨hp, noLine, -⟩ | body | desync
    · exact .inl ⟨hp, noLine⟩
    · exact .inr (.inl body)
    · exact .inr (.inr desync)

section
variable {s : State} (hp : s.phase = .receivingBody)
include hp

theorem State.pass_of_body_complete (h : s.remain = 0#64) : s.pass = .again s.complete := by
  rw [State.pass_of_receivingBody hp, State.bodyStep, if_pos h]

variable (owed : s.remain ≠ 0#64) (whole : 8 ≤ s.buf.length)
include owed whole

theorem State.pass_of_chunk_dropped (failed : s.sinkFailed = true) : s.pass = .again s.takeChunk := by
  rw [State.pass_of_receivingBody hp, State.bodyStep, if_neg owed, if_neg (Nat.not_lt.mpr whole), if_pos failed]

theorem State.pass_of_chunk_written (clear : s.sinkFailed = false) :
    s.pass = .again (s.takeChunk.decryptAndWrite (slice s.buf 0 8)) := by
  rw [State.pass_of_receivingBody hp, State.bodyStep, if_neg owed, if_neg (Nat.not_lt.mpr whole),
    if_neg (Bool.eq_false_iff.mp clear)]

end

/-- Settles O41: the four ways through BodyStep; the loop rests at one, and goes on from the others. -/
theorem bodyStepByChunk : Obligations.BodyStepByChunk := fun s hp =>
  ⟨fun complete => s.receiveLoop_of_again _ (State.pass_of_body_complete hp complete),
   fun owed short => s.receiveLoop_of_atRest (.inr (.inl ⟨hp, owed, short⟩)),
   fun owed whole =>
    ⟨fun failed => s.receiveLoop_of_again _ (State.pass_of_chunk_dropped hp owed whole failed),
     fun clear => s.receiveLoop_of_again _ (State.pass_of_chunk_written hp owed whole clear)⟩⟩

/-! ## DISCONNECT (43_transfer_session.md R205) -/

section
variable {s : State}

theorem State.loseConnection_of_held (h : s.phase = .receivingBody ∧ s.sinkHeld = true) :
    s.loseConnection = (((s.abandonFile true).emit .connLost).setBuf []).closeTransfer := by
  simp only [State.loseConnection, if_pos h]
  rfl

theorem State.loseConnection_of_not_held (h : ¬(s.phase = .receivingBody ∧ s.sinkHeld = true)) :
    s.loseConnection = ((s.emit .connLost).setBuf []).closeTransfer := by
  simp only [State.loseConnection, if_neg h]
  rfl

@[simp] theorem State.loseConnection_phase (s : State) : s.loseConnection.phase = .awaitingHeader := rfl

/-- A cleanup does the same at the start of a command, where the trace is empty. -/
theorem State.abandonFile_begin (s : State) (c : Bool) :
    s.begin.abandonFile c =
      (s.abandonFile c).noted ((if c then [.sink .sclose] else []) ++ [.sink .sdelete]) s.sticky :=
  s.abandonFile_noted c [] s.sticky

theorem exec_disconnect_of_length_ne {p : Bytes} (h : p.length ≠ 0) :
    exec (.disconnect p) s = .next (s.fail .illegalCmd) := if_pos h

theorem exec_disconnect_of_length_eq {p : Bytes} (h : p.length = 0) :
    exec (.disconnect p) s = .next (s.begin.loseConnection.respond []) := if_neg (not_not.mpr h)

end

/-- Settles O45: with a sink held in RECEIVING_BODY the cleanup runs first (`State.abandonFile_of_scripted`), and elsewhere
the sink is not touched. -/
theorem disconnectResetsSession : Obligations.DisconnectResetsSession := by
  intro p s
  refine ⟨rfl, exec_disconnect_of_length_ne, fun hp => ?_⟩
  rw [exec_disconnect_of_length_eq hp]
  by_cases h : s.phase = .receivingBody ∧ s.sinkHeld = true
  case pos =>
    refine ⟨(s.abandonFile true).sink, (s.abandonFile true).answers, (s.abandonFile true).draws, ?_, fun hn => absurd h hn,
      fun _ _ => ⟨⟨rfl, rfl, rfl⟩, fun a b rest ha => s.abandonFile_of_scripted true a b rest ha⟩,
      fun other => s.abandonFile_other true other⟩
    rw [State.loseConnection_of_held (s := s.begin) h, State.abandonFile_begin, if_pos h, Host.Outcome.next.injEq,
      State.mk.injEq]
    simp [State.noted, okResult]
  case neg =>
    refine ⟨s.sink, s.answers, s.draws, ?_, fun _ => ⟨rfl, rfl, rfl⟩, fun hp held => absurd ⟨hp, held⟩ h,
      fun _ _ => rfl⟩
    rw [State.loseConnection_of_not_held (s := s.begin) h, if_neg h]
    rfl

/-- Settles O46: a failure and every command outside the session leave the phase alone; INGEST runs only where it is not
DESYNCHRONIZED, and DISCONNECT ends awaiting a header. -/
theorem onlyDisconnectEndsDesync : Obligations.OnlyDisconnectEndsDesync := by
  intro i s t h
  have kept (same : t.phase = s.phase) :
      (s.phase = .desynchronized → t.phase ≠ .desynchronized → i = .disconnect []) ∧
      (s.phase ≠ .desynchronized → t.phase = .desynchronized → ∃ p, i = .ingest p) :=
    ⟨fun desync left => absurd (same.trans desync) left, fun inStep desync => absurd (same.symm.trans desync) inStep⟩
  rcases exec_cases i s t h with ⟨f, rfl⟩ | ⟨d, u, ho, rfl⟩
  · exact kept (State.fail_phase s f)
  · have other (hi : isSessionCommand i = false) : (u.respond d).phase = s.phase := (ho.sameSession hi).phase
    cases ho with
    | ingest p keyed inStep => exact ⟨fun desync => absurd desync inStep, fun _ _ => ⟨p, rfl⟩⟩
    | disconnect => exact ⟨fun _ _ => rfl, fun _ desync => by simp at desync⟩
    | _ => exact kept (other rfl)

/-! ## What a pass adds to the trace (43_transfer_session.md R207, 60_exceptions.md R266) -/

/-- Neither a delivered file nor a protocol error: an item whose place in a trace is free. -/
def TraceItem.Ordinary (item : TraceItem) : Prop :=
  (∀ name, item ≠ .event (.file name)) ∧ ∀ reason, item ≠ .event (.protocolError reason)

/-- The trace of `t` is that of `s` and ordinary items after it. -/
def AddsOrdinary (s t : State) : Prop :=
  ∃ items, t.trace = s.trace ++ items ∧ ∀ item ∈ items, item.Ordinary

theorem ordinary_sink (op : SinkOp) : (TraceItem.sink op).Ordinary := by simp [TraceItem.Ordinary]

theorem ordinary_connLost : (TraceItem.event .connLost).Ordinary := by simp [TraceItem.Ordinary]

theorem ordinary_abortItems (op : SinkKind) (held : Bool) : ∀ item ∈ abortItems op held, item.Ordinary := by
  rw [abortItems_eq]
  split_ifs <;> simp [TraceItem.Ordinary]

namespace AddsOrdinary

variable {s t u : State}

theorem of_eq (h : t.trace = s.trace) : AddsOrdinary s t := ⟨[], by simp [h], by simp⟩

theorem append (h : AddsOrdinary s u) {items : List TraceItem} (ht : t.trace = u.trace ++ items)
    (ordinary : ∀ item ∈ items, item.Ordinary) : AddsOrdinary s t := by
  obtain ⟨before, hu, hb⟩ := h
  exact ⟨before ++ items, by rw [ht, hu, List.append_assoc], List.forall_mem_append.mpr ⟨hb, ordinary⟩⟩

theorem congr (h : AddsOrdinary s u) (ht : t.trace = u.trace) : AddsOrdinary s t :=
  h.append (items := []) (by simp [ht]) (by simp)

theorem emit (h : AddsOrdinary s u) {e : Event} (he : (TraceItem.event e).Ordinary) : AddsOrdinary s (u.emit e) :=
  h.append rfl (by simpa using he)

theorem sinkOp (h : AddsOrdinary s u) (op : SinkOp) : AddsOrdinary s (u.sinkOp op) :=
  h.append (u.sinkOp_trace op) (by simpa using ordinary_sink op)

theorem ioAbort (h : AddsOrdinary s u) (op : SinkKind) : AddsOrdinary s (u.ioAbort op) :=
  h.append (u.ioAbort_trace op) (ordinary_abortItems op u.sinkHeld)

variable (s)

theorem textFrame (body : Bytes) : AddsOrdinary s (s.textFrame body) :=
  (of_eq rfl).emit (by simp [TraceItem.Ordinary])

theorem fileFrame (name : Bytes) (o p : U64) : AddsOrdinary s (s.fileFrame name o p) := by
  have opened : AddsOrdinary s ((s.openTransfer name o p).sinkOp (.sopen (Config.sinkName name))) := (of_eq rfl).sinkOp _
  cases h : (s.openTransfer name o p).answersOk with
  | true => rw [s.fileFrame_of_ok name o p h]; exact opened.congr rfl
  | false => rw [s.fileFrame_of_fail name o p h]; exact (opened.ioAbort .sopen).congr rfl

theorem decryptAndWrite (c : Bytes) : AddsOrdinary s (s.decryptAndWrite c) := by
  have written : AddsOrdinary s (s.releaseDatapath.sinkOp (.swrite (crypt s.sbox s.ks .decrypt c))) := (of_eq rfl).sinkOp _
  cases h : s.releaseDatapath.answersOk with
  | true => rw [s.decryptAndWrite_of_ok c h]; exact written
  | false => rw [s.decryptAndWrite_of_fail c h]; exact written.ioAbort .swrite

theorem loseConnection : AddsOrdinary s s.loseConnection := by
  by_cases h : s.phase = .receivingBody ∧ s.sinkHeld = true
  · rw [State.loseConnection_of_held h]
    have cleaned : AddsOrdinary s (s.abandonFile true) := ((of_eq rfl).sinkOp .sclose).sinkOp .sdelete
    exact (cleaned.emit ordinary_connLost).congr rfl
  · rw [State.loseConnection_of_not_held h]
    exact ((of_eq rfl).emit ordinary_connLost).congr rfl

end AddsOrdinary

section
variable (s : State)

/-- Completion delivers a file straight after its truncation and its close, or delivers none. -/
theorem State.complete_trace_cases : AddsOrdinary s s.complete ∨
    ∃ size name, s.complete.trace = s.trace ++ [.sink (.strunc size), .sink .sclose] ++ [.event (.file name)] := by
  have cut : AddsOrdinary s (s.sinkOp (.strunc s.origSize)) := (AddsOrdinary.of_eq rfl).sinkOp _
  cases failed : s.sinkFailed with
  | true => exact .inl (.of_eq (by simp [s.complete_of_sinkFailed failed]))
  | false =>
    cases hc : s.answersOk with
    | false => exact .inl ((cut.ioAbort .strunc).congr (by rw [s.complete_of_strunc_fail failed hc]; rfl))
    | true =>
      cases hs : (s.sinkOp (.strunc s.origSize)).answersOk with
      | false =>
        have aborted := (cut.sinkOp .sclose).ioAbort .sclose
        exact .inl (aborted.congr (by rw [s.complete_of_sclose_fail failed hc hs]; rfl))
      | true => exact .inr ⟨s.origSize, Config.sinkName s.fname, by simp [s.complete_of_delivered failed hc hs]⟩

/-- What a pass adds to the trace: ordinary items, a file with its truncation and its close, or a protocol error, which
leaves the session desynchronized. -/
theorem State.pass_trace_cases : AddsOrdinary s s.pass.state ∨
    (∃ size name, s.pass.state.trace = s.trace ++ [.sink (.strunc size), .sink .sclose] ++ [.event (.file name)]) ∨
    ∃ reason, s.pass.state.trace = s.trace ++ [.event (.protocolError reason)] ∧ s.pass.state.phase = .desynchronized := by
  unfold State.pass
  cases s.phase with
  | desynchronized => exact .inl (.of_eq rfl)
  | receivingBody =>
    rcases s.bodyStep_cases with ⟨-, e⟩ | ⟨-, -, e⟩ | ⟨-, -, -, e⟩ | ⟨-, -, -, e⟩ <;> (dsimp only; rw [e])
    · exact s.complete_trace_cases.imp_right .inl
    · exact .inl (.of_eq rfl)
    · exact .inl (.of_eq rfl)
    · exact .inl (AddsOrdinary.decryptAndWrite s.takeChunk _)
  | awaitingHeader =>
    rcases s.headerStep_cases with ⟨-, -, e⟩ | ⟨-, -, e⟩ | ⟨line, rest, -, -, e⟩ <;> (dsimp only; rw [e])
    · exact .inr (.inr ⟨_, rfl, rfl⟩)
    · exact .inl (.of_eq rfl)
    · rcases (s.setBuf rest).headerLine_cases line with ⟨r, e⟩ | ⟨b, -, e⟩ | ⟨n, o, p, -, e⟩ <;> rw [e]
      · exact .inr (.inr ⟨r, rfl, rfl⟩)
      · exact .inl (AddsOrdinary.textFrame (s.setBuf rest) b)
      · exact .inl (AddsOrdinary.fileFrame (s.setBuf rest) n o p)

end

/-! ## Where an item may stand -/

section
variable {α : Type} {xs before after : List α} {x y : α}

/-- An item found in a list with one more at its end is that last one, or is found before it. -/
theorem append_cons_eq_concat (h : xs ++ [y] = before ++ x :: after) :
    (after = [] ∧ x = y ∧ before = xs) ∨ ∃ mid, xs = before ++ x :: mid := by
  rcases List.eq_nil_or_concat after with rfl | ⟨mid, z, rfl⟩
  · obtain ⟨hxs, hy⟩ := List.append_inj' h rfl
    exact .inl ⟨rfl, by simpa [eq_comm] using hy, hxs.symm⟩
  · rw [List.concat_eq_append, ← List.cons_append, ← List.append_assoc] at h
    exact .inr ⟨mid, (List.append_inj' h rfl).1⟩

end

section
variable {trace : List TraceItem}

theorem DeliveredOnlyAfterClose.nil : DeliveredOnlyAfterClose [] := fun before _ _ e => by simp at e

theorem DeliveredOnlyAfterClose.concat (h : DeliveredOnlyAfterClose trace) {item : TraceItem}
    (hi : ∀ name, item = .event (.file name) →
      ∃ earlier size, trace = earlier ++ [.sink (.strunc size), .sink .sclose]) :
    DeliveredOnlyAfterClose (trace ++ [item]) := by
  intro before name after e
  rcases append_cons_eq_concat e with ⟨-, hx, rfl⟩ | ⟨mid, hm⟩
  · exact hi name hx.symm
  · exact h before name mid hm

theorem DeliveredOnlyAfterClose.append (h : DeliveredOnlyAfterClose trace) {items : List TraceItem}
    (ordinary : ∀ item ∈ items, item.Ordinary) : DeliveredOnlyAfterClose (trace ++ items) := by
  induction items using List.reverseRecOn with
  | nil => simpa using h
  | append_singleton items item ih =>
    obtain ⟨first, last⟩ := List.forall_mem_append.mp ordinary
    obtain ⟨notFile, -⟩ := last item (by simp)
    rw [← List.append_assoc]
    exact (ih first).concat fun name e => absurd e (notFile name)

variable {s t : State}

theorem AddsOrdinary.deliveredOnlyAfterClose (h : AddsOrdinary s t) (hs : DeliveredOnlyAfterClose s.trace) :
    DeliveredOnlyAfterClose t.trace := by
  obtain ⟨items, ht, ordinary⟩ := h
  rw [ht]
  exact hs.append ordinary

theorem DeliveredOnlyAfterClose.pass (h : DeliveredOnlyAfterClose s.trace) : DeliveredOnlyAfterClose s.pass.state.trace := by
  rcases s.pass_trace_cases with ordinary | ⟨size, name, e⟩ | ⟨reason, e, -⟩
  · exact ordinary.deliveredOnlyAfterClose h
  · rw [e]
    exact (h.append (by simp [ordinary_sink])).concat fun _ _ => ⟨s.trace, size, rfl⟩
  · rw [e]
    exact h.concat (by simp)

theorem OwnEffect.deliveredOnlyAfterClose {i : Instr} {d : Bytes} (h : OwnEffect s i d t) :
    DeliveredOnlyAfterClose t.trace := by
  cases h with
  | ingest p =>
    exact State.loop_induction (s.begin.receive p) (DeliveredOnlyAfterClose ·.trace)
      (fun _ => DeliveredOnlyAfterClose.pass) _ .nil
  | disconnect => exact (AddsOrdinary.loseConnection s.begin).deliveredOnlyAfterClose .nil
  | _ => exact .nil

end

/-- Settles O47: the empty trace of a failure delivers nothing, and a command's own effect delivers pass by pass
(`DeliveredOnlyAfterClose.pass`). -/
theorem fileDeliveredOnlyAfterClose : Obligations.FileDeliveredOnlyAfterClose := by
  intro i s t res h hd
  rcases result_cases h hd with ⟨f, -, rfl⟩ | ⟨d, u, ho, -, rfl⟩
  · exact .nil
  · exact ho.deliveredOnlyAfterClose

/-! ## A protocol error is the last item of a trace (60_exceptions.md R266) -/

/-- No protocol error stands in the trace. -/
def NoProtocolError (trace : List TraceItem) : Prop :=
  ∀ reason, TraceItem.event (.protocolError reason) ∉ trace

/-- A protocol error has ended the trace, or the session is in step and there is none. -/
structure EndsAtProtocolError (s : State) : Prop where
  onlyLast : ProtocolErrorOnlyLast s.trace
  inStep : s.phase ≠ .desynchronized → NoProtocolError s.trace

section
variable {trace : List TraceItem}

theorem NoProtocolError.nil : NoProtocolError [] := fun _ => List.not_mem_nil

theorem NoProtocolError.append (h : NoProtocolError trace) {items : List TraceItem} (hi : NoProtocolError items) :
    NoProtocolError (trace ++ items) := fun reason =>
  List.not_mem_append (h reason) (hi reason)

theorem NoProtocolError.onlyLast (h : NoProtocolError trace) : ProtocolErrorOnlyLast trace := fun before reason after e =>
  absurd (by simp [e]) (h reason)

/-- Where there was no protocol error, one more item may be one. -/
theorem NoProtocolError.concat_onlyLast (h : NoProtocolError trace) (item : TraceItem) :
    ProtocolErrorOnlyLast (trace ++ [item]) := by
  intro before reason after e
  rcases append_cons_eq_concat e with ⟨ha, -, -⟩ | ⟨mid, hm⟩
  · exact ha
  · exact absurd (by simp [hm]) (h reason)

variable {s t : State}

theorem NoProtocolError.endsAt (h : NoProtocolError s.trace) : EndsAtProtocolError s := ⟨h.onlyLast, fun _ => h⟩

theorem AddsOrdinary.noProtocolError (h : AddsOrdinary s t) (hs : NoProtocolError s.trace) : NoProtocolError t.trace := by
  obtain ⟨items, ht, ordinary⟩ := h
  rw [ht]
  exact hs.append fun reason mem => (ordinary _ mem).2 reason rfl

theorem State.pass_of_desync (h : s.phase = .desynchronized) : s.pass = .stop s := by
  rw [State.pass, h]

theorem EndsAtProtocolError.pass (h : EndsAtProtocolError s) : EndsAtProtocolError s.pass.state := by
  by_cases desync : s.phase = .desynchronized
  · rw [State.pass_of_desync desync]
    exact h
  · have clean := h.inStep desync
    rcases s.pass_trace_cases with ordinary | ⟨size, name, e⟩ | ⟨reason, e, hp⟩
    · exact (ordinary.noProtocolError clean).endsAt
    · refine NoProtocolError.endsAt ?_
      rw [e, List.append_assoc]
      exact clean.append (by simp [NoProtocolError])
    · exact ⟨e ▸ clean.concat_onlyLast _, fun inStep => absurd hp inStep⟩

theorem OwnEffect.endsAtProtocolError {i : Instr} {d : Bytes} (h : OwnEffect s i d t) : EndsAtProtocolError t := by
  cases h with
  | ingest p =>
    exact State.loop_induction (s.begin.receive p) EndsAtProtocolError (fun _ => EndsAtProtocolError.pass) _
      NoProtocolError.nil.endsAt
  | disconnect => exact ((AddsOrdinary.loseConnection s.begin).noProtocolError .nil).endsAt
  | _ => exact NoProtocolError.endsAt .nil

end

/-- Settles O48: a command's own effect ends its trace where it meets a protocol error (`EndsAtProtocolError.pass`). -/
theorem protocolErrorEndsTrace : Obligations.ProtocolErrorEndsTrace := by
  intro i s t res h hd
  rcases result_cases h hd with ⟨f, -, rfl⟩ | ⟨d, u, ho, -, rfl⟩
  · exact NoProtocolError.nil.onlyLast
  · exact ho.endsAtProtocolError.onlyLast

/-! ## Text frames in one payload (43_transfer_session.md R193, R204, R207) -/

/-- The frames a sender writes for messages, one after the other (45_send_path.md R243). -/
def textFrames (ms : List Bytes) : Bytes :=
  ms.flatMap fun m => textTag ++ m ++ [lineEnd]

theorem textFrames_cons (m : Bytes) (ms : List Bytes) :
    textFrames (m :: ms) = (textTag ++ m) ++ lineEnd :: textFrames ms := by
  simp [textFrames]

section
variable {s : State}

/-- With BUF empty, a session that awaits a header rests, whatever LINE_MAX is. -/
theorem State.atRest_of_empty (hp : s.phase = .awaitingHeader) (hb : s.buf = []) : s.atRest :=
  .inl ⟨hp, by simp [hb], (tooLong_eq_false _ _).mpr (by simp [hb])⟩

/-- The loop delivers the messages of text frames one by one, until BUF is empty. -/
theorem State.receiveLoop_textFrames {ms : List Bytes} (hp : s.phase = .awaitingHeader) (hb : s.buf = textFrames ms)
    (noEnd : ∀ m ∈ ms, lineEnd ∉ m) (fits : ∀ m ∈ ms, tooLong s.lineMax (textTag ++ m).length = false) :
    s.receiveLoop = { s with buf := [], trace := s.trace ++ ms.map fun m => .event (.text m) } := by
  induction ms generalizing s with
  | nil =>
    have hb : s.buf = [] := hb
    rw [s.receiveLoop_of_atRest (State.atRest_of_empty hp hb), List.map_nil, List.append_nil, ← hb]
  | cons m ms ih =>
    obtain ⟨mEnd, restEnd⟩ := List.forall_mem_cons.mp noEnd
    obtain ⟨mFits, restFits⟩ := List.forall_mem_cons.mp fits
    have pass : s.pass = .again ((s.setBuf (textFrames ms)).textFrame m) := by
      rw [State.pass_of_awaitingHeader hp,
        State.headerStep_of_line (hb.trans (textFrames_cons m ms)) (lineEnd_not_mem_textTag_append mEnd)]
      exact State.headerLine_of_text (s := s.setBuf (textFrames ms)) mFits (parseHeader_textTag_append m)
    rw [s.receiveLoop_of_again _ pass, ih (s := (s.setBuf (textFrames ms)).textFrame m) hp rfl restEnd restFits,
      State.mk.injEq]
    simp

end

/-- Settles O49, by `State.receiveLoop_textFrames`. -/
theorem textFramesDeliveredInOrder : Obligations.TextFramesDeliveredInOrder := by
  intro s t ms hk hp hb noEnd fits h
  have inStep : s.phase ≠ .desynchronized := by simp [hp]
  have within (m : Bytes) (hm : m ∈ ms) : tooLong s.lineMax (textTag ++ m).length = false :=
    (tooLong_eq_false _ _).mpr fun n hn => by
      rw [List.length_append, Nat.add_comm]
      exact fits n hn m hm
  have frames : (s.begin.receive (textFrames ms)).buf = textFrames ms := congrArg (· ++ textFrames ms) hb
  have loop := (s.begin.receive (textFrames ms)).receiveLoop_textFrames hp frames noEnd within
  obtain rfl : (s.begin.receive (textFrames ms)).receiveLoop.respond [] = t :=
    Host.Outcome.next.inj ((exec_ingest_of_inStep (textFrames ms) hk inStep).symm.trans h)
  rw [loop]
  exact ⟨rfl, hp, rfl⟩

/-! ## A byte stream in parts (43_transfer_session.md R206) -/

section
variable {s t u : State}

theorem SameSession.symm (h : SameSession s t) : SameSession t s :=
  ⟨h.phase.symm, h.buf.symm, h.fname.symm, h.origSize.symm, h.padSize.symm, h.remain.symm, h.sinkHeld.symm,
    h.sinkFailed.symm, h.sink.symm, h.answers.symm⟩

theorem SameSession.trans (h : SameSession s t) (k : SameSession t u) : SameSession s u :=
  ⟨k.phase.trans h.phase, k.buf.trans h.buf, k.fname.trans h.fname, k.origSize.trans h.origSize,
    k.padSize.trans h.padSize, k.remain.trans h.remain, k.sinkHeld.trans h.sinkHeld, k.sinkFailed.trans h.sinkFailed,
    k.sink.trans h.sink, k.answers.trans h.answers⟩

theorem sameSession_relog (items items' : List TraceItem) (rs rs' : List CommandResult) :
    SameSession (s.relog items rs) (s.relog items' rs') := by constructor <;> rfl

end

/-- INGEST takes its payload here (43_transfer_session.md R190). -/
def State.takesIngest (s : State) : Bool :=
  s.keyValid && s.phase != .desynchronized

/-- What bytes do to the session, before the response: the receive loop on them, or nothing where INGEST fails. -/
def State.absorb (b : Bytes) (s : State) : State :=
  if s.takesIngest then (s.begin.receive b).receiveLoop else s.begin

section
variable {s : State}

theorem State.takesIngest_iff : s.takesIngest = true ↔ s.keyValid = true ∧ s.phase ≠ .desynchronized := by
  simp [State.takesIngest]

theorem State.absorb_of_takes (h : s.takesIngest = true) (b : Bytes) :
    s.absorb b = (s.begin.receive b).receiveLoop := if_pos h

theorem State.absorb_of_refuses (h : s.takesIngest = false) (b : Bytes) : s.absorb b = s.begin :=
  if_neg (Bool.eq_false_iff.mp h)

theorem exec_ingest_of_takes (h : s.takesIngest = true) (p : Bytes) :
    exec (.ingest p) s = .next ((s.absorb p).respond []) := by
  obtain ⟨keyed, inStep⟩ := State.takesIngest_iff.mp h
  rw [s.absorb_of_takes h, exec_ingest_of_inStep p keyed inStep]

theorem exec_ingest_of_refuses (h : s.takesIngest = false) (p : Bytes) :
    ∃ f, exec (.ingest p) s = .next (s.fail f) ∧ (s.keyValid = true → f = .desync) := by
  cases keyed : s.keyValid with
  | false => exact ⟨.noKey, exec_ingest_of_not_keyed p keyed, nofun⟩
  | true =>
    have desync : s.phase = .desynchronized := by simpa [State.takesIngest, keyed] using h
    exact ⟨.desync, exec_ingest_of_desync p keyed desync, fun _ => rfl⟩

theorem sameOutside_absorb (b : Bytes) : SameOutside s (s.absorb b) := by
  unfold State.absorb
  split
  · exact SameOutside.trans (t := s.begin.receive b) (by constructor <;> rfl) (sameOutside_receiveLoop _)
  · constructor <;> rfl

theorem State.absorb_nil (h : s.atRest) : s.absorb [] = s.begin := by
  unfold State.absorb
  split
  · rw [State.receive_nil, State.receiveLoop_of_atRest s.begin h]
  · rfl

theorem State.relog_begin (s : State) : s.begin.relog s.trace s.done = s := by
  simp [State.relog, State.begin]

/-- Bytes in two parts do what they do in one, with the first part's trace before the second's. -/
theorem State.absorb_append (h : s.takesIngest = true) (a b : Bytes) :
    s.absorb (a ++ b) = ((s.absorb a).absorb b).relog (s.absorb a).trace s.done := by
  obtain ⟨keyed, inStep⟩ := State.takesIngest_iff.mp h
  have whole : s.absorb (a ++ b) = ((s.begin.receive a).receive b).receiveLoop := by
    rw [s.absorb_of_takes h, State.receive_receive]
  have first := s.absorb_of_takes h a
  have outside := sameOutside_absorb (s := s) a
  obtain ⟨ended, goesOn⟩ := (s.begin.receive a).receiveLoop_receive b inStep
  rw [← first] at ended goesOn
  rw [whole, ← outside.done]
  by_cases desync : (s.absorb a).phase = .desynchronized
  · have refuses : (s.absorb a).takesIngest = false := by simp [State.takesIngest, desync]
    rw [ended desync, State.absorb_of_refuses refuses, State.relog_begin]
  · have takes : (s.absorb a).takesIngest = true := State.takesIngest_iff.mpr ⟨outside.keyValid.trans keyed, desync⟩
    have logged : ((s.absorb a).begin.receive b).relog (s.absorb a).trace (s.absorb a).done = (s.absorb a).receive b :=
      congrArg (State.receive b) (s.absorb a).relog_begin
    rw [goesOn desync, State.absorb_of_takes takes, ← State.receiveLoop_relog, logged]

/-- Bytes do the same after a response, which they leave among what the host has received. -/
theorem State.absorb_respond (b d : Bytes) :
    (s.respond d).absorb b = (s.absorb b).relog [] (s.respond d).done := by
  have takes : (s.respond d).takesIngest = s.takesIngest := rfl
  have received : (s.respond d).begin.receive b = (s.begin.receive b).relog [] (s.respond d).done := rfl
  unfold State.absorb
  rw [takes, received, State.receiveLoop_relog]
  split <;> rfl

end

/-- From `s`, commands lead to `t`: its session is that of `e`, the traces that the host received are together that of `e`,
and with a key its sticky bits are those of `e` but for ERR_DESYNC. -/
structure Received (s e t : State) : Prop where
  session : SameSession e t
  results : ∃ rs, t.done = s.done ++ rs ∧ traceOf rs = e.trace
  sticky : s.keyValid = true → t.sticky ||| 0x20#8 = e.sticky ||| 0x20#8

theorem Received.traceOf_resultsSince {s e t : State} (h : Received s e t) : traceOf (resultsSince s t) = e.trace := by
  obtain ⟨rs, done, traces⟩ := h.results
  rw [resultsSince, done, List.drop_left, traces]

theorem runCommands_cons {i : Instr} {s u : State} (h : exec i s = .next u) (is : List Instr) :
    runCommands (i :: is) s = runCommands is u := by
  simp [runCommands, h]

/-- An INGEST that takes its payload, and then what takes the rest of the stream. -/
theorem Received.after_taken {s t : State} (takes : s.takesIngest = true) (p b : Bytes)
    (h : Received ((s.absorb p).respond []) (((s.absorb p).respond []).absorb b) t) :
    Received s (s.absorb (p ++ b)) t := by
  have outside := sameOutside_absorb (s := s) p
  rw [State.absorb_respond] at h
  rw [State.absorb_append takes]
  obtain ⟨session, ⟨rs, done, traces⟩, sticky⟩ := h
  refine ⟨(sameSession_relog _ _ _ _).trans session, ⟨okResult [] (s.absorb p).trace :: rs, ?_, ?_⟩,
    fun keyed => sticky (outside.keyValid.trans keyed)⟩
  · rw [done, State.respond_done, outside.done, List.append_assoc]
    rfl
  · exact congrArg ((s.absorb p).trace ++ ·) traces

/-- An INGEST that fails, and then others, which fail too. -/
theorem Received.after_failed {s t : State} {f : Failure} (refuses : s.takesIngest = false)
    (desync : s.keyValid = true → f = .desync) (b b' : Bytes) (h : Received (s.fail f) ((s.fail f).absorb b) t) :
    Received s (s.absorb b') t := by
  rw [State.absorb_of_refuses (s := s.fail f) refuses] at h
  rw [State.absorb_of_refuses refuses]
  obtain ⟨session, ⟨rs, done, traces⟩, sticky⟩ := h
  refine ⟨SameSession.trans (by constructor <;> rfl) session,
    ⟨{ response := { status := .failed f, rdata := [] }, trace := [] } :: rs, ?_, traces⟩, fun keyed => ?_⟩
  · rw [done, State.fail_done, List.append_assoc]
    rfl
  · obtain rfl := desync keyed
    have once : s.sticky ||| 0x20#8 ||| 0x20#8 = s.sticky ||| 0x20#8 := by rw [BitVec.or_assoc, BitVec.or_self]
    exact (sticky keyed).trans once

/-- INGESTs do together what the stream that they cut does whole. -/
theorem received_runCommands {s t : State} {ps : List Bytes} (rests : s.atRest)
    (h : runCommands (ps.map .ingest) s = .next t) : Received s (s.absorb ps.flatten) t := by
  induction ps generalizing s with
  | nil =>
    obtain rfl : s = t := Host.Outcome.next.inj h
    rw [List.flatten_nil, State.absorb_nil rests]
    exact ⟨by constructor <;> rfl, ⟨[], (List.append_nil _).symm, rfl⟩, fun _ => rfl⟩
  | cons p ps ih =>
    rw [List.map_cons] at h
    rw [List.flatten_cons]
    cases takes : s.takesIngest with
    | true =>
      rw [runCommands_cons (exec_ingest_of_takes takes p)] at h
      have rests' : ((s.absorb p).respond []).atRest := by
        rw [State.absorb_of_takes takes]
        exact (s.begin.receive p).receiveLoop_atRest.respond []
      exact Received.after_taken takes p _ (ih rests' h)
    | false =>
      obtain ⟨f, fails, desync⟩ := exec_ingest_of_refuses takes p
      rw [runCommands_cons fails] at h
      exact Received.after_failed takes desync _ _ (ih (s := s.fail f) rests h)

/-- Settles O50: either cut does what the whole stream does (`received_runCommands`). -/
theorem fragmentationInvariance : Obligations.FragmentationInvariance := by
  intro s t u ps qs hp hb same ht hu
  have rests := State.atRest_of_empty hp hb
  have received := received_runCommands rests ht
  have received' := received_runCommands rests hu
  rw [← same] at received'
  obtain ⟨hphase, hbuf, hfname, horig, hpad, hremain, hheld, hfailed, hsink, hanswers⟩ :=
    received'.session.symm.trans received.session
  exact ⟨received.traceOf_resultsSince.trans received'.traceOf_resultsSince.symm, hphase, hbuf, hfname, horig, hpad, hremain,
    hheld, hfailed, hsink, hanswers, fun hk => (received.sticky hk).trans (received'.sticky hk).symm⟩

/-! ## A file from a correct sender (43_transfer_session.md R209; 45_send_path.md R240, R245 to R247) -/

theorem pad_eq_append (x : Bytes) : ∃ padding, pad x = x ++ padding := by
  unfold pad
  split
  case isTrue empty => exact ⟨[], by rw [List.eq_nil_of_length_eq_zero empty, List.append_nil]⟩
  case isFalse => exact ⟨_, rfl⟩

theorem length_le_pad_length (x : Bytes) : x.length ≤ (pad x).length := by
  obtain ⟨padding, e⟩ := pad_eq_append x
  simp [e]

/-- Cut to its own length, the padded file is the file. -/
theorem take_pad (x : Bytes) : (pad x).take x.length = x := by
  obtain ⟨padding, e⟩ := pad_eq_append x
  rw [e, List.take_left]

theorem pad_length_mod (x : Bytes) : (pad x).length % 8 = 0 := by
  unfold pad
  split
  · rfl
  · rw [List.length_append, List.length_replicate]
    omega

/-- What a sender writes, where it writes anything: a header line it can write, its delimiter, and the encrypted body. -/
theorem serializeFile_eq_some {sbox : SBox} {ks : Subkeys} {name x frame : Bytes}
    (h : serializeFile sbox ks name x = some frame) :
    (pad x).length < 2 ^ 64 ∧ colon ∉ name ∧ lineEnd ∉ name ∧
    frame = fileHeaderLine name (BitVec.ofNat 64 x.length) (BitVec.ofNat 64 (pad x).length) ++
      lineEnd :: encryptBody sbox ks (pad x) := by
  unfold serializeFile serializeFileHeader at h
  split_ifs at h with long invalid
  · simp at h
  · obtain ⟨noColon, noEnd, -⟩ := by simpa only [not_or] using invalid
    refine ⟨Nat.not_le.mp long, noColon, noEnd, ?_⟩
    simpa [eq_comm] using h

/-- The sink holds the file `name` of the engine's own, with `data` written so far. -/
structure Storing (s : State) (name data : Bytes) : Prop where
  phase : s.phase = .receivingBody
  intact : s.sinkFailed = false
  named : s.fname = name
  current : s.sink.cur = some (Config.sinkName name)
  own : s.sink.disturbed = false
  stored : lookupFile s.sink.fs (Config.sinkName name) = some data

/-- The session awaits a header with BUF empty, once the file `name` has been delivered with the contents `x`. -/
structure Delivered (s : State) (name x : Bytes) : Prop where
  phase : s.phase = .awaitingHeader
  buf : s.buf = []
  last : ∃ items, s.trace = items ++ [.event (.file (Config.sinkName name))]
  stored : lookupFile s.sink.fs (Config.sinkName name) = some x

theorem State.answersOk_of_cons_ok (s : State) {rest : Bytes} (h : s.answers = 0x00#8 :: rest) : s.answersOk = true :=
  s.answersOk_of_cons _ rest h

section
variable {s : State} {name data rest : Bytes}

/-- A FILE header with its SOPEN answered `ok` begins an empty file. -/
theorem storing_fileFrame (o p : U64) (ha : s.answers = 0x00#8 :: rest) :
    Storing (s.fileFrame name o p) name [] ∧ (s.fileFrame name o p).answers = rest ∧
    (s.fileFrame name o p).origSize = o ∧ (s.fileFrame name o p).remain = p := by
  have ok : (s.openTransfer name o p).answersOk = true := State.answersOk_of_cons_ok _ ha
  have sink := State.sinkOp_sink_of_ok _ (.sopen (Config.sinkName name)) ok
  have left := State.sinkOp_answers_of_cons (s.openTransfer name o p) (.sopen (Config.sinkName name)) _ rest ha
  rw [s.fileFrame_of_ok name o p ok]
  refine ⟨⟨rfl, by simp, by simp, ?_, ?_, ?_⟩, left, by simp, by simp⟩ <;> simp [sink, RefSink.apply]

/-- A chunk with its SWRITE answered `ok` joins the file, decrypted. -/
theorem Storing.decryptAndWrite (h : Storing s name data) (ha : s.answers = 0x00#8 :: rest) (c : Bytes) :
    Storing (s.decryptAndWrite c) name (data ++ crypt s.sbox s.ks .decrypt c) ∧ (s.decryptAndWrite c).answers = rest ∧
    (s.decryptAndWrite c).origSize = s.origSize ∧ (s.decryptAndWrite c).remain = s.remain := by
  obtain ⟨hphase, hintact, hname, hcur, hown, hstored⟩ := h
  have ok : s.releaseDatapath.answersOk = true := State.answersOk_of_cons_ok _ ha
  have sink := State.sinkOp_sink_of_ok _ (.swrite (crypt s.sbox s.ks .decrypt c)) ok
  have left := s.releaseDatapath.sinkOp_answers_of_cons (.swrite (crypt s.sbox s.ks .decrypt c)) _ rest ha
  rw [s.decryptAndWrite_of_ok c ok]
  refine ⟨⟨by simpa, by simpa, by simpa, ?_, ?_, ?_⟩, left, by simp, by simp⟩ <;> rw [sink]
  · exact (RefSink.updateCur_cur _ _ _).trans hcur
  · exact (RefSink.updateCur_disturbed _ _ _).trans hown
  · exact RefSink.apply_swrite_current _ _ _ hcur hown hstored

/-- A pass on an encrypted block, with its SWRITE answered `ok`: the block joins the file as it was before encryption. -/
theorem Storing.pass_of_block {b more : Bytes} (h : Storing s name data) (owed : s.remain ≠ 0#64) (hb : b.length = 8)
    (hbuf : s.buf = crypt s.sbox s.ks .encrypt b ++ more) (ha : s.answers = 0x00#8 :: rest) :
    ∃ t, s.pass = .again t ∧ Storing t name (data ++ b) ∧ t.buf = more ∧ t.answers = rest ∧ t.origSize = s.origSize ∧
      t.remain = s.takeChunk.remain ∧ SameOutside s t := by
  have whole : 8 ≤ s.buf.length := by
    rw [hbuf, List.length_append, crypt_length]
    exact Nat.le_add_right _ _
  have block : slice s.buf 0 8 = crypt s.sbox s.ks .encrypt b := by
    rw [hbuf]
    exact slice_append_left _ _ 8 (crypt_length _ _ _ _)
  have left : s.takeChunk.buf = more := by
    rw [State.takeChunk_buf, hbuf]
    exact List.drop_left' (crypt_length _ _ _ _)
  have taken : Storing s.takeChunk name data := ⟨h.phase, h.intact, h.named, h.current, h.own, h.stored⟩
  have outside : SameOutside s s.takeChunk := by constructor <;> rfl
  obtain ⟨stored, answers, orig, remain⟩ := taken.decryptAndWrite ha (slice s.buf 0 8)
  rw [State.takeChunk_sbox, State.takeChunk_ks, block, crypt_decrypt_encrypt _ _ hb, ← block] at stored
  exact ⟨_, State.pass_of_chunk_written h.phase owed whole h.intact, stored, (State.decryptAndWrite_buf _ _).trans left,
    answers, orig, remain, outside.trans (sameOutside_decryptAndWrite _ _)⟩

/-- Completion with its STRUNC and SCLOSE answered `ok` delivers the file, cut to ORIG_SIZE. -/
theorem Storing.complete (h : Storing s name data) (ha : s.answers = 0x00#8 :: 0x00#8 :: rest) (hb : s.buf = [])
    (ho : s.origSize.toNat ≤ data.length) : Delivered s.complete name (data.take s.origSize.toNat) := by
  obtain ⟨hphase, hintact, hname, hcur, hown, hstored⟩ := h
  have cut : s.answersOk = true := s.answersOk_of_cons_ok ha
  have left := s.sinkOp_answers_of_cons (.strunc s.origSize) _ _ ha
  have shut : (s.sinkOp (.strunc s.origSize)).answersOk = true := State.answersOk_of_cons_ok _ left
  refine ⟨s.complete_phase, s.complete_buf.trans hb, ?_, ?_⟩ <;> rw [s.complete_of_delivered hintact cut shut]
  · exact ⟨_, by rw [hname]; rfl⟩
  · have stored := s.sink.apply_strunc_current s.tookAnswer.draws s.origSize hcur hown hstored
    rw [truncated_of_le _ _ _ ho] at stored
    rw [State.closeTransfer_sink, State.emit_sink, State.sinkOp_sclose_sink, s.sinkOp_sink_of_ok _ cut, stored]

/-- The loop on the `n` encrypted blocks that a body still owes writes them decrypted, and delivers the file. -/
theorem Storing.receiveLoop {n : Nat} {y : Bytes} (h : Storing s name data) (hy : y.length = 8 * n)
    (hb : s.buf = encryptBlocks s.sbox s.ks n y) (hr : s.remain.toNat = 8 * n)
    (ha : s.answers = List.replicate (n + 2) 0x00#8 ++ rest) (ho : s.origSize.toNat ≤ (data ++ y).length) :
    Delivered s.receiveLoop name ((data ++ y).take s.origSize.toNat) := by
  induction n generalizing s data y with
  | zero =>
    obtain rfl : y = [] := List.eq_nil_of_length_eq_zero hy
    rw [List.append_nil] at ho ⊢
    have complete : s.remain = 0#64 := BitVec.eq_of_toNat_eq hr
    have delivered := h.complete ha hb ho
    rw [s.receiveLoop_of_again _ (State.pass_of_body_complete h.phase complete),
      State.receiveLoop_of_atRest _ (State.atRest_of_empty delivered.phase delivered.buf)]
    exact delivered
  | succ n ih =>
    have owed : s.remain ≠ 0#64 := fun e => by simp [e] at hr
    have less := takeChunk_remain s (by omega) owed
    have whole : data ++ slice y 0 8 ++ y.drop 8 = data ++ y := by
      rw [List.append_assoc]
      exact congrArg (data ++ ·) (List.take_append_drop 8 y)
    obtain ⟨t, pass, stored, left, answers, orig, remain, outside⟩ :=
      h.pass_of_block (rest := List.replicate (n + 2) 0x00#8 ++ rest) owed (by simp [slice, hy]) hb ha
    have delivered := ih stored (y := y.drop 8) (by rw [List.length_drop]; omega)
      (by rw [outside.sbox, outside.ks]; exact left) (by rw [remain]; omega) answers (by rw [orig, whole]; exact ho)
    rw [orig, whole] at delivered
    rw [s.receiveLoop_of_again t pass]
    exact delivered

/-- The loop on a file's whole frame, with every answer `ok` and the header line within LINE_MAX, delivers the file. -/
theorem State.receiveLoop_file {x frame : Bytes} (hp : s.phase = .awaitingHeader) (hb : s.buf = frame)
    (hf : serializeFile s.sbox s.ks name x = some frame)
    (fits : tooLong s.lineMax
      (fileHeaderLine name (BitVec.ofNat 64 x.length) (BitVec.ofNat 64 (pad x).length)).length = false)
    (ha : NextAnswersOk (3 + (pad x).length / 8) s) : Delivered s.receiveLoop name x := by
  obtain ⟨short, noColon, noEnd, rfl⟩ := serializeFile_eq_some hf
  obtain ⟨rest, ha⟩ := ha
  generalize ho : BitVec.ofNat 64 x.length = o at *
  generalize hpad : BitVec.ofNat 64 (pad x).length = p at *
  have whole : (pad x).length = 8 * ((pad x).length / 8) := by
    have := pad_length_mod x
    omega
  have orig : o.toNat = x.length := by
    rw [← ho, BitVec.toNat_ofNat, Nat.mod_eq_of_lt ((length_le_pad_length x).trans_lt short)]
  have padded : p.toNat = (pad x).length := by rw [← hpad, BitVec.toNat_ofNat, Nat.mod_eq_of_lt short]
  have mult : p.toNat % 8 = 0 := padded ▸ pad_length_mod x
  have pass : s.pass = .again ((s.setBuf (encryptBody s.sbox s.ks (pad x))).fileFrame name o p) := by
    rw [State.pass_of_awaitingHeader hp, State.headerStep_of_line hb (lineEnd_not_mem_fileHeaderLine o p noEnd)]
    exact State.headerLine_of_file (s := s.setBuf (encryptBody s.sbox s.ks (pad x))) fits
      (parseHeader_fileHeaderLine o p noColon mult)
  have opened := storing_fileFrame (s := s.setBuf (encryptBody s.sbox s.ks (pad x))) (name := name)
    (rest := List.replicate ((pad x).length / 8 + 2) 0x00#8 ++ rest) o p (by
      rw [State.setBuf_answers, ha, show 3 + (pad x).length / 8 = (pad x).length / 8 + 2 + 1 by omega]
      rfl)
  obtain ⟨storing, answers, horig, remain⟩ := opened
  have outside := sameOutside_fileFrame (s.setBuf (encryptBody s.sbox s.ks (pad x))) name o p
  have delivered := storing.receiveLoop whole (by rw [State.fileFrame_buf, outside.sbox, outside.ks]; rfl)
    (by rw [remain, padded]; exact whole) answers (by rw [horig, orig]; exact length_le_pad_length x)
  rw [horig, orig, List.nil_append, take_pad] at delivered
  rw [s.receiveLoop_of_again _ pass]
  exact delivered

end

/-- Settles O51: the INGESTs do together what the frame does whole (`received_runCommands`), and the loop on the frame
delivers the file (`State.receiveLoop_file`). -/
theorem fileRoundTrip : Obligations.FileRoundTrip := by
  intro s t name x frame ps hk hp hb hf cut fits ha h
  have ran := received_runCommands (State.atRest_of_empty hp hb) h
  have takes : s.takesIngest = true := State.takesIngest_iff.mpr ⟨hk, by simp [hp]⟩
  have received : (s.begin.receive frame).buf = frame := congrArg (· ++ frame) hb
  have delivered := State.receiveLoop_file (s := s.begin.receive frame) hp received hf ((tooLong_eq_false _ _).mpr fits) ha
  rw [cut, State.absorb_of_takes takes] at ran
  rw [ran.session.sink, ran.traceOf_resultsSince, ran.session.phase, ran.session.buf]
  exact ⟨delivered.stored, delivered.last, delivered.phase, delivered.buf⟩

end Sys2Proof.Machine

/-! PROOFS of the family 44_control.md: GET_STATUS and the reserved encodings. -/

namespace Sys2Proof.Machine

/-- A command's bytes: OP, FLG, the two bytes of LEN, and the payload (30_encoding.md R90). -/
theorem encode_eq_header_payload (i : Instr) :
    encode i = [i.op, i.flg] ++ be16bytes (BitVec.ofNat 16 i.payload.length) ++ i.payload := rfl

/-- ILLEGAL_CMD has code 1, and so sets STATUS bit 8, the first sticky bit (10_state.md R35; 30_encoding.md R94). -/
theorem State.fail_illegalCmd_eq (s : State) : s.fail .illegalCmd = s.failedWith .illegalCmd 0x01#8 :=
  s.fail_eq_failedWith .illegalCmd

/-- A command whose only effect is its response changes nothing but what the host receives. -/
theorem State.begin_respond_eq (s : State) (d : Bytes) :
    s.begin.respond d = { s with trace := [], done := s.done ++ [okResult d []] } := rfl

/-! ## GET_STATUS (44_control.md R230) -/

section
variable {p : Bytes} (s : State)

theorem exec_getStatus_of_length_ne (h : p.length ≠ 0) : exec (.getStatus p) s = .next (s.fail .illegalCmd) :=
  if_pos h

theorem exec_getStatus_of_length_eq (h : p.length = 0) :
    exec (.getStatus p) s = .next (s.begin.respond (be32bytes (status s))) :=
  if_neg (not_not.mpr h)

end

/-- Settles O25: the two ways through GET_STATUS; neither asks for a key or for a phase. -/
theorem getStatusReturnsStatus : Obligations.GetStatusReturnsStatus := by
  refine fun p s => ⟨encode_eq_header_payload (.getStatus p), fun nonempty => ?fails, fun empty => ?answers⟩
  case fails => rw [exec_getStatus_of_length_ne s nonempty, State.fail_illegalCmd_eq]
  case answers => rw [exec_getStatus_of_length_eq s empty, State.begin_respond_eq, be32bytes]

/-! ## The reserved encodings (44_control.md R231, R232) -/

theorem exec_illegal (op : Byte) (p : Bytes) (s : State) : exec (.illegal op p) s = .next (s.fail .illegalCmd) := rfl

theorem exec_illegalFlg (op flg : Byte) (p : Bytes) (s : State) :
    exec (.illegalFlg op flg p) s = .next (s.fail .illegalCmd) := rfl

/-- Settles O27: both fail with ILLEGAL_CMD before anything else, whatever the payload is. -/
theorem reservedEncodingsFail : Obligations.ReservedEncodingsFail := by
  refine fun op flg p s =>
    ⟨encode_eq_header_payload (.illegal op p), encode_eq_header_payload (.illegalFlg op flg p), ?reservedOp, ?nonzeroFlg⟩
  case reservedOp => rw [exec_illegal, State.fail_illegalCmd_eq]
  case nonzeroFlg => rw [exec_illegalFlg, State.fail_illegalCmd_eq]

end Sys2Proof.Machine

/-! PROOFS of the family 45_send_path.md: what padding appends, and how long the padded file is (R240, R241). -/

namespace Sys2Proof.Machine

theorem pad_nil : pad [] = [] := rfl

theorem pad_of_ne_nil {x : Bytes} (nonempty : x ≠ []) :
    pad x = x ++ List.replicate (8 - x.length % 8) (BitVec.ofNat 8 (8 - x.length % 8)) :=
  if_neg (mt List.eq_nil_of_length_eq_zero nonempty)

theorem length_pad_of_ne_nil {x : Bytes} (nonempty : x ≠ []) :
    (pad x).length = x.length + (8 - x.length % 8) := by
  rw [pad_of_ne_nil nonempty, List.length_append, List.length_replicate]

/-- Settles O56: the appended bytes are `pad_of_ne_nil`; the clauses on lengths are arithmetic on the length it gives. -/
theorem paddingLaws : Obligations.PaddingLaws := by
  refine ⟨pad_nil, fun x nonempty => ?_⟩
  have length := length_pad_of_ne_nil nonempty
  refine ⟨8 - x.length % 8, ?atLeastOne, Nat.sub_le _ _, pad_of_ne_nil nonempty, pad_length_mod x, ?longer,
    fun aligned => ⟨?fullBlock, ?eightMore⟩, fun short => ⟨rfl, ?nextMultiple⟩⟩
  case fullBlock => rw [aligned]
  case atLeastOne | longer | eightMore | nextMultiple => omega

end Sys2Proof.Machine

/-! PROOFS of the family 60_exceptions.md: which failure a command reports, and what a failed command leaves as it was. -/

namespace Sys2Proof.Machine

/-! ## The checks each command meets, in the order of 60_exceptions.md R265 -/

section
variable (p : Bytes) (s : State)

theorem firstFailure_setKey : firstFailure (.setKey p) s =
    if p.length ≠ 32 then some .keyLen else if s.keyValid = true then some .keyLocked else none := by
  simp [firstFailure, Instr.op, Instr.flg, Instr.payload, reservedOp]

/-- ENCRYPT and DECRYPT meet the same checks. -/
theorem firstFailure_cipher {i : Instr} (cipher : i = .encrypt p ∨ i = .decrypt p) : firstFailure i s =
    if p.length ≠ 8 then some .blockLen else if s.keyValid = false then some .noKey else none := by
  rcases cipher with rfl | rfl <;> simp [firstFailure, Instr.op, Instr.flg, Instr.payload, reservedOp]

theorem firstFailure_ingest : firstFailure (.ingest p) s =
    if s.keyValid = false then some .noKey else if s.phase = .desynchronized then some .desync else none := by
  simp [firstFailure, Instr.op, Instr.flg, reservedOp]

theorem firstFailure_disconnect : firstFailure (.disconnect p) s =
    if p.length ≠ 0 then some .illegalCmd else none := by
  simp [firstFailure, Instr.op, Instr.flg, Instr.payload, reservedOp]

theorem firstFailure_getStatus : firstFailure (.getStatus p) s =
    if p.length ≠ 0 then some .illegalCmd else none := by
  simp [firstFailure, Instr.op, Instr.flg, Instr.payload, reservedOp]

theorem firstFailure_illegal {op : Byte} (reserved : reservedOp op = true) :
    firstFailure (.illegal op p) s = some .illegalCmd := by
  simp [firstFailure, Instr.op, Instr.flg, reserved]

theorem firstFailure_illegalFlg (op : Byte) {flg : Byte} (nonzero : flg ≠ 0x00#8) :
    firstFailure (.illegalFlg op flg p) s = some .illegalCmd :=
  if_pos nonzero

end

/-! ## A command fails with its first failure, or has its own effect -/

/-- `exec_cases` with the failure named: a well-formed command fails with the first check it does not pass, and has its own
effect where it passes all. -/
theorem exec_by_firstFailure (i : Instr) (s : State) (wf : i.wf = true) :
    (∃ f, firstFailure i s = some f ∧ exec i s = .next (s.fail f)) ∨
    (firstFailure i s = none ∧ ∃ d u, OwnEffect s i d u ∧ exec i s = .next (u.respond d)) := by
  cases i with
  | setKey p =>
    rw [firstFailure_setKey]
    by_cases len : p.length = 32
    · cases key : s.keyValid with
      | false => exact .inr ⟨by simp [len], _, _, .setKey p len key, exec_setKey_of_unlocked s len key⟩
      | true => exact .inl ⟨.keyLocked, by simp [len], exec_setKey_of_locked s len key⟩
    · exact .inl ⟨.keyLen, if_pos len, exec_setKey_of_length_ne s len⟩
  | encrypt p | decrypt p =>
    rw [firstFailure_cipher p s (by simp)]
    by_cases len : p.length = 8
    · cases key : s.keyValid with
      | false => exact .inl ⟨.noKey, by simp [len], congrArg _ (cipherCommand_of_not_keyed _ s len key)⟩
      | true =>
        exact .inr ⟨by simp [len], _, s.begin.releaseDatapath, by constructor <;> assumption,
          congrArg _ (cipherCommand_of_keyed _ s len key)⟩
    · exact .inl ⟨.blockLen, if_pos len, congrArg _ (cipherCommand_of_length_ne _ s len)⟩
  | ingest p =>
    rw [firstFailure_ingest]
    cases key : s.keyValid with
    | false => exact .inl ⟨.noKey, rfl, exec_ingest_of_not_keyed p key⟩
    | true =>
      by_cases phase : s.phase = .desynchronized
      · exact .inl ⟨.desync, by simp [phase], exec_ingest_of_desync p key phase⟩
      · exact .inr ⟨by simp [phase], _, _, .ingest p key phase, exec_ingest_of_inStep p key phase⟩
  | disconnect p =>
    cases p with
    | nil => exact .inr ⟨firstFailure_disconnect [] s, _, _, .disconnect, exec_disconnect_of_length_eq rfl⟩
    | cons b p => exact .inl ⟨.illegalCmd, firstFailure_disconnect (b :: p) s, exec_disconnect_of_length_ne (by simp)⟩
  | getStatus p =>
    cases p with
    | nil => exact .inr ⟨firstFailure_getStatus [] s, _, _, .getStatus, exec_getStatus_of_length_eq s rfl⟩
    | cons b p => exact .inl ⟨.illegalCmd, firstFailure_getStatus (b :: p) s, exec_getStatus_of_length_ne s (by simp)⟩
  | illegal op p =>
    obtain ⟨reserved, -⟩ : reservedOp op = true ∧ payloadFits p = true := by simpa [Instr.wf] using wf
    exact .inl ⟨.illegalCmd, firstFailure_illegal p s reserved, exec_illegal op p s⟩
  | illegalFlg op flg p =>
    obtain ⟨nonzero, -⟩ : flg ≠ 0x00#8 ∧ payloadFits p = true := by simpa [Instr.wf] using wf
    exact .inl ⟨.illegalCmd, firstFailure_illegalFlg p s op nonzero, exec_illegalFlg op flg p s⟩

section
variable {i : Instr} {s t : State} {res : CommandResult} (h : exec i s = .next t) (hd : t.done = s.done ++ [res])
include h hd

/-- A failure the host received is the one with which the command failed: nothing else ends a command with that status. -/
theorem eq_fail_of_status_failed {f : Failure} (failed : res.response.status = .failed f) :
    t = s.fail f ∧ res = { response := { status := .failed f, rdata := [] }, trace := [] } := by
  rcases result_cases h hd with ⟨g, rfl, rfl⟩ | ⟨d, u, -, -, rfl⟩
  · obtain rfl : g = f := Status.failed.inj failed
    exact ⟨rfl, rfl⟩
  · cases failed

/-- The status the host receives is that of the first failure, or OK where there is none. -/
theorem status_eq_of_firstFailure (wf : i.wf = true) :
    (∃ f, firstFailure i s = some f ∧ res.response.status = .failed f) ∨
    (firstFailure i s = none ∧ res.response.status = .ok) := by
  rcases exec_by_firstFailure i s wf with ⟨f, first, fails⟩ | ⟨passes, d, u, own, responds⟩
  · obtain rfl : s.fail f = t := Host.Outcome.next.inj (fails.symm.trans h)
    have : res = { response := { status := .failed f, rdata := [] }, trace := [] } := by simpa [eq_comm] using hd
    exact .inl ⟨f, first, congrArg (·.response.status) this⟩
  · obtain rfl : u.respond d = t := Host.Outcome.next.inj (responds.symm.trans h)
    have : res = okResult d u.trace := by simpa [own.done_eq, okResult, eq_comm] using hd
    exact .inr ⟨passes, congrArg (·.response.status) this⟩

end

/-- Settles O28: the command reports its first failure (`status_eq_of_firstFailure`), and what it reports says which bit it
set (`eq_fail_of_status_failed`). -/
theorem firstFailureIsReported : Obligations.FirstFailureIsReported := by
  intro i s t res wf h hd
  rcases status_eq_of_firstFailure h hd wf with ⟨f, first, status⟩ | ⟨passes, status⟩
  · obtain ⟨rfl, -⟩ := eq_fail_of_status_failed h hd status
    rw [first]
    refine ⟨status, fun g hg => ?_⟩
    obtain rfl : f = g := Option.some.inj hg
    exact s.fail_sticky f
  · rw [passes]
    exact ⟨status, fun g hg => nomatch hg⟩

/-- Settles O29: the command ended in `State.fail`, which sets one bit and sends one empty response. -/
theorem failedCommandChangesOnlyItsBit : Obligations.FailedCommandChangesOnlyItsBit := by
  intro i s t res f h hd failed
  obtain ⟨rfl, rfl⟩ := eq_fail_of_status_failed h hd failed
  exact ⟨s.fail_eq_failedWith f, s.fail_sticky f, rfl, rfl⟩

end Sys2Proof.Machine
